-- ==== Sys2Proof/Word.lean ====
section
/-! DEFINITION. The word types of CARAMBOLAS-CORE (00_scope.md R9, R11): words of 32 bits, bytes, and the index of a
field-element register. Nothing here computes. -/

namespace Sys2Proof

/-- A 32-bit word: `u32` of R11, and, read as two's complement, `i32`. -/
abbrev Word := BitVec 32

/-- A byte of R11. -/
abbrev Byte := BitVec 8

/-- The index of a field-element register: the 4-bit fields `fd`, `fa`, `fb` of the command word (R91, R92). -/
abbrev FeIdx := Fin 16

/-- The number of one of the ten limbs of a field element (R190). -/
abbrev LimbIdx := Fin 10

end Sys2Proof
end

