-- ==== Sys2Proof/Machine/Bytes.lean ====
section
/-! DEFINITION. Byte order and the readings of words (00_scope.md R12 to R14, 20_memory.md R63, R67): everything the CORE
reads from or writes to a buffer is little-endian, and offsets and lengths are words read as i32. -/

namespace Sys2Proof.Machine

/-- `s32` of R67: a word read as a two's-complement i32. -/
def s32 (w : Word) : Int := w.toInt

/-- `LE(b)` of R14: the little-endian value of a byte string. -/
def leValue : List Byte → Nat
  | [] => 0
  | b :: bs => b.toNat + 256 * leValue bs

/-- `LEbytes_n(v)` of R14: the `n` bytes whose little-endian value is `v mod 2^(8n)`. -/
def leBytes : Nat → Nat → List Byte
  | 0, _ => []
  | n + 1, v => BitVec.ofNat 8 v :: leBytes n (v / 256)

/-- `LE(b[i .. i+n-1])`, the little-endian value of `n` bytes from index `i`. -/
def leAt (b : List Byte) (i n : Nat) : Nat := leValue ((b.drop i).take n)

/-- `LE32(b, i)` of R14, as a word. -/
def le32 (b : List Byte) (i : Nat) : Word := BitVec.ofNat 32 (leAt b i 4)

/-- `rotl(x, n)` of R13. -/
def rotl (x : Word) (n : Nat) : Word := (x <<< n) ||| (x >>> (32 - n))

/-- `add32(a, b)` of R12: the sum mod 2^32. -/
def add32 (a b : Word) : Word := a + b

/-- `CtEq(a, b, n)` of 40_value_types.md R115: every byte pair is visited and the differences are or-ed together. -/
def ctEq (a b : List Byte) : Bool :=
  (List.zipWith (fun x y => x ^^^ y) a b).foldl (fun d x => d ||| x) 0#8 == 0#8

end Sys2Proof.Machine
end

