-- ==== Sys2Proof/Config.lean ====
section
/-! DEFINITION. What an implementation fixes (the parameters of 00_scope.md R9) and the free values the spec leaves open
(the scratch of 10_state.md R40). The parameters are plain data: an instance carries its own in its state, so a statement
about every state holds for every setting (log 3). -/

namespace Sys2Proof

/-- `AEAD_TAIL_POLICY` (R9, 42_poly1305.md R166). -/
inductive AeadTail where
  | tailZero
  | allOne
  | allZero
deriving DecidableEq, Repr

/-- `DECODE_CARRY_ORDER` (R9, 44_field_invert_codec.md R236). -/
inductive DecodeOrder where
  | ref10
  | sequential
deriving DecidableEq, Repr

/-- `MUL121666_CARRY_ORDER` (R9, 43_field_arith.md R208). -/
inductive Mul121666Order where
  | ref10
  | mulOrder
deriving DecidableEq, Repr

/-- The implementation parameters of R9, which the spec says the model takes as arguments. -/
structure Params where
  /-- `NFE`: how many field-element registers exist, 1 to 16. -/
  nfe : Nat
  /-- `NBUF`: how many buffer-table slots exist, at least 1. -/
  nbuf : Nat
  /-- `AEAD_TAIL_POLICY`. -/
  aeadTail : AeadTail
  /-- `COUNTER_WRITEBACK`. -/
  counterWriteback : Bool
  /-- `ZERO_LENGTH_CHECKS`. -/
  zeroLengthChecks : Bool
  /-- `DECODE_CARRY_ORDER`. -/
  decodeOrder : DecodeOrder
  /-- `MUL121666_CARRY_ORDER`. -/
  mul121666Order : Mul121666Order
deriving DecidableEq, Repr

/-- The default column of R9. `NBUF` is OPEN there: 8 is a DESIGN CHOICE, the value of the spec's examples (log 3). -/
def Config.defaults : Params where
  nfe := 16
  nbuf := 8
  aeadTail := .tailZero
  counterWriteback := false
  zeroLengthChecks := true
  decodeOrder := .ref10
  mul121666Order := .ref10

/-- What `WORK` holds after a ChaCha20 command: unspecified (R40), a free value, drawn anew at every use (log 5). -/
opaque Config.freeWork : Nat → Vector Word 16

/-- What `BLK` holds after a ChaCha20 command: unspecified (R40), a free value, drawn anew at every use (log 5). -/
opaque Config.freeBlk : Nat → Vector Byte 64

end Sys2Proof
end

