-- ==== Sys2Proof/Syntax.lean ====
section
/-! DEFINITION. The twenty commands of 30_encoding.md R95, one constructor per row of spec/opcode_table.json. The operands
stand in the order of R100: first the fields of the command word, then the argument words. -/

namespace Sys2Proof

/-- A decoded command. Handles (`h`), offsets (`off`), lengths (`len`), counters and nonce words are whole argument words
(R94, R96); `fd`, `fa`, `fb` are register indices and `bit` is the swap flag (R91). -/
inductive Instr where
  /-- KEY_EQ, R116. -/
  | keyEq (h1 off1 h2 off2 : Word)
  /-- MAC_EQ, R117. -/
  | macEq (h1 off1 h2 off2 : Word)
  /-- CC_SETKEY, R140. -/
  | ccSetkey (kh koff : Word)
  /-- CC_BLOCK, R141. -/
  | ccBlock (dh doff ctr n0 n1 n2 : Word)
  /-- CC_ENCRYPT, R143. -/
  | ccEncrypt (sh soff dh doff len n0 n1 n2 : Word)
  /-- CC_DECRYPT, R146. -/
  | ccDecrypt (sh soff dh doff len n0 n1 n2 : Word)
  /-- CC_CREATEKEY, R147. -/
  | ccCreatekey (dh doff ctr n0 n1 n2 : Word)
  /-- P_SIGN, R170. -/
  | pSign (mh moff mlen kh koff th toff : Word)
  /-- P_VERIFY, R171. -/
  | pVerify (mh moff mlen kh koff th toff : Word)
  /-- A_SIGN, R172. -/
  | aSign (ah aoff alen ch coff clen kh koff th toff : Word)
  /-- A_VERIFY, R173. -/
  | aVerify (ah aoff alen ch coff clen kh koff th toff : Word)
  /-- F_ADD, R200. -/
  | fAdd (fd fa fb : FeIdx)
  /-- F_SUB, R201. -/
  | fSub (fd fa fb : FeIdx)
  /-- F_MUL, R203. -/
  | fMul (fd fa fb : FeIdx)
  /-- F_SQR, R205. -/
  | fSqr (fd fa : FeIdx)
  /-- F_MUL121666, R207. -/
  | fMul121666 (fd fa : FeIdx)
  /-- F_INV, R232. -/
  | fInv (fd fa : FeIdx)
  /-- F_CSWAP, R209. -/
  | fCswap (fa fb : FeIdx) (bit : BitVec 1)
  /-- F_DECODE, R240. -/
  | fDecode (fd : FeIdx) (sh soff : Word)
  /-- F_ENCODE, R245. -/
  | fEncode (fa : FeIdx) (dh doff : Word)
deriving DecidableEq, Repr

end Sys2Proof
end

