-- ==== Sys2Proof/WellFormed.lean ====
section
/-! DEFINITION. Which commands and which parameters the spec admits: an index field must be below `NFE` (30_encoding.md R92,
R97 condition 4), and the parameters have the legal values of 00_scope.md R9. Everything else a command's operands must meet
holds by their types. -/

namespace Sys2Proof

/-- The field-element registers a command names, in the order of R91: `fd`, `fa`, `fb`. -/
def Instr.indices : Instr → List FeIdx
  | .keyEq _ _ _ _ => []
  | .macEq _ _ _ _ => []
  | .ccSetkey _ _ => []
  | .ccBlock _ _ _ _ _ _ => []
  | .ccEncrypt _ _ _ _ _ _ _ _ => []
  | .ccDecrypt _ _ _ _ _ _ _ _ => []
  | .ccCreatekey _ _ _ _ _ _ => []
  | .pSign _ _ _ _ _ _ _ => []
  | .pVerify _ _ _ _ _ _ _ => []
  | .aSign _ _ _ _ _ _ _ _ _ _ => []
  | .aVerify _ _ _ _ _ _ _ _ _ _ => []
  | .fAdd fd fa fb => [fd, fa, fb]
  | .fSub fd fa fb => [fd, fa, fb]
  | .fMul fd fa fb => [fd, fa, fb]
  | .fSqr fd fa => [fd, fa]
  | .fMul121666 fd fa => [fd, fa]
  | .fInv fd fa => [fd, fa]
  | .fCswap fa fb _ => [fa, fb]
  | .fDecode fd _ _ => [fd]
  | .fEncode fa _ _ => [fa]

/-- Every index field the command uses is below `NFE` (R92). -/
def Instr.wf (nfe : Nat) (i : Instr) : Bool :=
  i.indices.all fun j => decide (j.val < nfe)

/-- The legal values of R9. -/
abbrev Params.Legal (p : Params) : Prop :=
  1 ≤ p.nfe ∧ p.nfe ≤ 16 ∧ 1 ≤ p.nbuf

end Sys2Proof
end

