-- ==== Sys2Proof/Decode.lean ====
section
/-! DEFINITION. Frames and their decoding (30_encoding.md R90 to R99): the fields of the command word, the formats and their
masks, the opcode map, the decode check in the rule's order, and the encoder written from the same tables. -/

namespace Sys2Proof

/-! ### Fields of the command word (R91) -/

/-- `opc`, bits 7:0. -/
def fieldOpc (w0 : Word) : BitVec 8 := w0.extractLsb' 0 8

/-- `fd`, bits 11:8. -/
def fieldFd (w0 : Word) : FeIdx := (w0.extractLsb' 8 4).toFin

/-- `fa`, bits 15:12. -/
def fieldFa (w0 : Word) : FeIdx := (w0.extractLsb' 12 4).toFin

/-- `fb`, bits 19:16. -/
def fieldFb (w0 : Word) : FeIdx := (w0.extractLsb' 16 4).toFin

/-- `bit`, bit 20. -/
def fieldBit (w0 : Word) : BitVec 1 := w0.extractLsb' 20 1

/-- The command word with the given fields, `opc | fd<<8 | fa<<12 | fb<<16 | bit<<20` (R91, R200); `rsv` is 0. -/
def commandWord (opc : BitVec 8) (fd fa fb : FeIdx) (bit : BitVec 1) : Word :=
  opc.zeroExtend 32 ||| (BitVec.ofNat 32 fd.val <<< 8) ||| (BitVec.ofNat 32 fa.val <<< 12) |||
    (BitVec.ofNat 32 fb.val <<< 16) ||| (bit.zeroExtend 32 <<< 20)

/-! ### Formats (R93) -/

/-- The formats of R93. -/
inductive Format where
  | n
  | r3
  | r2
  | s
  | rd
  | ra
deriving DecidableEq, Repr

/-- The W0 mask of a format: the bits that must match. -/
def Format.mask : Format → Word
  | .n => 0xFFFFFFFF#32
  | .r3 => 0xFFF000FF#32
  | .r2 => 0xFFFF00FF#32
  | .s => 0xFFE00FFF#32
  | .rd => 0xFFFFF0FF#32
  | .ra => 0xFFFF0FFF#32

/-- The index fields a format uses. -/
def Format.indices (f : Format) (w0 : Word) : List FeIdx :=
  match f with
  | .n => []
  | .r3 => [fieldFd w0, fieldFa w0, fieldFb w0]
  | .r2 => [fieldFd w0, fieldFa w0]
  | .s => [fieldFa w0, fieldFb w0]
  | .rd => [fieldFd w0]
  | .ra => [fieldFa w0]

/-! ### The opcode map (R95) -/

/-- The twenty commands of R95. -/
inductive Opcode where
  | keyEq
  | macEq
  | ccSetkey
  | ccBlock
  | ccEncrypt
  | ccDecrypt
  | ccCreatekey
  | pSign
  | pVerify
  | aSign
  | aVerify
  | fAdd
  | fSub
  | fMul
  | fSqr
  | fMul121666
  | fInv
  | fCswap
  | fDecode
  | fEncode
deriving DecidableEq, Repr

/-- The `opc` column. -/
def Opcode.code : Opcode → BitVec 8
  | .keyEq => 0x01#8
  | .macEq => 0x02#8
  | .ccSetkey => 0x10#8
  | .ccBlock => 0x11#8
  | .ccEncrypt => 0x12#8
  | .ccDecrypt => 0x13#8
  | .ccCreatekey => 0x14#8
  | .pSign => 0x20#8
  | .pVerify => 0x21#8
  | .aSign => 0x22#8
  | .aVerify => 0x23#8
  | .fAdd => 0x30#8
  | .fSub => 0x31#8
  | .fMul => 0x32#8
  | .fSqr => 0x33#8
  | .fMul121666 => 0x34#8
  | .fInv => 0x35#8
  | .fCswap => 0x36#8
  | .fDecode => 0x37#8
  | .fEncode => 0x38#8

/-- The format column. -/
def Opcode.format : Opcode → Format
  | .keyEq => .n
  | .macEq => .n
  | .ccSetkey => .n
  | .ccBlock => .n
  | .ccEncrypt => .n
  | .ccDecrypt => .n
  | .ccCreatekey => .n
  | .pSign => .n
  | .pVerify => .n
  | .aSign => .n
  | .aVerify => .n
  | .fAdd => .r3
  | .fSub => .r3
  | .fMul => .r3
  | .fSqr => .r2
  | .fMul121666 => .r2
  | .fInv => .r2
  | .fCswap => .s
  | .fDecode => .rd
  | .fEncode => .ra

/-- The NARGS column. -/
def Opcode.nargs : Opcode → Nat
  | .keyEq => 4
  | .macEq => 4
  | .ccSetkey => 2
  | .ccBlock => 6
  | .ccEncrypt => 8
  | .ccDecrypt => 8
  | .ccCreatekey => 6
  | .pSign => 7
  | .pVerify => 7
  | .aSign => 10
  | .aVerify => 10
  | .fAdd => 0
  | .fSub => 0
  | .fMul => 0
  | .fSqr => 0
  | .fMul121666 => 0
  | .fInv => 0
  | .fCswap => 0
  | .fDecode => 2
  | .fEncode => 2

/-- The rows of the map, in its order. -/
def Opcode.all : List Opcode :=
  [.keyEq, .macEq, .ccSetkey, .ccBlock, .ccEncrypt, .ccDecrypt, .ccCreatekey, .pSign, .pVerify, .aSign, .aVerify,
   .fAdd, .fSub, .fMul, .fSqr, .fMul121666, .fInv, .fCswap, .fDecode, .fEncode]

/-- The command of an opcode value; a reserved value has none (R98). -/
def Opcode.ofCode (c : BitVec 8) : Option Opcode := Opcode.all.find? fun o => o.code == c

/-! ### Decoding (R97) -/

/-- The conditions of R97, by name and in its order. Each makes the frame illegal. -/
inductive DecodeError where
  | emptyFrame
  | reservedOpcode
  | maskMismatch
  | indexOutOfRange
  | wrongLength
deriving DecidableEq, Repr

/-- The command of a frame whose opcode, mask and indices have been checked; the argument words must be as many as `NARGS`
(R97 condition 5), and stand in the order of R95. -/
def assemble (o : Opcode) (w0 : Word) (args : List Word) : Except DecodeError Instr :=
  match o with
  | .keyEq => match args with
    | [h1, off1, h2, off2] => .ok (.keyEq h1 off1 h2 off2)
    | _ => .error .wrongLength
  | .macEq => match args with
    | [h1, off1, h2, off2] => .ok (.macEq h1 off1 h2 off2)
    | _ => .error .wrongLength
  | .ccSetkey => match args with
    | [kh, koff] => .ok (.ccSetkey kh koff)
    | _ => .error .wrongLength
  | .ccBlock => match args with
    | [dh, doff, ctr, n0, n1, n2] => .ok (.ccBlock dh doff ctr n0 n1 n2)
    | _ => .error .wrongLength
  | .ccEncrypt => match args with
    | [sh, soff, dh, doff, len, n0, n1, n2] => .ok (.ccEncrypt sh soff dh doff len n0 n1 n2)
    | _ => .error .wrongLength
  | .ccDecrypt => match args with
    | [sh, soff, dh, doff, len, n0, n1, n2] => .ok (.ccDecrypt sh soff dh doff len n0 n1 n2)
    | _ => .error .wrongLength
  | .ccCreatekey => match args with
    | [dh, doff, ctr, n0, n1, n2] => .ok (.ccCreatekey dh doff ctr n0 n1 n2)
    | _ => .error .wrongLength
  | .pSign => match args with
    | [mh, moff, mlen, kh, koff, th, toff] => .ok (.pSign mh moff mlen kh koff th toff)
    | _ => .error .wrongLength
  | .pVerify => match args with
    | [mh, moff, mlen, kh, koff, th, toff] => .ok (.pVerify mh moff mlen kh koff th toff)
    | _ => .error .wrongLength
  | .aSign => match args with
    | [ah, aoff, alen, ch, coff, clen, kh, koff, th, toff] =>
      .ok (.aSign ah aoff alen ch coff clen kh koff th toff)
    | _ => .error .wrongLength
  | .aVerify => match args with
    | [ah, aoff, alen, ch, coff, clen, kh, koff, th, toff] =>
      .ok (.aVerify ah aoff alen ch coff clen kh koff th toff)
    | _ => .error .wrongLength
  | .fAdd => match args with
    | [] => .ok (.fAdd (fieldFd w0) (fieldFa w0) (fieldFb w0))
    | _ => .error .wrongLength
  | .fSub => match args with
    | [] => .ok (.fSub (fieldFd w0) (fieldFa w0) (fieldFb w0))
    | _ => .error .wrongLength
  | .fMul => match args with
    | [] => .ok (.fMul (fieldFd w0) (fieldFa w0) (fieldFb w0))
    | _ => .error .wrongLength
  | .fSqr => match args with
    | [] => .ok (.fSqr (fieldFd w0) (fieldFa w0))
    | _ => .error .wrongLength
  | .fMul121666 => match args with
    | [] => .ok (.fMul121666 (fieldFd w0) (fieldFa w0))
    | _ => .error .wrongLength
  | .fInv => match args with
    | [] => .ok (.fInv (fieldFd w0) (fieldFa w0))
    | _ => .error .wrongLength
  | .fCswap => match args with
    | [] => .ok (.fCswap (fieldFa w0) (fieldFb w0) (fieldBit w0))
    | _ => .error .wrongLength
  | .fDecode => match args with
    | [sh, soff] => .ok (.fDecode (fieldFd w0) sh soff)
    | _ => .error .wrongLength
  | .fEncode => match args with
    | [dh, doff] => .ok (.fEncode (fieldFa w0) dh doff)
    | _ => .error .wrongLength

/-- The decode check of R97 and the command it finds: the conditions in the rule's order, the first that holds decides. -/
def decode (nfe : Nat) (frame : List Word) : Except DecodeError Instr :=
  match frame with
  | [] => .error .emptyFrame
  | w0 :: args =>
    match Opcode.ofCode (fieldOpc w0) with
    | none => .error .reservedOpcode
    | some o =>
      if w0 &&& o.format.mask ≠ o.code.zeroExtend 32 then .error .maskMismatch
      else if (o.format.indices w0).any fun j => decide (nfe ≤ j.val) then .error .indexOutOfRange
      else assemble o w0 args

/-! ### Encoding -/

/-- The frame of a command, from the formats of R93 and the map of R95: unused fields are 0. -/
def encode : Instr → List Word
  | .keyEq h1 off1 h2 off2 => [commandWord 0x01#8 0 0 0 0, h1, off1, h2, off2]
  | .macEq h1 off1 h2 off2 => [commandWord 0x02#8 0 0 0 0, h1, off1, h2, off2]
  | .ccSetkey kh koff => [commandWord 0x10#8 0 0 0 0, kh, koff]
  | .ccBlock dh doff ctr n0 n1 n2 => [commandWord 0x11#8 0 0 0 0, dh, doff, ctr, n0, n1, n2]
  | .ccEncrypt sh soff dh doff len n0 n1 n2 => [commandWord 0x12#8 0 0 0 0, sh, soff, dh, doff, len, n0, n1, n2]
  | .ccDecrypt sh soff dh doff len n0 n1 n2 => [commandWord 0x13#8 0 0 0 0, sh, soff, dh, doff, len, n0, n1, n2]
  | .ccCreatekey dh doff ctr n0 n1 n2 => [commandWord 0x14#8 0 0 0 0, dh, doff, ctr, n0, n1, n2]
  | .pSign mh moff mlen kh koff th toff => [commandWord 0x20#8 0 0 0 0, mh, moff, mlen, kh, koff, th, toff]
  | .pVerify mh moff mlen kh koff th toff => [commandWord 0x21#8 0 0 0 0, mh, moff, mlen, kh, koff, th, toff]
  | .aSign ah aoff alen ch coff clen kh koff th toff =>
    [commandWord 0x22#8 0 0 0 0, ah, aoff, alen, ch, coff, clen, kh, koff, th, toff]
  | .aVerify ah aoff alen ch coff clen kh koff th toff =>
    [commandWord 0x23#8 0 0 0 0, ah, aoff, alen, ch, coff, clen, kh, koff, th, toff]
  | .fAdd fd fa fb => [commandWord 0x30#8 fd fa fb 0]
  | .fSub fd fa fb => [commandWord 0x31#8 fd fa fb 0]
  | .fMul fd fa fb => [commandWord 0x32#8 fd fa fb 0]
  | .fSqr fd fa => [commandWord 0x33#8 fd fa 0 0]
  | .fMul121666 fd fa => [commandWord 0x34#8 fd fa 0 0]
  | .fInv fd fa => [commandWord 0x35#8 fd fa 0 0]
  | .fCswap fa fb bit => [commandWord 0x36#8 0 fa fb bit]
  | .fDecode fd sh soff => [commandWord 0x37#8 fd 0 0 0, sh, soff]
  | .fEncode fa dh doff => [commandWord 0x38#8 0 fa 0 0, dh, doff]

/-- A frame as a host serialises it: each word little-endian (R90). -/
def frameBytes (frame : List Word) : List Byte := frame.flatMap fun w => Machine.leBytes 4 w.toNat

/-! ### Words of the opcode table -/

/-- How many argument words a command word's opcode takes; none for a reserved opcode. -/
def argsOf (w0 : Word) : Nat :=
  match Opcode.ofCode (fieldOpc w0) with
  | none => 0
  | some o => o.nargs

/-- The frame of an instruction whose bits are `w`, bit 0 the lowest of `W0` and each later word 32 bits further up: as many
words as the bits given need, and at least `1 + NARGS`; bits above `nbits` are 0 (log 15). -/
def tableFrame (nbits w : Nat) : List Word :=
  let v := w % 2 ^ nbits
  (List.range (max ((nbits + 31) / 32) (1 + argsOf (BitVec.ofNat 32 v)))).map fun k =>
    BitVec.ofNat 32 (v >>> (32 * k))

/-- The command the decoder reads from a word of the opcode table, with `NFE` at its default. -/
def decodeTableWord (nbits w : Nat) : Option Instr :=
  match decode Config.defaults.nfe (tableFrame nbits w) with
  | .ok i => some i
  | .error _ => none

end Sys2Proof
end

