-- ==== Sys2Proof/Machine/ChaChaCore.lean ====
section
/-! DEFINITION. The ChaCha20 functions of 41_chacha20.md R130 to R136: the initial state, the quarter-round, the rounds, the
block, the keystream and the stream transform. -/

namespace Sys2Proof.Machine

/-- The four constant words of R131. -/
def sigma0 : Word := 0x61707865#32
def sigma1 : Word := 0x3320646e#32
def sigma2 : Word := 0x79622d32#32
def sigma3 : Word := 0x6b206574#32

/-- The nonce words `N0, N1, N2` (40_value_types.md R111). -/
structure Nonce where
  n0 : Word
  n1 : Word
  n2 : Word
deriving DecidableEq, Repr

/-- The initial state `S` of R130. -/
def chachaInit (key : Vector Word 8) (c : Word) (nonce : Nonce) : Vector Word 16 :=
  #v[sigma0, sigma1, sigma2, sigma3,
     key[0], key[1], key[2], key[3], key[4], key[5], key[6], key[7],
     c, nonce.n0, nonce.n1, nonce.n2]

/-- `QR(x, a, b, c, d)` of R132: twelve updates in the rule's order. -/
def quarterRound (x : Vector Word 16) (a b c d : Fin 16) : Vector Word 16 :=
  let x := x.set a (add32 x[a] x[b])
  let x := x.set d (rotl (x[d] ^^^ x[a]) 16)
  let x := x.set c (add32 x[c] x[d])
  let x := x.set b (rotl (x[b] ^^^ x[c]) 12)
  let x := x.set a (add32 x[a] x[b])
  let x := x.set d (rotl (x[d] ^^^ x[a]) 8)
  let x := x.set c (add32 x[c] x[d])
  x.set b (rotl (x[b] ^^^ x[c]) 7)

/-- One iteration of R133: the column round, then the diagonal round. -/
def doubleRound (x : Vector Word 16) : Vector Word 16 :=
  let x := quarterRound x 0 4 8 12
  let x := quarterRound x 1 5 9 13
  let x := quarterRound x 2 6 10 14
  let x := quarterRound x 3 7 11 15
  let x := quarterRound x 0 5 10 15
  let x := quarterRound x 1 6 11 12
  let x := quarterRound x 2 7 8 13
  quarterRound x 3 4 9 14

/-- `n` iterations of the double round. -/
def doubleRounds : Nat → Vector Word 16 → Vector Word 16
  | 0, x => x
  | n + 1, x => doubleRounds n (doubleRound x)

/-- The output words `y` of R134: the words after the rounds added to the words before. -/
def chachaWords (key : Vector Word 8) (c : Word) (nonce : Nonce) : List Word :=
  let s := chachaInit key c nonce
  List.zipWith add32 (doubleRounds 10 s).toList s.toList

/-- `ChaChaBlock(K, c, N)` of R134: the output words, each little-endian. -/
def chachaBlock (key : Vector Word 8) (c : Word) (nonce : Nonce) : List Byte :=
  (chachaWords key c nonce).flatMap fun w => leBytes 4 w.toNat

/-- `ceil(L / 64)`: how many blocks a stream of `L` bytes uses (R136). -/
def blockCount (len : Nat) : Nat := (len + 63) / 64

/-- The keystream blocks from counter `c0` on, counters mod 2^32 (R135). -/
def keystream (key : Vector Word 8) (c0 : Word) (nonce : Nonce) (blocks : Nat) : List Byte :=
  (List.range blocks).flatMap fun j => chachaBlock key (c0 + BitVec.ofNat 32 j) nonce

/-- `StreamXor(K, c0, N, src)` of R136: a last partial block uses only its first bytes. -/
def streamXor (key : Vector Word 8) (c0 : Word) (nonce : Nonce) (src : List Byte) : List Byte :=
  List.zipWith (fun x k => x ^^^ k) src (keystream key c0 nonce (blockCount src.length))

end Sys2Proof.Machine
end

