-- ==== Sys2Proof/Machine/State.lean ====
section
/-! DEFINITION. The state of one CORE instance (10_state.md R30), the reasons a step can stop, and the state after reset
(R45, 70_reset_and_hazards.md R290). Three fields are the model's own, not the spec's: `agenda`, `reply` and `fresh`; and
`params` holds the parameters of 00_scope.md R9. -/

namespace Sys2Proof.Machine

/-- The ten limbs of a field-element value, limb 0 lowest (43_field_arith.md R190). -/
structure Limbs (α : Type) where
  l0 : α
  l1 : α
  l2 : α
  l3 : α
  l4 : α
  l5 : α
  l6 : α
  l7 : α
  l8 : α
  l9 : α
deriving DecidableEq, Repr

/-- A field-element register: ten i32 limbs and the written mark `FE[i].w` (R31, R37). -/
structure FeReg where
  limbs : Limbs Word
  written : Bool
deriving DecidableEq, Repr

/-- The key register: eight words and the written mark `KEY.w` (R32, R37). -/
structure KeyReg where
  words : Vector Word 8
  written : Bool
deriving DecidableEq, Repr

/-- The counter register: one word and the written mark `CTR.w` (R34, R37). -/
structure CtrReg where
  value : Word
  written : Bool
deriving DecidableEq, Repr

/-- The error codes of R36; codes 3 to 15 are never produced, so they have no name. -/
inductive Err where
  | ok
  | invalidArgument
  | illegalCommand
deriving DecidableEq, Repr

/-- The status register (R35). Its reserved bits read as 0 and are never written, so they have no storage (log 13);
`Status.word` is the word the host reads. -/
structure Status where
  busy : Bool
  result : Bool
  err : Err
deriving DecidableEq, Repr

/-- A present buffer (20_memory.md R60): its length and its bytes, as the list of the offsets that hold a byte other than
zero, rising. H_BUFALLOC fills a buffer with zero bytes (R285), so an offset not listed holds zero (log 11). -/
structure Buffer where
  len : Nat
  cells : List Host.Cell
deriving DecidableEq, Repr

/-- The buffer table (R60): the present slots with their handles, rising; a handle not listed is an absent slot. -/
abbrev Memory := List (Nat × Buffer)

/-- A register that carries a written mark (R37). -/
inductive Reg where
  | fe (i : FeIdx)
  | key
  | ctr
deriving DecidableEq, Repr

/-- The model faults of 60_exceptions.md R270. A fault is recorded in `State.fault` by the step that meets it; a step from a
state that has one recorded answers it, because such a state takes no further step (R42). All are safe: the run stops where
the hardware would go on (log 1). -/
inductive Fault where
  /-- A width check of the field unit failed (R271). Raised by F_ADD, F_SUB, F_MUL, F_SQR, F_MUL121666, F_INV, F_ENCODE.
  Safe. -/
  | arithOverflow
  /-- A register was read while its written mark was clear, which the spec makes a fault (R37, R272, item I3 of
  93_implementation_defined.md). Raised by every command that reads the register and by H_RDFE and H_RDCTR. Safe. -/
  | unwrittenRead (reg : Reg)
  /-- A host action other than H_RDSTATUS was taken while a command was pending (R284). Raised by the host's actions.
  Safe. -/
  | hostHazard
deriving DecidableEq, Repr

/-- The reasons a step has no meaning. -/
inductive Refusal where
  /-- An instruction the model gives no meaning to: no arm of `exec` answers it. Safe. -/
  | notModelled (mnemonic : String)
  /-- The state has `REFUSED` set (R42): a CC_ENCRYPT or CC_DECRYPT met a partial overlap (R273). Raised by every step
  from such a state. Safe. -/
  | partialOverlap
  /-- A host action whose host precondition fails (60_exceptions.md section 5; I7 to I9 of 93): it has no move. Raised by
  the step that would take it. Safe. -/
  | hostPrecondition
deriving DecidableEq, Repr

/-- The host's actions (R280, R282 to R285). Offsets and lengths the host hands over are integers, so that a negative one
can be written down and found to have no move. -/
inductive HostAction where
  | issue (frame : List Word)
  | rdStatus
  | rdFe (i : Nat)
  | wrFe (i : Nat) (v : Limbs Word)
  | rdCtr
  | wrCtr (v : Word)
  | bufAlloc (h : Nat) (n : Int)
  | bufFree (h : Nat)
  | bufWrite (h : Nat) (off : Int) (bytes : List Byte)
  | bufRead (h : Nat) (off n : Int)
deriving DecidableEq, Repr

/-- A move of one of the two agents (R260): the host takes an action, or the core has its turn. -/
inductive Move where
  | host (a : HostAction)
  | core
deriving DecidableEq, Repr

/-- What a host action returns (R282, R283, R285). -/
inductive HostReply where
  | nothing
  | word (w : Word)
  | limbs (v : Limbs Word)
  | bytes (b : List Byte)
deriving DecidableEq, Repr

/-- The state of one instance: R30's tuple, the parameters, and the model's own `agenda`, `reply` and `fresh`. -/
structure State where
  /-- The implementation parameters (R9); no step changes them (log 3). -/
  params : Params
  /-- `FE`, R31. Registers `0 .. NFE-1` exist; the rest of the sixteen cannot be named (log 14). -/
  fe : Vector FeReg 16
  /-- `KEY`, R32. -/
  key : KeyReg
  /-- `CTR`, R34. -/
  ctr : CtrReg
  /-- `STATUS`, R35. -/
  status : Status
  /-- `PEND`, R39: empty or one frame. -/
  pend : Option (List Word)
  /-- `BUF`, R60. -/
  buf : Memory
  /-- `WORK`, R40: hidden scratch. -/
  work : Vector Word 16
  /-- `BLK`, R40: hidden scratch. -/
  blk : Vector Byte 64
  /-- `FAULT`, R42: a set of fault names, as a list without repeats. -/
  fault : List Fault
  /-- `REFUSED`, R42. -/
  refused : Bool
  /-- The model's own: the moves still to come, first to be taken first (R260, log 7). -/
  agenda : List Move
  /-- The model's own: what the last host action returned (log 8). -/
  reply : HostReply
  /-- The model's own: how many free values have been drawn (log 5). -/
  fresh : Nat
deriving DecidableEq, Repr

/-- Ten equal limbs. -/
def Limbs.const {α : Type} (a : α) : Limbs α := ⟨a, a, a, a, a, a, a, a, a, a⟩

/-- The state after reset for given parameters (R45, R290): marks clear, STATUS 0, PEND empty, every slot absent, FAULT empty,
REFUSED false. The contents of FE, KEY, CTR, WORK and BLK are unspecified in the spec; zero is a DESIGN CHOICE (log 4, 5). -/
def State.resetWith (p : Params) : State where
  params := p
  fe := Vector.replicate 16 ⟨Limbs.const 0#32, false⟩
  key := ⟨Vector.replicate 8 0#32, false⟩
  ctr := ⟨0#32, false⟩
  status := ⟨false, false, .ok⟩
  pend := none
  buf := []
  work := Vector.replicate 16 0#32
  blk := Vector.replicate 64 0#8
  fault := []
  refused := false
  agenda := []
  reply := .nothing
  fresh := 0

/-- The state after reset, with the parameters at their defaults. -/
def State.reset : State := State.resetWith Config.defaults

end Sys2Proof.Machine
end

