-- ==== Sys2Proof/Machine/Flags.lean ====
section
/-! DEFINITION. The status register (10_state.md R35, R36, R38): the word the host reads, and what issue, success and error
write to it. -/

namespace Sys2Proof.Machine

/-- The code of an error in `STATUS[7:4]` (R36). -/
def Err.code : Err → BitVec 4
  | .ok => 0#4
  | .invalidArgument => 1#4
  | .illegalCommand => 2#4

/-- The `STATUS` word of R35: `BUSY` is bit 0, `RESULT` bit 1, `ERR` bits 7:4, every other bit 0. -/
def Status.word (st : Status) : Word :=
  (0#24 ++ st.err.code ++ 0#2 ++ BitVec.ofBool st.result ++ BitVec.ofBool st.busy : BitVec 32)

/-- Issue sets `BUSY` and writes no other field (R280). -/
def Status.issued (st : Status) : Status := { st with busy := true }

/-- Successful completion: the command's `RESULT`, `ERR = OK`, `BUSY = 0` (R38, R281). -/
def Status.succeeded (_ : Status) (result : Bool) : Status :=
  { busy := false, result := result, err := .ok }

/-- Completion with an error: `RESULT = 0`, the error's code, `BUSY = 0` (R262). -/
def Status.failed (_ : Status) (e : Err) : Status :=
  { busy := false, result := false, err := e }

end Sys2Proof.Machine
end

