-- ==== Sys2Proof/Machine/Memory.lean ====
section
/-! DEFINITION. The buffer table (20_memory.md R60 to R62): lookups and updates of the rising lists that hold a buffer's bytes
and the table's slots, the read and the write of a byte, `MemRead` and `MemWrite` (00_scope.md R15), and the canonical form. -/

namespace Sys2Proof.Machine

/-- The entry of a key in a list of pairs. -/
def lookupKey {α : Type} : List (Nat × α) → Nat → Option α
  | [], _ => none
  | (k, a) :: rest, x => if x = k then some a else lookupKey rest x

/-- The list with the key's entry set, keys kept rising. -/
def insertKey {α : Type} : List (Nat × α) → Nat → α → List (Nat × α)
  | [], x, v => [(x, v)]
  | (k, a) :: rest, x, v =>
    if x < k then (x, v) :: (k, a) :: rest
    else if x = k then (k, v) :: rest
    else (k, a) :: insertKey rest x v

/-- The list without the key's entry. -/
def eraseKey {α : Type} : List (Nat × α) → Nat → List (Nat × α)
  | [], _ => []
  | (k, a) :: rest, x => if x = k then eraseKey rest x else (k, a) :: eraseKey rest x

/-- The keys rise strictly from `lo` on. -/
def risingFrom {α : Type} : Nat → List (Nat × α) → Bool
  | _, [] => true
  | lo, (k, _) :: rest => decide (lo ≤ k) && risingFrom (k + 1) rest

/-- The byte at an offset of a buffer; an offset not listed holds zero (log 11). -/
def Buffer.byte (b : Buffer) (a : Nat) : Byte := (lookupKey b.cells a).getD 0#8

/-- The buffer with one byte set. An offset beyond the length is not written: no command or host action reaches one, since
each is checked first (log 12). -/
def Buffer.setByte (b : Buffer) (a : Nat) (v : Byte) : Buffer :=
  if a < b.len then
    { b with cells := if v = 0#8 then eraseKey b.cells a else insertKey b.cells a v }
  else b

/-- The buffer with a byte string written from an offset on. -/
def Buffer.write : Buffer → Nat → List Byte → Buffer
  | b, _, [] => b
  | b, a, v :: vs => Buffer.write (b.setByte a v) (a + 1) vs

/-- The `n` bytes from an offset on. -/
def Buffer.read (b : Buffer) (a n : Nat) : List Byte := (List.range n).map fun i => b.byte (a + i)

/-- `n` zero bytes (H_BUFALLOC, R285). -/
def Buffer.zeros (n : Nat) : Buffer := ⟨n, []⟩

/-- The largest length a buffer can have: 2^31 - 1 (R60). -/
def maxBufferLen : Nat := 2147483647

/-- The canonical form of a buffer: a legal length, offsets strictly rising and below the length, no zero byte listed. -/
def Buffer.wf (b : Buffer) : Bool :=
  decide (b.len ≤ maxBufferLen) && risingFrom 0 b.cells &&
    b.cells.all fun c => decide (c.1 < b.len) && !(c.2 == 0#8)

/-- The canonical form of the buffer table: handles strictly rising, every buffer canonical. -/
def Memory.wf (m : Memory) : Bool :=
  risingFrom 0 m && m.all fun e => e.2.wf

/-- `BUF[h]`, where it is present. -/
def Memory.slot (m : Memory) (h : Nat) : Option Buffer := lookupKey m h

/-- `BUF[h]` made present (H_BUFALLOC). -/
def Memory.put (m : Memory) (h : Nat) (b : Buffer) : Memory := insertKey m h b

/-- `BUF[h]` made absent (H_BUFFREE). -/
def Memory.drop (m : Memory) (h : Nat) : Memory := eraseKey m h

/-- `MemRead(h, off, n)` of R15; used only after the region check has passed. -/
def Memory.read (m : Memory) (h off n : Nat) : List Byte :=
  match m.slot h with
  | none => []
  | some b => b.read off n

/-- `MemWrite(h, off, n, v)` of R15; used only after the region check has passed. -/
def Memory.write (m : Memory) (h off : Nat) (v : List Byte) : Memory :=
  match m.slot h with
  | none => m
  | some b => m.put h (b.write off v)

/-- The length of a slot's buffer, where it is present. -/
def Memory.lenAt (m : Memory) (h : Nat) : Option Nat :=
  match m.slot h with
  | none => none
  | some b => some b.len

/-- One byte of memory as a statement sees it: absent where the slot is absent or the offset is not below its length. -/
def Memory.byteAt (m : Memory) (h off : Nat) : Option Byte :=
  match m.slot h with
  | none => none
  | some b => if off < b.len then some (b.byte off) else none

end Sys2Proof.Machine
end

