-- ==== Sys2Proof/Machine/Ops.lean ====
section
/-! DEFINITION. The named operations over registers and memory, and how a command ends (60_exceptions.md R261): success,
architectural error, model fault or refusal, each in one shared operation. -/

namespace Sys2Proof.Machine

/-- What an instruction's meaning answers. -/
abbrev Result := Host.Outcome State Fault Refusal

/-- The ways a command ends other than in success (R261). -/
inductive Stop where
  /-- `raise E` (R262). -/
  | error (e : Err)
  /-- `fault N` (R270). -/
  | fault (f : Fault)
  /-- `refuse PartialOverlap` (R273). -/
  | refuse
deriving DecidableEq, Repr

/-! ### How a command ends -/

/-- Success (R281): `RESULT` and `ERR` written, `PEND` emptied, `BUSY` cleared. -/
def State.complete (s : State) (result : Bool) : State :=
  { s with status := s.status.succeeded result, pend := none }

/-- `raise E` (R262): the error's four effects and no others. This is the whole of taking an exception on this hardware: no
trap entry, nothing saved, no control transfer (R266), and there is nothing to return from (R267). -/
def State.raiseError (s : State) (e : Err) : State :=
  { s with status := s.status.failed e, pend := none }

/-- `fault N` (R270): the name is added to the set `FAULT`, and nothing else changes. -/
def State.addFault (s : State) (f : Fault) : State :=
  { s with fault := if f ∈ s.fault then s.fault else s.fault ++ [f] }

/-- `refuse PartialOverlap` (R273): `REFUSED` is set, and nothing else changes. -/
def State.refuse (s : State) : State := { s with refused := true }

/-- The state a command leaves when it does not succeed: every write of the command is discarded, because an error, a fault
or a refusal is met before anything is written (R262, R270, R273). -/
def State.stopped (s : State) : Stop → State
  | .error e => s.raiseError e
  | .fault f => s.addFault f
  | .refuse => s.refuse

/-- The end of a command that started in `s` (R261). -/
def State.settle (s : State) (r : Except Stop State) : Result :=
  match r with
  | .ok t => .next t
  | .error e => .next (s.stopped e)

/-! ### Registers (R16) -/

/-- `FE[i] <- v`: the limbs, and the mark is set (R37). -/
def State.writeFe (s : State) (i : FeIdx) (v : Limbs Word) : State :=
  { s with fe := s.fe.set i.val ⟨v, true⟩ i.isLt }

/-- The register `FE[i]`. -/
def State.feReg (s : State) (i : FeIdx) : FeReg := s.fe[i.val]

/-- `FE[i]` as a command reads it: a clear mark is `fault UnwrittenRead`, the spec's own stop (R37, R272). -/
def State.readFe (s : State) (i : FeIdx) : Except Stop (Limbs Word) :=
  if (s.feReg i).written then .ok (s.feReg i).limbs
  else .error (.fault (.unwrittenRead (.fe i)))

/-- `KEY <- v`, and the mark is set. -/
def State.writeKey (s : State) (v : Vector Word 8) : State := { s with key := ⟨v, true⟩ }

/-- `KEY` as a command reads it: a clear mark is `fault UnwrittenRead`, the spec's own stop (R37, R138, R272). -/
def State.readKey (s : State) : Except Stop (Vector Word 8) :=
  if s.key.written then .ok s.key.words else .error (.fault (.unwrittenRead .key))

/-- `CTR <- v`, and the mark is set. -/
def State.writeCtr (s : State) (v : Word) : State := { s with ctr := ⟨v, true⟩ }

/-- `CTR` as a command reads it: a clear mark is `fault UnwrittenRead`, the spec's own stop (R37, R138, R272). -/
def State.readCtr (s : State) : Except Stop Word :=
  if s.ctr.written then .ok s.ctr.value else .error (.fault (.unwrittenRead .ctr))

/-! ### Buffers -/

/-- The buffer a handle names; a handle at or above `NBUF`, or of an absent slot, is the null buffer (R61). -/
def State.slot (s : State) (h : Word) : Option Buffer :=
  if h.toNat < s.params.nbuf then s.buf.slot h.toNat else none

/-- `MemRead(h, off, n)`, with the offset as the command reads it. -/
def State.memRead (s : State) (h off : Word) (n : Nat) : List Byte :=
  s.buf.read h.toNat (s32 off).toNat n

/-- `MemWrite(h, off, n, v)`, with the offset as the command reads it. -/
def State.memWrite (s : State) (h off : Word) (v : List Byte) : State :=
  { s with buf := s.buf.write h.toNat (s32 off).toNat v }

/-! ### Hidden scratch -/

/-- The scratch after a command that ran the block function: unspecified (R40), two free values (log 5). -/
def State.scrambleScratch (s : State) : State :=
  { s with
    work := Config.freeWork s.fresh
    blk := Config.freeBlk s.fresh
    fresh := s.fresh + 1 }

end Sys2Proof.Machine
end

