-- ==== Sys2Proof/Machine/Operands.lean ====
section
/-! DEFINITION. The operand forms of the commands: buffer regions with the region check of 20_memory.md R66, offset and
length words read as i32 (R67), and the overlap rule of R70. Register and whole-word operands need no form of their own
(30_encoding.md R96). -/

namespace Sys2Proof.Machine

/-- A buffer operand: a handle word, an offset word and a length. -/
structure Region where
  h : Word
  off : Word
  n : Int
deriving DecidableEq, Repr

/-- `CheckRegion(h, off_w, n)` of R66 passes: not the null buffer, no negative length, no negative offset, and the exact end
within the buffer. -/
def State.regionOk (s : State) (r : Region) : Bool :=
  match s.slot r.h with
  | none => false
  | some b => decide (0 ≤ r.n) && decide (0 ≤ s32 r.off) && decide (s32 r.off + r.n ≤ (b.len : Int))

/-- `CheckRegion`: a region that does not pass is `raise InvalidArgument`. -/
def State.checkRegion (s : State) (r : Region) : Except Stop Unit :=
  if s.regionOk r then .ok () else .error (.error .invalidArgument)

/-- The region checks of a command, in the order its rule gives; the first that fails ends the command. -/
def State.checkRegions (s : State) : List Region → Except Stop Unit
  | [] => .ok ()
  | r :: rs => do
    s.checkRegion r
    s.checkRegions rs

/-- `MemRead` of a whole region. -/
def State.readRegion (s : State) (r : Region) : List Byte := s.memRead r.h r.off r.n.toNat

/-- The two regions are identical: same handle and same offset (R70). -/
def sameRegion (r q : Region) : Bool := r.h == q.h && s32 r.off == s32 q.off

/-- The byte ranges of two regions meet (R70). -/
def regionsMeet (r q : Region) : Bool :=
  r.h == q.h && decide (0 < r.n) && decide (0 < q.n) &&
    decide (s32 r.off < s32 q.off + q.n) && decide (s32 q.off < s32 r.off + r.n)

/-- The overlap that CC_ENCRYPT and CC_DECRYPT refuse: the regions meet and are not identical (R70). -/
def partialOverlap (r q : Region) : Bool := regionsMeet r q && !sameRegion r q

end Sys2Proof.Machine
end

