-- ==== Sys2Proof/Machine/ChaCha.lean ====
section
/-! DEFINITION. The ChaCha20 commands (41_chacha20.md R140 to R147). -/

namespace Sys2Proof.Machine

/-- The key words of 32 bytes (40_value_types.md R110). -/
def keyWords (b : List Byte) : Vector Word 8 :=
  #v[le32 b 0, le32 b 4, le32 b 8, le32 b 12, le32 b 16, le32 b 20, le32 b 24, le32 b 28]

/-- CC_SETKEY (R140). -/
def execCcSetkey (kh koff : Word) (s : State) : Result :=
  s.settle do
    s.checkRegions [⟨kh, koff, 32⟩]
    let b := s.readRegion ⟨kh, koff, 32⟩
    pure ((s.writeKey (keyWords b)).complete false)

/-- The first `n` bytes of one keystream block, with the frame's counter, into a region; `CTR` is neither read nor written
(R141, R147). The key is read after the region check (R138), and the block function leaves the scratch unspecified (R40). -/
def blockPrefix (n : Nat) (dh doff ctr : Word) (nonce : Nonce) (s : State) : Result :=
  s.settle do
    s.checkRegions [⟨dh, doff, n⟩]
    let k ← s.readKey
    pure ((s.memWrite dh doff ((chachaBlock k ctr nonce).take n)).scrambleScratch.complete false)

/-- CC_BLOCK (R141): the whole block. -/
def execCcBlock (dh doff ctr n0 n1 n2 : Word) (s : State) : Result := blockPrefix 64 dh doff ctr ⟨n0, n1, n2⟩ s

/-- CC_CREATEKEY (R147): the first 32 bytes. -/
def execCcCreatekey (dh doff ctr n0 n1 n2 : Word) (s : State) : Result := blockPrefix 32 dh doff ctr ⟨n0, n1, n2⟩ s

/-- `CTR <- wrap32(c0 + ceil(L / 64))` where `COUNTER_WRITEBACK` is set (R145). -/
def State.advanceCtr (s : State) (c0 : Word) (len : Nat) : State :=
  if s.params.counterWriteback then s.writeCtr (c0 + BitVec.ofNat 32 (blockCount len)) else s

/-- The body of R143 once the regions are known good and do not overlap in part: nothing for `L = 0` (R142), else the
keystream from `CTR` applied to the source bytes. `KEY` is read before `CTR` (60_exceptions.md R264). -/
def streamBody (src dst : Region) (nonce : Nonce) (s : State) : Except Stop State :=
  if 0 < src.n then do
    let k ← s.readKey
    let c0 ← s.readCtr
    let bytes := s.readRegion src
    pure (((s.memWrite dst.h dst.off (streamXor k c0 nonce bytes)).advanceCtr c0 src.n.toNat).scrambleScratch.complete false)
  else pure (s.complete false)

/-- The whole of R143. -/
def streamCommand (sh soff dh doff len : Word) (nonce : Nonce) (s : State) : Result :=
  s.settle <|
    if s32 len = 0 ∧ s.params.zeroLengthChecks = false then pure (s.complete false)
    else do
      let src : Region := ⟨sh, soff, s32 len⟩
      let dst : Region := ⟨dh, doff, s32 len⟩
      s.checkRegions [src, dst]
      if partialOverlap src dst then .error .refuse
      else streamBody src dst nonce s

/-- CC_ENCRYPT (R143). -/
def execCcEncrypt (sh soff dh doff len n0 n1 n2 : Word) (s : State) : Result :=
  streamCommand sh soff dh doff len ⟨n0, n1, n2⟩ s

/-- CC_DECRYPT (R146): the same operation under a second name. -/
def execCcDecrypt (sh soff dh doff len n0 n1 n2 : Word) (s : State) : Result :=
  streamCommand sh soff dh doff len ⟨n0, n1, n2⟩ s

end Sys2Proof.Machine
end

