-- ==== Sys2Proof/Machine/FieldCore.lean ====
section
/-! DEFINITION. The field unit's arithmetic (43_field_arith.md R190 to R209): limb access, width checks, the carry step and
its chains, the product sums and the value functions of the commands. Values are exact integers; every stored one is checked
(R194), and `none` stands for a failed check, `fault ArithOverflow`. -/

namespace Sys2Proof.Machine

/-! ### Limb access -/

/-- Limb `j`. -/
def Limbs.get {α : Type} (h : Limbs α) (j : LimbIdx) : α :=
  match j with
  | 0 => h.l0
  | 1 => h.l1
  | 2 => h.l2
  | 3 => h.l3
  | 4 => h.l4
  | 5 => h.l5
  | 6 => h.l6
  | 7 => h.l7
  | 8 => h.l8
  | 9 => h.l9

/-- The vector with limb `j` replaced. -/
def Limbs.put {α : Type} (h : Limbs α) (j : LimbIdx) (v : α) : Limbs α :=
  match j with
  | 0 => { h with l0 := v }
  | 1 => { h with l1 := v }
  | 2 => { h with l2 := v }
  | 3 => { h with l3 := v }
  | 4 => { h with l4 := v }
  | 5 => { h with l5 := v }
  | 6 => { h with l6 := v }
  | 7 => { h with l7 := v }
  | 8 => { h with l8 := v }
  | 9 => { h with l9 := v }

/-- A function applied to every limb. -/
def Limbs.map {α β : Type} (f : α → β) (h : Limbs α) : Limbs β :=
  ⟨f h.l0, f h.l1, f h.l2, f h.l3, f h.l4, f h.l5, f h.l6, f h.l7, f h.l8, f h.l9⟩

/-- A function of two limbs applied limb by limb. -/
def Limbs.zip {α β γ : Type} (f : α → β → γ) (h : Limbs α) (k : Limbs β) : Limbs γ :=
  ⟨f h.l0 k.l0, f h.l1 k.l1, f h.l2 k.l2, f h.l3 k.l3, f h.l4 k.l4,
   f h.l5 k.l5, f h.l6 k.l6, f h.l7 k.l7, f h.l8 k.l8, f h.l9 k.l9⟩

/-- The vector whose limb `j` is `f j`. -/
def Limbs.ofFun {α : Type} (f : LimbIdx → α) : Limbs α :=
  ⟨f 0, f 1, f 2, f 3, f 4, f 5, f 6, f 7, f 8, f 9⟩

/-- The limb numbers, rising. -/
def limbIdxs : List LimbIdx := [0, 1, 2, 3, 4, 5, 6, 7, 8, 9]

/-- The limbs of a register as integers (i32). -/
def Limbs.toInts (h : Limbs Word) : Limbs Int := h.map fun w => w.toInt

/-- Integers in the i32 range as the limbs of a register. -/
def Limbs.toWords (h : Limbs Int) : Limbs Word := h.map fun v => BitVec.ofInt 32 v

/-! ### Representation (R190, R191) -/

/-- `W[j]` of R190. -/
def limbWidth (j : LimbIdx) : Nat :=
  match j with
  | 0 => 26
  | 1 => 25
  | 2 => 26
  | 3 => 25
  | 4 => 26
  | 5 => 25
  | 6 => 26
  | 7 => 25
  | 8 => 26
  | 9 => 25

/-- `BASE[j]` of R190. -/
def limbBase (j : LimbIdx) : Nat :=
  match j with
  | 0 => 0
  | 1 => 26
  | 2 => 51
  | 3 => 77
  | 4 => 102
  | 5 => 128
  | 6 => 153
  | 7 => 179
  | 8 => 204
  | 9 => 230

/-- `val(l)` of R190: the exact integer a limb vector stands for. -/
def Limbs.val (h : Limbs Int) : Int := (limbIdxs.map fun j => h.get j * 2 ^ limbBase j).sum

/-- `p = 2^255 - 19` (R191). -/
def fieldPrime : Int := 2 ^ 255 - 19

/-! ### Width checks (00_scope.md R12, R194) -/

/-- `chk32`: the value, where it is in the i32 range. -/
def chk32 (v : Int) : Option Int := if -2147483648 ≤ v ∧ v < 2147483648 then some v else none

/-- `chk64`: the value, where it is in the i64 range. -/
def chk64 (v : Int) : Option Int :=
  if -9223372036854775808 ≤ v ∧ v < 9223372036854775808 then some v else none

/-- Every limb checked, limb 0 first. -/
def Limbs.check (f : Int → Option Int) (h : Limbs Int) : Option (Limbs Int) := do
  let a0 ← f h.l0
  let a1 ← f h.l1
  let a2 ← f h.l2
  let a3 ← f h.l3
  let a4 ← f h.l4
  let a5 ← f h.l5
  let a6 ← f h.l6
  let a7 ← f h.l7
  let a8 ← f h.l8
  let a9 ← f h.l9
  some ⟨a0, a1, a2, a3, a4, a5, a6, a7, a8, a9⟩

/-- `finish(h)` of R199. -/
def finish (h : Limbs Int) : Option (Limbs Int) := h.check chk32

/-! ### Carries (R195, R197) -/

/-- What a carry `c` out of limb `i` adds to the next limb: `c`, or, out of limb 9, `chk64(19 * c)` (R195). -/
def carryUp (i : LimbIdx) (c : Int) : Option Int := if i = 9 then chk64 (19 * c) else some c

/-- `carry(h, i)` of R195: the rounding carry of limb `i` into the next limb, or from limb 9 into limb 0 times 19. -/
def carry (h : Limbs Int) (i : LimbIdx) : Option (Limbs Int) := do
  let w := limbWidth i
  let t ← chk64 (h.get i + 2 ^ (w - 1))
  let c := t / 2 ^ w
  let up ← carryUp i c
  let next ← chk64 (h.get (i + 1) + up)
  let down ← chk64 (c * 2 ^ w)
  let rest ← chk64 (h.get i - down)
  some ((h.put (i + 1) next).put i rest)

/-- `chain(h, order)` of R197: the carries of an order, left to right. -/
def chain : Limbs Int → List LimbIdx → Option (Limbs Int)
  | h, [] => some h
  | h, i :: is => do
    let h' ← carry h i
    chain h' is

/-- `MULCHAIN` of R197. -/
def mulChain : List LimbIdx := [0, 4, 1, 5, 2, 6, 3, 7, 4, 8, 9, 0]

/-- The `REF10` order of R208 and 44_field_invert_codec.md R236. -/
def ref10Order : List LimbIdx := [9, 1, 3, 5, 7, 0, 2, 4, 6, 8]

/-- The `SEQUENTIAL` order of 44_field_invert_codec.md R236. -/
def sequentialOrder : List LimbIdx := [9, 0, 1, 2, 3, 4, 5, 6, 7, 8]

/-- `ORDER121666` of R208. -/
def order121666 (o : Mul121666Order) : List LimbIdx :=
  match o with
  | .ref10 => ref10Order
  | .mulOrder => mulChain

/-- `DECORDER` of 44_field_invert_codec.md R236. -/
def decOrder (o : DecodeOrder) : List LimbIdx :=
  match o with
  | .ref10 => ref10Order
  | .sequential => sequentialOrder

/-! ### Sums, differences and products -/

/-- The body of F_ADD (R200). -/
def addLimbs (f g : Limbs Int) : Option (Limbs Int) := (f.zip (fun a b => a + b) g).check chk32

/-- The body of F_SUB (R201). -/
def subLimbs (f g : Limbs Int) : Option (Limbs Int) := (f.zip (fun a b => a - b) g).check chk32

/-- `d(i, j)` of R198. -/
def dFactor (i j : LimbIdx) : Int := if i.val % 2 = 1 ∧ j.val % 2 = 1 then 2 else 1

/-- `H_k(f, g)` of R198. For each `i` there is one `j` with `i + j = k` or `i + j = k + 10`, namely `k - i` mod 10, and the
second case is the one with `i > k`. -/
def productSum (f g : Limbs Int) (k : LimbIdx) : Int :=
  (limbIdxs.map fun i => (if i ≤ k then 1 else 19) * dFactor i (k - i) * (f.get i * g.get (k - i))).sum

/-- The ten pre-carry sums, each checked with `chk64` (R198). -/
def productSums (f g : Limbs Int) : Option (Limbs Int) := (Limbs.ofFun (productSum f g)).check chk64

/-- Every value of a list passes `chk32`. -/
def allChk32 (vs : List Int) : Option Unit :=
  match vs with
  | [] => some ()
  | v :: rest => do
    let _ ← chk32 v
    allChk32 rest

/-- `PrescaleMul(f, g)` of R204. -/
def prescaleMul (f g : Limbs Int) : Option Unit :=
  allChk32 [19 * g.l1, 19 * g.l2, 19 * g.l3, 19 * g.l4, 19 * g.l5, 19 * g.l6, 19 * g.l7, 19 * g.l8, 19 * g.l9,
    2 * f.l1, 2 * f.l3, 2 * f.l5, 2 * f.l7, 2 * f.l9]

/-- `PrescaleSq(f)` of R206. -/
def prescaleSq (f : Limbs Int) : Option Unit :=
  allChk32 [2 * f.l0, 2 * f.l1, 2 * f.l2, 2 * f.l3, 2 * f.l4, 2 * f.l5, 2 * f.l6, 2 * f.l7,
    38 * f.l5, 19 * f.l6, 38 * f.l7, 19 * f.l8, 38 * f.l9]

/-- `Mul(f, g)`: the body of F_MUL (R203, R230). -/
def mulLimbs (f g : Limbs Int) : Option (Limbs Int) := do
  prescaleMul f g
  let h ← productSums f g
  let h ← chain h mulChain
  finish h

/-- `Sq(f)`: the body of F_SQR (R205, R230). -/
def sqLimbs (f : Limbs Int) : Option (Limbs Int) := do
  prescaleSq f
  let h ← productSums f f
  let h ← chain h mulChain
  finish h

/-- The body of F_MUL121666 (R207). -/
def mul121666Limbs (o : Mul121666Order) (f : Limbs Int) : Option (Limbs Int) := do
  let h ← (f.map fun v => v * 121666).check chk64
  let h ← chain h (order121666 o)
  finish h

/-! ### Conditional swap (R209) -/

/-- `mask = 0 - bit` as a u32. -/
def swapMask (bit : BitVec 1) : Word := 0#32 - bit.zeroExtend 32

/-- The masked difference `x` of one limb pair. -/
def swapX (bit : BitVec 1) (a b : Word) : Word := (a ^^^ b) &&& swapMask bit

/-- The body of F_CSWAP: the new `FE[fa]` and `FE[fb]`. -/
def cswapLimbs (bit : BitVec 1) (f g : Limbs Word) : Limbs Word × Limbs Word :=
  (f.zip (fun a b => a ^^^ swapX bit a b) g, g.zip (fun b a => b ^^^ swapX bit a b) f)

end Sys2Proof.Machine
end

