-- ==== Sys2Proof/Machine/FieldCodec.lean ====
section
/-! DEFINITION. Inversion, decode and encode of field elements (44_field_invert_codec.md R230 to R242). As in
Machine/FieldCore.lean, `none` stands for `fault ArithOverflow`. -/

namespace Sys2Proof.Machine

/-- `Sq^n(f)` of R230. -/
def sqTimes : Nat → Limbs Int → Option (Limbs Int)
  | 0, f => some f
  | n + 1, f => do
    let g ← sqLimbs f
    sqTimes n g

/-- `Inv(z)` of R231: 254 squarings and 11 multiplications. -/
def invLimbs (z : Limbs Int) : Option (Limbs Int) := do
  let t0 ← sqLimbs z
  let t1 ← sqTimes 2 t0
  let t1 ← mulLimbs z t1
  let t0 ← mulLimbs t0 t1
  let t2 ← sqLimbs t0
  let t1 ← mulLimbs t1 t2
  let t2 ← sqTimes 5 t1
  let t1 ← mulLimbs t2 t1
  let t2 ← sqTimes 10 t1
  let t2 ← mulLimbs t2 t1
  let t3 ← sqTimes 20 t2
  let t2 ← mulLimbs t3 t2
  let t2 ← sqTimes 10 t2
  let t1 ← mulLimbs t2 t1
  let t2 ← sqTimes 50 t1
  let t2 ← mulLimbs t2 t1
  let t3 ← sqTimes 100 t2
  let t2 ← mulLimbs t3 t2
  let t2 ← sqTimes 50 t2
  let t1 ← mulLimbs t2 t1
  let t1 ← sqTimes 5 t1
  mulLimbs t1 t0

/-- The raw limbs of R235. -/
def rawLimbs (s : List Byte) : Limbs Int where
  l0 := (leAt s 0 4 : Int)
  l1 := (leAt s 4 3 : Int) * 2 ^ 6
  l2 := (leAt s 7 3 : Int) * 2 ^ 5
  l3 := (leAt s 10 3 : Int) * 2 ^ 3
  l4 := (leAt s 13 3 : Int) * 2 ^ 2
  l5 := (leAt s 16 4 : Int)
  l6 := (leAt s 20 3 : Int) * 2 ^ 7
  l7 := (leAt s 23 3 : Int) * 2 ^ 5
  l8 := (leAt s 26 3 : Int) * 2 ^ 4
  l9 := ((leAt s 29 3 &&& 0x7FFFFF : Nat) : Int) * 2 ^ 2

/-- `Decode(s)` of R236. -/
def decodeLimbs (o : DecodeOrder) (s : List Byte) : Option (Limbs Int) := do
  let h ← chain (rawLimbs s) (decOrder o)
  finish h

/-- The quotient estimate of R241, from the carry out of limb 9 through the limbs in turn. -/
def quotientFrom (h : Limbs Int) : List LimbIdx → Int → Option Int
  | [], q => some q
  | j :: js, q => do
    let t ← chk32 (h.get j + q)
    quotientFrom h js (t / 2 ^ limbWidth j)

/-- `q` of R241. -/
def quotient (h : Limbs Int) : Option Int := do
  let a ← chk32 (19 * h.l9)
  let b ← chk32 (a + 2 ^ 24)
  quotientFrom h limbIdxs (b / 2 ^ 25)

/-- The floor carries of R241, limb `j` into limb `j + 1`. -/
def floorCarries : Limbs Int → List LimbIdx → Option (Limbs Int)
  | h, [] => some h
  | h, j :: js => do
    let c := h.get j / 2 ^ limbWidth j
    let up ← chk32 (h.get (j + 1) + c)
    floorCarries ((h.put (j + 1) up).put j (h.get j - c * 2 ^ limbWidth j)) js

/-- The reduction of R241. -/
def reduceLimbs (h : Limbs Int) : Option (Limbs Int) := do
  let q ← quotient h
  let f ← chk32 (19 * q)
  let a ← chk32 (h.l0 + f)
  let h ← floorCarries { h with l0 := a } [0, 1, 2, 3, 4, 5, 6, 7, 8]
  some { h with l9 := h.l9 - h.l9 / 2 ^ 25 * 2 ^ 25 }

/-- `Encode(h)` of R241 and R242. -/
def encodeLimbs (h : Limbs Int) : Option (List Byte) := do
  let h ← reduceLimbs h
  some (leBytes 32 h.val.toNat)

end Sys2Proof.Machine
end

