-- ==== Sys2Proof/Machine/Field.lean ====
section
/-! DEFINITION. The field commands (43_field_arith.md R200 to R209, 44_field_invert_codec.md R232, R240, R245). -/

namespace Sys2Proof.Machine

/-- A failed width check of the field unit is `fault ArithOverflow` (R194, 60_exceptions.md R271). -/
def arith {α : Type} (r : Option α) : Except Stop α :=
  match r with
  | some a => .ok a
  | none => .error (.fault .arithOverflow)

/-- A command with two source registers: `FE[fa]` is read before `FE[fb]` (60_exceptions.md R264). -/
def fieldBinary (op : Limbs Int → Limbs Int → Option (Limbs Int)) (fd fa fb : FeIdx) (s : State) : Result :=
  s.settle do
    let f ← s.readFe fa
    let g ← s.readFe fb
    let h ← arith (op f.toInts g.toInts)
    pure ((s.writeFe fd h.toWords).complete false)

/-- A command with one source register. -/
def fieldUnary (op : Limbs Int → Option (Limbs Int)) (fd fa : FeIdx) (s : State) : Result :=
  s.settle do
    let f ← s.readFe fa
    let h ← arith (op f.toInts)
    pure ((s.writeFe fd h.toWords).complete false)

/-- F_ADD (R200). -/
def execFAdd (fd fa fb : FeIdx) (s : State) : Result := fieldBinary addLimbs fd fa fb s

/-- F_SUB (R201). -/
def execFSub (fd fa fb : FeIdx) (s : State) : Result := fieldBinary subLimbs fd fa fb s

/-- F_MUL (R203). -/
def execFMul (fd fa fb : FeIdx) (s : State) : Result := fieldBinary mulLimbs fd fa fb s

/-- F_SQR (R205). -/
def execFSqr (fd fa : FeIdx) (s : State) : Result := fieldUnary sqLimbs fd fa s

/-- F_MUL121666 (R207). -/
def execFMul121666 (fd fa : FeIdx) (s : State) : Result := fieldUnary (mul121666Limbs s.params.mul121666Order) fd fa s

/-- F_INV (R232). -/
def execFInv (fd fa : FeIdx) (s : State) : Result := fieldUnary invLimbs fd fa s

/-- F_CSWAP (R209): both registers are written in every case. -/
def execFCswap (fa fb : FeIdx) (bit : BitVec 1) (s : State) : Result :=
  s.settle do
    let f ← s.readFe fa
    let g ← s.readFe fb
    let fg := cswapLimbs bit f g
    pure (((s.writeFe fa fg.1).writeFe fb fg.2).complete false)

/-- F_DECODE (R240). -/
def execFDecode (fd : FeIdx) (sh soff : Word) (s : State) : Result :=
  s.settle do
    s.checkRegions [⟨sh, soff, 32⟩]
    let h ← arith (decodeLimbs s.params.decodeOrder (s.readRegion ⟨sh, soff, 32⟩))
    pure ((s.writeFe fd h.toWords).complete false)

/-- F_ENCODE (R245): the region check comes before the register is read. -/
def execFEncode (fa : FeIdx) (dh doff : Word) (s : State) : Result :=
  s.settle do
    s.checkRegions [⟨dh, doff, 32⟩]
    let f ← s.readFe fa
    let b ← arith (encodeLimbs f.toInts)
    pure ((s.memWrite dh doff b).complete false)

end Sys2Proof.Machine
end

