-- ==== Sys2Proof/Machine/PolyCore.lean ====
section
/-! DEFINITION. The Poly1305 functions of 42_poly1305.md R160 to R168: clamp, block numbers, evaluation and tags. The limb
form inside a command is hidden and its result equals R162 (R165), so R162 is computed directly (log 16). -/

namespace Sys2Proof.Machine

/-- The clamp mask of R161. -/
def clampMask : Nat := 0x0ffffffc0ffffffc0ffffffc0fffffff

/-- `p1305 = 2^130 - 5` (R162). -/
def p1305 : Nat := 2 ^ 130 - 5

/-- The clamped multiplier `r` of R160. -/
def polyR (key : List Byte) : Nat := leAt key 0 16 &&& clampMask

/-- The pad `s` of R160. -/
def polyS (key : List Byte) : Nat := leAt key 16 16

/-- The 16-byte chunks of R163; only the last may be shorter. -/
def chunks16 (m : List Byte) : List (List Byte) :=
  (List.range ((m.length + 15) / 16)).map fun i => (m.drop (16 * i)).take 16

/-- The block number of a chunk in the plain MAC: the terminator stands directly above the chunk's bytes (R163). -/
def plainNumber (c : List Byte) : Nat := leValue c + 2 ^ (8 * c.length)

/-- The block number of a chunk in the AEAD variant (R166). -/
def aeadNumber (policy : AeadTail) (c : List Byte) : Nat :=
  match policy with
  | .tailZero => if c.length = 16 then leValue c + 2 ^ 128 else leValue c
  | .allOne => leValue c + 2 ^ 128
  | .allZero => leValue c

/-- The accumulator after a list of block numbers (R162). -/
def polyEval (r : Nat) (ns : List Nat) : Nat := ns.foldl (fun h n => ((h + n) * r) % p1305) 0

/-- `PolyTag(k, ns)` of R162. -/
def polyTag (key : List Byte) (ns : List Nat) : List Byte :=
  leBytes 16 ((polyEval (polyR key) ns + polyS key) % 2 ^ 128)

/-- `PolySign(k, m)` of R164. -/
def polySign (key m : List Byte) : List Byte := polyTag key ((chunks16 m).map plainNumber)

/-- The block numbers of one AEAD segment (R166, R167). -/
def aeadBlocks (policy : AeadTail) (x : List Byte) : List Nat := (chunks16 x).map (aeadNumber policy)

/-- `AeadSign(k, ad, ct)` of R167: the associated data's blocks, then the ciphertext's, and no length trailer (R175). -/
def aeadSign (policy : AeadTail) (key ad ct : List Byte) : List Byte :=
  polyTag key (aeadBlocks policy ad ++ aeadBlocks policy ct)

end Sys2Proof.Machine
end

