-- ==== Sys2Proof/Machine/Poly.lean ====
section
/-! DEFINITION. The Poly1305 and AEAD commands (42_poly1305.md R170 to R173). No register is read, so none can fault. -/

namespace Sys2Proof.Machine

/-- P_SIGN (R170). -/
def execPSign (mh moff mlen kh koff th toff : Word) (s : State) : Result :=
  s.settle do
    let m : Region := ⟨mh, moff, s32 mlen⟩
    let k : Region := ⟨kh, koff, 32⟩
    let t : Region := ⟨th, toff, 16⟩
    s.checkRegions [m, k, t]
    pure ((s.memWrite th toff (polySign (s.readRegion k) (s.readRegion m))).complete false)

/-- P_VERIFY (R171); a mismatch is no error (R169). -/
def execPVerify (mh moff mlen kh koff th toff : Word) (s : State) : Result :=
  s.settle do
    let m : Region := ⟨mh, moff, s32 mlen⟩
    let k : Region := ⟨kh, koff, 32⟩
    let t : Region := ⟨th, toff, 16⟩
    s.checkRegions [m, k, t]
    pure (s.complete (ctEq (polySign (s.readRegion k) (s.readRegion m)) (s.readRegion t)))

/-- A_SIGN (R172). -/
def execASign (ah aoff alen ch coff clen kh koff th toff : Word) (s : State) : Result :=
  s.settle do
    let a : Region := ⟨ah, aoff, s32 alen⟩
    let c : Region := ⟨ch, coff, s32 clen⟩
    let k : Region := ⟨kh, koff, 32⟩
    let t : Region := ⟨th, toff, 16⟩
    s.checkRegions [a, c, k, t]
    let tag := aeadSign s.params.aeadTail (s.readRegion k) (s.readRegion a) (s.readRegion c)
    pure ((s.memWrite th toff tag).complete false)

/-- A_VERIFY (R173). -/
def execAVerify (ah aoff alen ch coff clen kh koff th toff : Word) (s : State) : Result :=
  s.settle do
    let a : Region := ⟨ah, aoff, s32 alen⟩
    let c : Region := ⟨ch, coff, s32 clen⟩
    let k : Region := ⟨kh, koff, 32⟩
    let t : Region := ⟨th, toff, 16⟩
    s.checkRegions [a, c, k, t]
    let tag := aeadSign s.params.aeadTail (s.readRegion k) (s.readRegion a) (s.readRegion c)
    pure (s.complete (ctEq tag (s.readRegion t)))

end Sys2Proof.Machine
end

