-- ==== Sys2Proof/Machine/ValueTypes.lean ====
section
/-! DEFINITION. The commands over value types, KEY_EQ and MAC_EQ (40_value_types.md R115 to R117). -/

namespace Sys2Proof.Machine

/-- Constant-time equality of two regions of `n` bytes into `RESULT`, byte by byte as the pseudocode of R116 and R117 has it, for
regions that overlap in part too. DEDUCED (log 19): R116's corner case says that overlapping regions give `RESULT = 1`, which its
own pseudocode and R115 contradict where the overlap is partial and the bytes differ. -/
def equalRegions (n : Nat) (h1 off1 h2 off2 : Word) (s : State) : Result :=
  s.settle do
    s.checkRegions [⟨h1, off1, n⟩, ⟨h2, off2, n⟩]
    let a := s.readRegion ⟨h1, off1, n⟩
    let b := s.readRegion ⟨h2, off2, n⟩
    pure (s.complete (ctEq a b))

/-- KEY_EQ (R116): 32 bytes each. -/
def execKeyEq (h1 off1 h2 off2 : Word) (s : State) : Result := equalRegions 32 h1 off1 h2 off2 s

/-- MAC_EQ (R117): 16 bytes each. -/
def execMacEq (h1 off1 h2 off2 : Word) (s : State) : Result := equalRegions 16 h1 off1 h2 off2 s

end Sys2Proof.Machine
end

