-- ==== Sys2Proof/Machine/Dispatch.lean ====
section
/-! DEFINITION. The meaning of each command, one arm per constructor (60_exceptions.md R281: "run the command rule of opc"). -/

namespace Sys2Proof.Machine

def exec (i : Instr) (s : State) : Host.Outcome State Fault Refusal :=
  match i with
  | .keyEq h1 off1 h2 off2 => Sys2Proof.Machine.execKeyEq h1 off1 h2 off2 s
  | .macEq h1 off1 h2 off2 => Sys2Proof.Machine.execMacEq h1 off1 h2 off2 s
  | .ccSetkey kh koff => Sys2Proof.Machine.execCcSetkey kh koff s
  | .ccBlock dh doff ctr n0 n1 n2 => Sys2Proof.Machine.execCcBlock dh doff ctr n0 n1 n2 s
  | .ccEncrypt sh soff dh doff len n0 n1 n2 => Sys2Proof.Machine.execCcEncrypt sh soff dh doff len n0 n1 n2 s
  | .ccDecrypt sh soff dh doff len n0 n1 n2 => Sys2Proof.Machine.execCcDecrypt sh soff dh doff len n0 n1 n2 s
  | .ccCreatekey dh doff ctr n0 n1 n2 => Sys2Proof.Machine.execCcCreatekey dh doff ctr n0 n1 n2 s
  | .pSign mh moff mlen kh koff th toff => Sys2Proof.Machine.execPSign mh moff mlen kh koff th toff s
  | .pVerify mh moff mlen kh koff th toff => Sys2Proof.Machine.execPVerify mh moff mlen kh koff th toff s
  | .aSign ah aoff alen ch coff clen kh koff th toff => Sys2Proof.Machine.execASign ah aoff alen ch coff clen kh koff th toff s
  | .aVerify ah aoff alen ch coff clen kh koff th toff => Sys2Proof.Machine.execAVerify ah aoff alen ch coff clen kh koff th toff s
  | .fAdd fd fa fb => Sys2Proof.Machine.execFAdd fd fa fb s
  | .fSub fd fa fb => Sys2Proof.Machine.execFSub fd fa fb s
  | .fMul fd fa fb => Sys2Proof.Machine.execFMul fd fa fb s
  | .fSqr fd fa => Sys2Proof.Machine.execFSqr fd fa s
  | .fMul121666 fd fa => Sys2Proof.Machine.execFMul121666 fd fa s
  | .fInv fd fa => Sys2Proof.Machine.execFInv fd fa s
  | .fCswap fa fb bit => Sys2Proof.Machine.execFCswap fa fb bit s
  | .fDecode fd sh soff => Sys2Proof.Machine.execFDecode fd sh soff s
  | .fEncode fa dh doff => Sys2Proof.Machine.execFEncode fa dh doff s

end Sys2Proof.Machine
end

