-- ==== Sys2Proof/Machine/HostInterface.lean ====
section
/-! DEFINITION. The host's ten actions (60_exceptions.md R280, R282 to R285), their host preconditions, and the busy hazard of
R284. -/

namespace Sys2Proof.Machine

/-- The field register a host action names: it exists when its number is below `NFE` (R282). -/
def State.hostFe (s : State) (i : Nat) : Option FeIdx :=
  if h : i < 16 then (if i < s.params.nfe then some ⟨i, h⟩ else none) else none

/-- The buffer a host action names: present, in a slot below `NBUF` (R285). -/
def State.hostSlot (s : State) (h : Nat) : Option Buffer :=
  if h < s.params.nbuf then s.buf.slot h else none

/-- `n` bytes from `off` lie within the present buffer `h` (R285). -/
def State.hostRange (s : State) (h : Nat) (off n : Int) : Bool :=
  match s.hostSlot h with
  | none => false
  | some b => decide (0 ≤ off) && decide (0 ≤ n) && decide (off + n ≤ (b.len : Int))

/-- The host precondition of an action (R282, R285). -/
def State.hostMay (s : State) (a : HostAction) : Bool :=
  match a with
  | .issue _ => true
  | .rdStatus => true
  | .rdFe i => (s.hostFe i).isSome
  | .wrFe i _ => (s.hostFe i).isSome
  | .rdCtr => true
  | .wrCtr _ => true
  | .bufAlloc h n => decide (h < s.params.nbuf) && decide (0 ≤ n) && decide (n ≤ 2147483647)
  | .bufFree h => decide (h < s.params.nbuf)
  | .bufWrite h off bytes => s.hostRange h off bytes.length
  | .bufRead h off n => s.hostRange h off n

/-- The value an action returns is handed back. -/
def State.answer (s : State) (r : HostReply) : State := { s with reply := r }

/-- H_ISSUE (R280): the frame is copied into `PEND` and `BUSY` is set. -/
def hostIssue (frame : List Word) (s : State) : Result :=
  .next ({ s with pend := some frame, status := s.status.issued }.answer .nothing)

/-- H_RDSTATUS (R285): the status word, without side effect. -/
def hostRdStatus (s : State) : Result := .next (s.answer (.word s.status.word))

/-- H_RDFE (R282): a clear mark is `fault UnwrittenRead`. -/
def hostRdFe (i : Nat) (s : State) : Result :=
  match s.hostFe i with
  | none => .refused .hostPrecondition
  | some j => s.settle do
    let v ← s.readFe j
    pure (s.answer (.limbs v))

/-- H_WRFE (R282): any ten i32 values, and the mark is set. -/
def hostWrFe (i : Nat) (v : Limbs Word) (s : State) : Result :=
  match s.hostFe i with
  | none => .refused .hostPrecondition
  | some j => .next ((s.writeFe j v).answer .nothing)

/-- H_RDCTR (R283). -/
def hostRdCtr (s : State) : Result :=
  s.settle do
    let v ← s.readCtr
    pure (s.answer (.word v))

/-- H_WRCTR (R283). -/
def hostWrCtr (v : Word) (s : State) : Result := .next ((s.writeCtr v).answer .nothing)

/-- H_BUFALLOC (R285): `n` zero bytes, in place of any buffer already there. -/
def hostBufAlloc (h : Nat) (n : Int) (s : State) : Result :=
  .next ({ s with buf := s.buf.put h (Buffer.zeros n.toNat) }.answer .nothing)

/-- H_BUFFREE (R285). -/
def hostBufFree (h : Nat) (s : State) : Result := .next ({ s with buf := s.buf.drop h }.answer .nothing)

/-- H_BUFWRITE (R285). -/
def hostBufWrite (h : Nat) (off : Int) (bytes : List Byte) (s : State) : Result :=
  .next ({ s with buf := s.buf.write h off.toNat bytes }.answer .nothing)

/-- H_BUFREAD (R285). -/
def hostBufRead (h : Nat) (off n : Int) (s : State) : Result :=
  .next (s.answer (.bytes (s.buf.read h off.toNat n.toNat)))

/-- An action's effect, where it is allowed. -/
def hostEffect (a : HostAction) (s : State) : Result :=
  match a with
  | .issue frame => hostIssue frame s
  | .rdStatus => hostRdStatus s
  | .rdFe i => hostRdFe i s
  | .wrFe i v => hostWrFe i v s
  | .rdCtr => hostRdCtr s
  | .wrCtr v => hostWrCtr v s
  | .bufAlloc h n => hostBufAlloc h n s
  | .bufFree h => hostBufFree h s
  | .bufWrite h off bytes => hostBufWrite h off bytes s
  | .bufRead h off n => hostBufRead h off n s

/-- The host takes an action. One whose host precondition fails has no move (log 9); any but H_RDSTATUS while a command is
pending is `fault HostHazard`, with no other effect (R284). -/
def hostStep (a : HostAction) (s : State) : Result :=
  if s.hostMay a = false then .refused .hostPrecondition
  else if s.pend.isSome ∧ a ≠ .rdStatus then .next (s.addFault .hostHazard)
  else hostEffect a s

end Sys2Proof.Machine
end

