-- ==== Sys2Proof/Machine/Lifecycle.lean ====
section
/-! DEFINITION. Steps of the two agents (60_exceptions.md R260, R281): the core's step, whose move is next, and when no step
is enabled. -/

namespace Sys2Proof.Machine

/-- The core's step (R281): the frame in `PEND` is decoded and run; an illegal frame is `raise IllegalCommand` (30_encoding.md
R97). With `PEND` empty the core has nothing to do (log 10). -/
def coreStep (s : State) : Result :=
  match s.pend with
  | none => .next s
  | some frame =>
    match decode s.params.nfe frame with
    | .error _ => .next (s.raiseError .illegalCommand)
    | .ok i => exec i s

/-- The next move of the agenda; an empty agenda leaves the turn to the core, so that an issued command is run in the end
(the weak fairness of R260, log 7). -/
def moveStep (s : State) : Result :=
  match s.agenda with
  | [] => coreStep s
  | .core :: rest => coreStep { s with agenda := rest }
  | .host a :: rest => hostStep a { s with agenda := rest }

/-- One step of the machine: none is enabled once `FAULT` is non-empty or `REFUSED` is true (R260). -/
def machineStep (s : State) : Result :=
  match s.fault with
  | f :: _ => .fault f
  | [] => if s.refused then .refused .partialOverlap else moveStep s

/-- The state with a frame issued and the core's turn next, as H_ISSUE leaves it (R280), whatever stopped the state before
(log 15). -/
def State.placeFrame (s : State) (frame : List Word) : State :=
  { s with
    pend := some frame
    status := s.status.issued
    agenda := .core :: s.agenda
    fault := []
    refused := false }

end Sys2Proof.Machine
end

