-- ==== Sys2Proof/Machine/Step.lean ====
section
/-! DEFINITION. The step function (60_exceptions.md R260), and the placing of an instruction where the next step runs it. -/

namespace Sys2Proof.Machine

/-- One step: a host action, a core step, or none. -/
def step (s : State) : Host.Outcome State Fault Refusal := machineStep s

/-- `s` with the instruction whose bits are `w` issued, so that the very next step runs it (log 15). -/
def State.withFetchWord (s : State) (nbits w : Nat) : State := s.placeFrame (Sys2Proof.tableFrame nbits w)

end Sys2Proof.Machine
end

