-- ==== Sys2Proof/Safety.lean ====
section
/-! DEFINITION. The terms in which claims about the machine are stated: final states and their observation (60_exceptions.md
R286), the invariant of the machine, what each command reads, checks and writes (10_state.md R43), and the regions of memory
a command stores to. No meaning uses any of these. -/

namespace Sys2Proof.Machine

/-! ### End of a run (R286) -/

/-- A clean state, which is also what a final state is: `PEND` empty, `BUSY = 0`, `FAULT` empty, `REFUSED` false. -/
def State.Clean (s : State) : Prop :=
  s.pend = none ∧ s.status.busy = false ∧ s.fault = [] ∧ s.refused = false

/-- The observation of a final state: `STATUS`, the marked registers, `CTR` if marked, the buffer table. -/
structure Observation where
  status : Word
  fe : List (Option (Limbs Word))
  ctr : Option Word
  buf : Memory
deriving DecidableEq, Repr

/-- What R286 observes of a state; `KEY`, `WORK` and `BLK` are not observed. -/
def State.observe (s : State) : Observation where
  status := s.status.word
  fe := s.fe.toList.map fun r => if r.written then some r.limbs else none
  ctr := if s.ctr.written then some s.ctr.value else none
  buf := s.buf

/-! ### The invariant -/

/-- The parameters are legal (R9), the buffer table is canonical and every present slot exists (R60), `BUSY` says whether a
frame is pending (R35, R39), at most one fault is recorded (R42), a refused command is still pending (R273), and no register
at or above `NFE` is marked (R31). -/
def State.Inv (s : State) : Prop :=
  s.params.Legal ∧
  s.buf.wf = true ∧
  (∀ e ∈ s.buf, e.1 < s.params.nbuf) ∧
  s.status.busy = s.pend.isSome ∧
  s.fault.length ≤ 1 ∧
  (s.refused = true → s.pend.isSome = true) ∧
  ∀ i : FeIdx, s.params.nfe ≤ i.val → (s.feReg i).written = false

/-- The written mark of a register. -/
def State.marked (s : State) : Reg → Bool
  | .fe i => (s.feReg i).written
  | .key => s.key.written
  | .ctr => s.ctr.written

end Sys2Proof.Machine

namespace Sys2Proof

open Machine

/-! ### What a command checks, reads and writes -/

/-- The buffer operands of a command, in the order its rule checks them. -/
def Instr.regions : Instr → List Region
  | .keyEq h1 off1 h2 off2 => [⟨h1, off1, 32⟩, ⟨h2, off2, 32⟩]
  | .macEq h1 off1 h2 off2 => [⟨h1, off1, 16⟩, ⟨h2, off2, 16⟩]
  | .ccSetkey kh koff => [⟨kh, koff, 32⟩]
  | .ccBlock dh doff _ _ _ _ => [⟨dh, doff, 64⟩]
  | .ccEncrypt sh soff dh doff len _ _ _ => [⟨sh, soff, s32 len⟩, ⟨dh, doff, s32 len⟩]
  | .ccDecrypt sh soff dh doff len _ _ _ => [⟨sh, soff, s32 len⟩, ⟨dh, doff, s32 len⟩]
  | .ccCreatekey dh doff _ _ _ _ => [⟨dh, doff, 32⟩]
  | .pSign mh moff mlen kh koff th toff => [⟨mh, moff, s32 mlen⟩, ⟨kh, koff, 32⟩, ⟨th, toff, 16⟩]
  | .pVerify mh moff mlen kh koff th toff => [⟨mh, moff, s32 mlen⟩, ⟨kh, koff, 32⟩, ⟨th, toff, 16⟩]
  | .aSign ah aoff alen ch coff clen kh koff th toff =>
    [⟨ah, aoff, s32 alen⟩, ⟨ch, coff, s32 clen⟩, ⟨kh, koff, 32⟩, ⟨th, toff, 16⟩]
  | .aVerify ah aoff alen ch coff clen kh koff th toff =>
    [⟨ah, aoff, s32 alen⟩, ⟨ch, coff, s32 clen⟩, ⟨kh, koff, 32⟩, ⟨th, toff, 16⟩]
  | .fAdd _ _ _ => []
  | .fSub _ _ _ => []
  | .fMul _ _ _ => []
  | .fSqr _ _ => []
  | .fMul121666 _ _ => []
  | .fInv _ _ => []
  | .fCswap _ _ _ => []
  | .fDecode _ sh soff => [⟨sh, soff, 32⟩]
  | .fEncode _ dh doff => [⟨dh, doff, 32⟩]

/-- The stream commands of length zero that complete before any region check (R142 with `ZERO_LENGTH_CHECKS = false`). -/
def Instr.earlyNoop (i : Instr) (p : Params) : Bool :=
  match i with
  | .ccEncrypt _ _ _ _ len _ _ _ => s32 len == 0 && !p.zeroLengthChecks
  | .ccDecrypt _ _ _ _ len _ _ _ => s32 len == 0 && !p.zeroLengthChecks
  | _ => false

/-- The two regions of a stream command overlap without being identical (R70). -/
def Instr.overlaps : Instr → Bool
  | .ccEncrypt sh soff dh doff len _ _ _ => partialOverlap ⟨sh, soff, s32 len⟩ ⟨dh, doff, s32 len⟩
  | .ccDecrypt sh soff dh doff len _ _ _ => partialOverlap ⟨sh, soff, s32 len⟩ ⟨dh, doff, s32 len⟩
  | _ => false

/-- The marked registers a command reads, in the order of R264; the stream commands read none for length zero (R142). -/
def Instr.readRegs : Instr → List Reg
  | .ccBlock _ _ _ _ _ _ => [.key]
  | .ccCreatekey _ _ _ _ _ _ => [.key]
  | .ccEncrypt _ _ _ _ len _ _ _ => if 0 < s32 len then [.key, .ctr] else []
  | .ccDecrypt _ _ _ _ len _ _ _ => if 0 < s32 len then [.key, .ctr] else []
  | .fAdd _ fa fb => [.fe fa, .fe fb]
  | .fSub _ fa fb => [.fe fa, .fe fb]
  | .fMul _ fa fb => [.fe fa, .fe fb]
  | .fSqr _ fa => [.fe fa]
  | .fMul121666 _ fa => [.fe fa]
  | .fInv _ fa => [.fe fa]
  | .fCswap fa fb _ => [.fe fa, .fe fb]
  | .fEncode fa _ _ => [.fe fa]
  | _ => []

/-- The field registers a command writes (R43, R214). -/
def Instr.writesFe : Instr → List FeIdx
  | .fAdd fd _ _ => [fd]
  | .fSub fd _ _ => [fd]
  | .fMul fd _ _ => [fd]
  | .fSqr fd _ => [fd]
  | .fMul121666 fd _ => [fd]
  | .fInv fd _ => [fd]
  | .fCswap fa fb _ => [fa, fb]
  | .fDecode fd _ _ => [fd]
  | _ => []

/-- The region a command stores to (20_memory.md R65). -/
def Instr.stores : Instr → Option Region
  | .ccBlock dh doff _ _ _ _ => some ⟨dh, doff, 64⟩
  | .ccCreatekey dh doff _ _ _ _ => some ⟨dh, doff, 32⟩
  | .ccEncrypt _ _ dh doff len _ _ _ => some ⟨dh, doff, s32 len⟩
  | .ccDecrypt _ _ dh doff len _ _ _ => some ⟨dh, doff, s32 len⟩
  | .pSign _ _ _ _ _ th toff => some ⟨th, toff, 16⟩
  | .aSign _ _ _ _ _ _ _ _ th toff => some ⟨th, toff, 16⟩
  | .fEncode _ dh doff => some ⟨dh, doff, 32⟩
  | _ => none

/-- CC_SETKEY, the one command that writes `KEY` (R32). -/
def Instr.setsKey : Instr → Bool
  | .ccSetkey _ _ => true
  | _ => false

/-- The stream commands, the only ones that may write `CTR` (R34). -/
def Instr.isStream : Instr → Bool
  | .ccEncrypt _ _ _ _ _ _ _ _ => true
  | .ccDecrypt _ _ _ _ _ _ _ _ => true
  | _ => false

/-- The commands that read `KEY` (R43). -/
def Instr.readsKey : Instr → Bool
  | .ccBlock _ _ _ _ _ _ => true
  | .ccCreatekey _ _ _ _ _ _ => true
  | .ccEncrypt _ _ _ _ _ _ _ _ => true
  | .ccDecrypt _ _ _ _ _ _ _ _ => true
  | _ => false

/-- The seven field commands that touch no buffer (60_exceptions.md R263). -/
def Instr.isFieldArith : Instr → Bool
  | .fAdd _ _ _ => true
  | .fSub _ _ _ => true
  | .fMul _ _ _ => true
  | .fSqr _ _ => true
  | .fMul121666 _ _ => true
  | .fInv _ _ => true
  | .fCswap _ _ _ => true
  | _ => false

/-- The commands whose completion writes a `RESULT` that can be 1 (R38). -/
def Instr.givesResult : Instr → Bool
  | .keyEq _ _ _ _ => true
  | .macEq _ _ _ _ => true
  | .pVerify _ _ _ _ _ _ _ => true
  | .aVerify _ _ _ _ _ _ _ _ _ _ => true
  | _ => false

end Sys2Proof

namespace Sys2Proof.Machine

/-! ### Regions of memory -/

/-- The byte at offset `a` of slot `h` lies in the region. -/
def Region.Covers (r : Region) (h a : Nat) : Prop :=
  h = r.h.toNat ∧ s32 r.off ≤ (a : Int) ∧ (a : Int) < s32 r.off + r.n

/-- Every byte outside the region reads as before. -/
def UnchangedOutside (s t : State) (r : Region) : Prop :=
  ∀ h a : Nat, ¬ r.Covers h a → t.buf.byteAt h a = s.buf.byteAt h a

/-- A region check of R66 fails: the null buffer (a handle at or above `NBUF`, or an absent slot), a negative length, a negative
offset, or an end beyond the buffer. -/
def State.RegionBad (s : State) (r : Region) : Prop :=
  s.params.nbuf ≤ r.h.toNat ∨ s.buf.lenAt r.h.toNat = none ∨ r.n < 0 ∨ s32 r.off < 0 ∨
    ∃ len, s.buf.lenAt r.h.toNat = some len ∧ (len : Int) < s32 r.off + r.n

/-- The two regions share no byte. -/
def RegionsDisjoint (r q : Region) : Prop := ∀ h a : Nat, ¬ (r.Covers h a ∧ q.Covers h a)

/-- The state with other key words and the same mark: two states an observer without access to `KEY` cannot tell apart. -/
def State.withKeyWords (s : State) (k : Vector Word 8) : State := { s with key := ⟨k, s.key.written⟩ }

/-- The state is one from which the machine can move (R260). -/
def State.Running (s : State) : Prop := s.fault = [] ∧ s.refused = false

/-! ### Poly1305 as a polynomial (42_poly1305.md R162, R163, R166) -/

/-- `n_1 r^q + n_2 r^(q-1) + ... + n_q r`, the value the evaluation of R162 reduces mod `p1305`. -/
def polySum (r : Nat) (ns : List Nat) : Nat :=
  ((List.range ns.length).map fun i => ns.getD i 0 * r ^ (ns.length - i)).sum

/-- The block numbers of a message under the plain MAC, chunk by chunk (R163). -/
def plainNumbersOf (m : List Byte) : List Nat :=
  (List.range ((m.length + 15) / 16)).map fun i => leAt m (16 * i) 16 + 2 ^ (8 * min 16 (m.length - 16 * i))

/-- The block numbers of a segment under the AEAD variant, chunk by chunk (R166). -/
def aeadNumbersOf (policy : AeadTail) (x : List Byte) : List Nat :=
  (List.range ((x.length + 15) / 16)).map fun i =>
    leAt x (16 * i) 16 +
      (if policy = .allOne ∨ (policy = .tailZero ∧ 16 ≤ x.length - 16 * i) then 2 ^ 128 else 0)

/-- The number of a tag (R162): the polynomial in the clamped `r`, mod 2^130 - 5, plus `s`, mod 2^128. -/
def tagNumber (key : List Byte) (ns : List Nat) : Nat :=
  (polySum (leAt key 0 16 &&& 0x0ffffffc0ffffffc0ffffffc0fffffff) ns % (2 ^ 130 - 5) + leAt key 16 16) % 2 ^ 128

/-! ### Bounds of limb vectors (43_field_arith.md R196) -/

/-- `B(num / den)` of R196: `|l[j]| ≤ k * 2^25` for even `j` and `k * 2^24` for odd `j`. -/
def Limbs.Within (num den : Int) (h : Limbs Int) : Prop :=
  ∀ j : LimbIdx, den * |h.get j| ≤ num * 2 ^ (limbWidth j - 1)

/-- A value is in the i32 range (00_scope.md R12). -/
def InI32 (v : Int) : Prop := -2147483648 ≤ v ∧ v < 2147483648

/-- The integer limbs of a field register. -/
def State.feInts (s : State) (i : FeIdx) : Limbs Int := (s.feReg i).limbs.toInts

end Sys2Proof.Machine
end

