-- ==== Sys2Proof/Certificates/Slice0/Obligations.lean ====
section
/-! DEFINITION. The statements about the machine, each from the numbered rules of spec/ that its docstring names. -/

open Sys2Proof Sys2Proof.Machine

/-! ### Encoding (30_encoding.md) -/

/-- Decoding a well-formed command's frame gives the command back, every operand at every value (R91 to R96). -/
def Obligations.DecodeOfEncodeIsIdentity : Prop :=
  ∀ (nfe : Nat) (i : Instr), i.wf nfe = true → decode nfe (encode i) = .ok i

/-- A frame the decoder accepts is the frame of the well-formed command it reads: no two frames are one command, and no bit of
an accepted frame is ignored (R91 to R97). -/
def Obligations.EncodeOfDecodeIsIdentity : Prop :=
  ∀ (nfe : Nat) (frame : List Word) (i : Instr),
    decode nfe frame = .ok i → encode i = frame ∧ i.wf nfe = true

/-- A few frames of the spec, written out as words, and the commands they stand for (R100, 95_test_vectors.md). -/
def Obligations.SpecFramesDecode : Prop :=
  decode 16 [0x00010230#32] = .ok (.fAdd 2 0 1) ∧
  decode 16 [0x00000010#32, 0#32, 0#32] = .ok (.ccSetkey 0 0) ∧
  decode 16 [0x00000011#32, 0#32, 0#32, 1#32, 0x09000000#32, 0x4a000000#32, 0#32] =
    .ok (.ccBlock 0 0 1 0x09000000 0x4a000000 0) ∧
  decode 16 [0x00000002#32, 0#32, 0#32, 0#32, 1#32] = .ok (.macEq 0 0 0 1) ∧
  decode 16 [0x00110036#32] = .ok (.fCswap 0 1 1) ∧
  decode 16 [0x00003038#32, 1#32, 0#32] = .ok (.fEncode 3 1 0) ∧
  decode 16 [0x00000022#32, 2#32, 0#32, 12#32, 4#32, 0#32, 114#32, 1#32, 0#32, 5#32, 0#32] =
    .ok (.aSign 2 0 12 4 0 114 1 0 5 0)

/-- The five conditions of R97 in their order, the first that holds deciding, and a frame that meets none is a command; and a
frame that meets one ends the core's step with ILLEGAL_COMMAND and no other effect than on STATUS and PEND (R97). -/
def Obligations.IllegalFramesEndWithIllegalCommand : Prop :=
  (∀ nfe : Nat, decode nfe [] = .error .emptyFrame) ∧
  (∀ (nfe : Nat) (w0 : Word) (args : List Word),
    (Opcode.ofCode (w0.extractLsb' 0 8) = none → decode nfe (w0 :: args) = .error .reservedOpcode) ∧
    ∀ o : Opcode, Opcode.ofCode (w0.extractLsb' 0 8) = some o →
      (w0 &&& o.format.mask ≠ o.code.zeroExtend 32 → decode nfe (w0 :: args) = .error .maskMismatch) ∧
      (w0 &&& o.format.mask = o.code.zeroExtend 32 → (∃ j ∈ o.format.indices w0, nfe ≤ j.val) →
        decode nfe (w0 :: args) = .error .indexOutOfRange) ∧
      (w0 &&& o.format.mask = o.code.zeroExtend 32 → (∀ j ∈ o.format.indices w0, j.val < nfe) →
        args.length ≠ o.nargs → decode nfe (w0 :: args) = .error .wrongLength) ∧
      (w0 &&& o.format.mask = o.code.zeroExtend 32 → (∀ j ∈ o.format.indices w0, j.val < nfe) →
        args.length = o.nargs → ∃ i, decode nfe (w0 :: args) = .ok i)) ∧
  (∀ (s : State) (frame : List Word) (e : DecodeError), s.pend = some frame → decode s.params.nfe frame = .error e →
    coreStep s = .next { s with status := ⟨false, false, .illegalCommand⟩, pend := none })

/-- The reserved opcode values are exactly those R98 lists, and a frame with one has no effect but `ERR = ILLEGAL_COMMAND`,
whatever follows its opcode (R98). -/
def Obligations.ReservedOpcodesHaveNoEffect : Prop :=
  ∀ w0 : Word,
    let opc := w0.toNat % 256
    let reserved := opc = 0 ∨ (3 ≤ opc ∧ opc ≤ 0x0F) ∨ (0x15 ≤ opc ∧ opc ≤ 0x1F) ∨ (0x24 ≤ opc ∧ opc ≤ 0x2F) ∨ 0x39 ≤ opc
    (Opcode.ofCode (fieldOpc w0) = none ↔ reserved) ∧
    (reserved → ∀ (s : State) (args : List Word), s.pend = some (w0 :: args) →
      coreStep s = .next { s with status := ⟨false, false, .illegalCommand⟩, pend := none })

/-- The opcode alone fixes a frame's length, which is 1 to 11 words (R99). -/
def Obligations.OpcodeFixesFrameLength : Prop :=
  ∀ (nfe : Nat) (w0 : Word) (args : List Word) (i : Instr), decode nfe (w0 :: args) = .ok i →
    ∃ o : Opcode, Opcode.ofCode (fieldOpc w0) = some o ∧ args.length = o.nargs ∧
      1 ≤ (w0 :: args).length ∧ (w0 :: args).length ≤ 11

/-! ### Steps, reset and the invariant -/

/-- Where the core's turn is next (the agenda says so, or is empty: log 7), the step is the core's step, which runs the command
its pending frame decodes to (R281); around it the step does nothing but take the turn from the agenda. -/
def Obligations.StepRunsDecodedCommand : Prop :=
  ∀ s : State, s.Running →
    (s.agenda = [] → step s = coreStep s) ∧
    (∀ rest, s.agenda = .core :: rest → step s = coreStep { s with agenda := rest }) ∧
    ∀ (frame : List Word) (i : Instr), s.pend = some frame → decode s.params.nfe frame = .ok i →
      (s.agenda = [] → step s = exec i s) ∧
      (∀ rest, s.agenda = .core :: rest → step s = exec i { s with agenda := rest })

/-- The state after reset, for all parameters (R45): marks clear, STATUS 0, PEND empty, every slot absent, FAULT empty and
REFUSED false. -/
def Obligations.ResetStateIsAsTabled : Prop :=
  ∀ p : Params,
    (∀ r : Reg, (State.resetWith p).marked r = false) ∧
    (State.resetWith p).status.word = 0#32 ∧
    (State.resetWith p).pend = none ∧
    (∀ h : Nat, (State.resetWith p).buf.slot h = none) ∧
    (State.resetWith p).fault = [] ∧
    (State.resetWith p).refused = false

/-- The state after reset meets the machine's invariant and is clean (R286, R291), for all legal parameters; `State.reset` is
it at the default parameters, of which NBUF = 8 is the model's choice (log 3). -/
def Obligations.ResetMeetsInvariant : Prop :=
  State.reset = State.resetWith Config.defaults ∧
  ∀ p : Params, p.Legal → (State.resetWith p).Inv ∧ (State.resetWith p).Clean

/-- Every step keeps the invariant: the parameters legal, the buffer table canonical and within NBUF, BUSY saying whether a
frame is pending, at most one fault, a refused command still pending, no register at or above NFE marked. -/
def Obligations.EveryStepKeepsInvariant : Prop :=
  ∀ s t : State, s.Inv → step s = .next t → t.Inv

/-- No step is enabled once FAULT is non-empty or REFUSED is true, and nothing a command or the host does removes a fault or
clears REFUSED (R42, R260). That such a state's step answers the fault or the refusal is the model's form of it (log 1, 2). -/
def Obligations.FaultsAndRefusalsAreFinal : Prop :=
  (∀ (s : State), s.fault ≠ [] → ∃ f ∈ s.fault, step s = .fault f) ∧
  (∀ (s : State), s.fault = [] → s.refused = true → step s = .refused .partialOverlap) ∧
  (∀ (s t : State) (i : Instr), exec i s = .next t →
    (∀ f ∈ s.fault, f ∈ t.fault) ∧ (s.refused = true → t.refused = true)) ∧
  (∀ (s t : State) (a : HostAction), hostStep a s = .next t →
    (∀ f ∈ s.fault, f ∈ t.fault) ∧ (s.refused = true → t.refused = true))

/-- No step clears a written mark (R37): only reset does. -/
def Obligations.NoStepClearsWrittenMark : Prop :=
  ∀ (s t : State) (r : Reg), step s = .next t → s.marked r = true → t.marked r = true

/-- No step changes the parameters of the instance (R9), which the model keeps in its state (log 3). -/
def Obligations.NoStepChangesParameters : Prop :=
  ∀ s t : State, step s = .next t → t.params = s.params

/-- What the core takes from PEND ends in one of the four outcomes of R261: success, an architectural error that changes STATUS
and PEND alone, a model fault that adds one name to FAULT and changes nothing else, or a refusal that sets REFUSED and changes
nothing else. -/
def Obligations.EveryCommandEndsInOneOfFourOutcomes : Prop :=
  ∀ (s : State) (frame : List Word), s.Running → s.pend = some frame →
    (∃ t, coreStep s = .next t ∧ t.pend = none ∧ t.status.busy = false ∧ t.status.err = .ok ∧
      t.fault = [] ∧ t.refused = false) ∨
    (∃ e, e ≠ .ok ∧ coreStep s = .next { s with status := ⟨false, false, e⟩, pend := none }) ∨
    (∃ f, (f = .arithOverflow ∨ ∃ r, f = .unwrittenRead r ∧ s.marked r = false) ∧
      coreStep s = .next { s with fault := [f] }) ∨
    coreStep s = .next { s with refused := true }

/-! ### Errors and faults -/

/-- A buffer operand that fails the region check of R66 ends the command with INVALID_ARGUMENT and no effect but on STATUS and
PEND, whichever operand of whichever command it is; the zero-length stream commands of R142 that check nothing are the one
exception. -/
def Obligations.BadRegionIsInvalidArgument : Prop :=
  ∀ (i : Instr) (s : State) (r : Region),
    r ∈ i.regions → s.RegionBad r → i.earlyNoop s.params = false →
    exec i s = .next { s with status := ⟨false, false, .invalidArgument⟩, pend := none }

/-- The first register a command reads whose mark is clear is fault UnwrittenRead of that register, and nothing else changes
(R37, R138, R264, R272). -/
def Obligations.UnwrittenReadIsRecorded : Prop :=
  ∀ (i : Instr) (s : State) (before after : List Reg) (r : Reg),
    s.fault = [] → (∀ q ∈ i.regions, ¬ s.RegionBad q) → i.overlaps = false →
    i.readRegs = before ++ r :: after → (∀ q ∈ before, s.marked q = true) → s.marked r = false →
    exec i s = .next { s with fault := [.unwrittenRead r] }

/-- A width check that fails is fault ArithOverflow and nothing else changes (R271, R194): a limb of a sum or difference of F_ADD
or F_SUB outside i32 (R200, R201); a pre-scaled operand of F_MUL (R204), of F_SQR (R206), or of the first squaring of F_INV
(R230, R231) outside i32; and, where F_ENCODE's region is good, one of the first values of its quotient estimate outside i32
(R241). F_MUL121666, which R271 names too, has no operand on which a check fails (Mul121666AlwaysCompletes). -/
def Obligations.WidthOverflowIsRecorded : Prop :=
  ∀ (s : State) (fd fa fb : FeIdx),
    s.fault = [] → (s.feReg fa).written = true → (s.feReg fb).written = true →
    ((∃ j, ¬ InI32 ((s.feInts fa).get j + (s.feInts fb).get j)) →
      exec (.fAdd fd fa fb) s = .next { s with fault := [.arithOverflow] }) ∧
    ((∃ j, ¬ InI32 ((s.feInts fa).get j - (s.feInts fb).get j)) →
      exec (.fSub fd fa fb) s = .next { s with fault := [.arithOverflow] }) ∧
    ((∃ j : LimbIdx, (j ≠ 0 ∧ ¬ InI32 (19 * (s.feInts fb).get j)) ∨
        (j.val % 2 = 1 ∧ ¬ InI32 (2 * (s.feInts fa).get j))) →
      exec (.fMul fd fa fb) s = .next { s with fault := [.arithOverflow] }) ∧
    ((∃ j : LimbIdx, (j.val < 8 ∧ ¬ InI32 (2 * (s.feInts fa).get j)) ∨
        ((j = 6 ∨ j = 8) ∧ ¬ InI32 (19 * (s.feInts fa).get j)) ∨
        ((j = 5 ∨ j = 7 ∨ j = 9) ∧ ¬ InI32 (38 * (s.feInts fa).get j))) →
      exec (.fSqr fd fa) s = .next { s with fault := [.arithOverflow] } ∧
      exec (.fInv fd fa) s = .next { s with fault := [.arithOverflow] }) ∧
    (∀ dh doff : Word, ¬ s.RegionBad ⟨dh, doff, 32⟩ →
      (¬ InI32 (19 * (s.feInts fa).l9) ∨ ¬ InI32 (19 * (s.feInts fa).l9 + 2 ^ 24) ∨
        ¬ InI32 ((s.feInts fa).l0 + (19 * (s.feInts fa).l9 + 2 ^ 24) / 2 ^ 25)) →
      exec (.fEncode fa dh doff) s = .next { s with fault := [.arithOverflow] })

/-- CC_ENCRYPT and CC_DECRYPT with regions that overlap without being identical are refused: REFUSED is set and nothing else
changes, and the state takes no further step (R273, R70). That the step from such a state answers the refusal partialOverlap is
the model's choice of form (log 2, a DESIGN CHOICE). -/
def Obligations.PartialOverlapIsRefused : Prop :=
  ∀ (s : State) (h soff doff len n0 n1 n2 : Word),
    ¬ s.RegionBad ⟨h, soff, s32 len⟩ → ¬ s.RegionBad ⟨h, doff, s32 len⟩ → 0 < s32 len →
    s32 soff ≠ s32 doff → s32 soff < s32 doff + s32 len → s32 doff < s32 soff + s32 len →
    exec (.ccEncrypt h soff h doff len n0 n1 n2) s = .next { s with refused := true } ∧
    exec (.ccDecrypt h soff h doff len n0 n1 n2) s = .next { s with refused := true } ∧
    (s.fault = [] → step { s with refused := true } = .refused .partialOverlap)

/-! ### The host interface (60_exceptions.md section 5). That the agenda says which host action comes next, and that `reply`
holds what it returned, is the model's form of the host (log 7, 8). -/

/-- While a command is pending, every host action but H_RDSTATUS is fault HostHazard and has no other effect (R284). -/
def Obligations.BusyHazardIsRecorded : Prop :=
  ∀ (s : State) (a : HostAction) (rest : List Move),
    s.Running → s.agenda = .host a :: rest → s.pend ≠ none → a ≠ .rdStatus → s.hostMay a = true →
    step s = .next { s with agenda := rest, fault := [.hostHazard] }

/-- H_RDSTATUS returns the word of R35 at any time, pending or not, and changes nothing: BUSY is bit 0, RESULT bit 1, ERR bits
7:4 with the codes of R36, every other bit 0. -/
def Obligations.StatusReadReturnsTheTabledWord : Prop :=
  ∀ (s : State) (rest : List Move), s.Running → s.agenda = .host .rdStatus :: rest →
    ∃ w : Word, step s = .next { s with agenda := rest, reply := .word w } ∧
      w.toNat = (if s.status.busy then 1 else 0) + (if s.status.result then 2 else 0) +
        16 * (match s.status.err with
          | .ok => 0
          | .invalidArgument => 1
          | .illegalCommand => 2)

/-- H_ISSUE with PEND empty fills PEND with the frame, sets BUSY, writes no other field of STATUS and changes nothing else
(R280). -/
def Obligations.IssueFillsTheLatch : Prop :=
  ∀ (s : State) (frame : List Word) (rest : List Move),
    s.Running → s.agenda = .host (.issue frame) :: rest → s.pend = none →
    step s = .next { s with
      agenda := rest
      pend := some frame
      status := { s.status with busy := true }
      reply := .nothing }

/-- H_WRFE writes ten limbs, any i32 values, and the mark of one register and nothing else; H_RDFE of a marked register returns
its limbs and changes nothing; H_RDFE of an unmarked register is fault UnwrittenRead (R282). -/
def Obligations.HostFieldAccess : Prop :=
  ∀ (s : State) (i : FeIdx) (rest : List Move), s.Running → s.pend = none → i.val < s.params.nfe →
    (∀ v : Limbs Word, s.agenda = .host (.wrFe i.val v) :: rest →
      step s = .next { s with fe := s.fe.set i.val ⟨v, true⟩ i.isLt, agenda := rest, reply := .nothing }) ∧
    (s.agenda = .host (.rdFe i.val) :: rest → (s.feReg i).written = true →
      step s = .next { s with agenda := rest, reply := .limbs (s.feReg i).limbs }) ∧
    (s.agenda = .host (.rdFe i.val) :: rest → (s.feReg i).written = false →
      step s = .next { s with agenda := rest, fault := [.unwrittenRead (.fe i)] })

/-- H_WRCTR writes CTR and its mark and nothing else; H_RDCTR of a marked CTR returns the word and changes nothing; H_RDCTR of an
unmarked CTR is fault UnwrittenRead (R283). -/
def Obligations.HostCounterAccess : Prop :=
  ∀ (s : State) (rest : List Move), s.Running → s.pend = none →
    (∀ v : Word, s.agenda = .host (.wrCtr v) :: rest →
      step s = .next { s with ctr := ⟨v, true⟩, agenda := rest, reply := .nothing }) ∧
    (s.agenda = .host .rdCtr :: rest → s.ctr.written = true →
      step s = .next { s with agenda := rest, reply := .word s.ctr.value }) ∧
    (s.agenda = .host .rdCtr :: rest → s.ctr.written = false →
      step s = .next { s with agenda := rest, fault := [.unwrittenRead .ctr] })

/-- H_BUFALLOC leaves a slot of n zero bytes and H_BUFFREE an absent one; H_BUFWRITE puts byte i of its string at offset `off + i`
and leaves every other byte; H_BUFREAD of any range within a present buffer returns its bytes, byte i the one at `off + i`, and
leaves all of memory. None changes a register or STATUS (R285). -/
def Obligations.HostBufferAccess : Prop :=
  ∀ (s : State) (h : Nat) (rest : List Move), s.Running → s.pend = none → h < s.params.nbuf →
    (∀ n : Nat, n ≤ 2147483647 → s.agenda = .host (.bufAlloc h n) :: rest →
      ∃ t : State, step s = .next t ∧ t = { s with buf := t.buf, agenda := rest, reply := .nothing } ∧
        t.buf.lenAt h = some n ∧ (∀ a < n, t.buf.byteAt h a = some 0#8) ∧
        ∀ x a, x ≠ h → t.buf.byteAt x a = s.buf.byteAt x a) ∧
    (s.agenda = .host (.bufFree h) :: rest →
      ∃ t : State, step s = .next t ∧ t = { s with buf := t.buf, agenda := rest, reply := .nothing } ∧
        t.buf.lenAt h = none ∧ ∀ x a, x ≠ h → t.buf.byteAt x a = s.buf.byteAt x a) ∧
    (∀ (off len : Nat) (bytes : List Byte), s.buf.lenAt h = some len → off + bytes.length ≤ len →
      s.agenda = .host (.bufWrite h off bytes) :: rest →
      ∃ t : State, step s = .next t ∧ t = { s with buf := t.buf, agenda := rest, reply := .nothing } ∧
        t.buf.lenAt h = some len ∧ (∀ i < bytes.length, t.buf.byteAt h (off + i) = bytes[i]?) ∧
        ∀ x a, ¬ (x = h ∧ off ≤ a ∧ a < off + bytes.length) → t.buf.byteAt x a = s.buf.byteAt x a) ∧
    (∀ off n len : Nat, s.buf.lenAt h = some len → off + n ≤ len → s.agenda = .host (.bufRead h off n) :: rest →
      ∃ bytes : List Byte, step s = .next { s with agenda := rest, reply := .bytes bytes } ∧
        bytes.length = n ∧ ∀ i < n, bytes[i]? = s.buf.byteAt h (off + i))

/-- A host action whose host precondition fails has no move: a register at or above NFE, a slot at or above NBUF, a buffer
longer than 2^31 - 1, an access to an absent slot or beyond its end (I7 to I9, R282, R285). That the step then answers a refusal
is the model's form of having no move (log 9). -/
def Obligations.HostPreconditionFailureHasNoMove : Prop :=
  ∀ (s : State) (a : HostAction) (rest : List Move), s.Running → s.agenda = .host a :: rest →
    ((∃ i, s.params.nfe ≤ i ∧ (a = .rdFe i ∨ ∃ v, a = .wrFe i v)) ∨
      (∃ h n, (s.params.nbuf ≤ h ∨ n < 0 ∨ 2147483647 < n) ∧ a = .bufAlloc h n) ∨
      (∃ h, s.params.nbuf ≤ h ∧ a = .bufFree h) ∨
      (∃ h off bytes, (s.params.nbuf ≤ h ∨ s.buf.lenAt h = none ∨ off < 0 ∨
        ∃ len, s.buf.lenAt h = some len ∧ (len : Int) < off + (bytes.length : Int)) ∧ a = .bufWrite h off bytes) ∨
      (∃ h off n, (s.params.nbuf ≤ h ∨ s.buf.lenAt h = none ∨ off < 0 ∨ n < 0 ∨
        ∃ len, s.buf.lenAt h = some len ∧ (len : Int) < off + n) ∧ a = .bufRead h off n)) →
    step s = .refused .hostPrecondition

/-- The host cannot learn KEY (R32): two states that differ only in the words of KEY answer every host action alike, with the
same returned value. -/
def Obligations.HostActionsDoNotRevealKey : Prop :=
  ∀ (a : HostAction) (s t : State) (k : Vector Word 8),
    hostStep a s = .next t → hostStep a (s.withKeyWords k) = .next (t.withKeyWords k)

/-- A command other than the four that read KEY and CC_SETKEY does the same whatever KEY holds (R43): no such command copies KEY
anywhere. -/
def Obligations.OtherCommandsDoNotUseKey : Prop :=
  ∀ (i : Instr) (s t : State) (k : Vector Word 8), i.readsKey = false → i.setsKey = false →
    exec i s = .next t → exec i (s.withKeyWords k) = .next (t.withKeyWords k)

/-! ### What commands and host actions write (10_state.md R43) -/

/-- The frame of every command: it writes only the field registers, the region, KEY, CTR and the scratch that R43 and R65 give
it, besides STATUS, PEND and, on a fault or refusal, FAULT and REFUSED. That commands which run no block keep the scratch is the
model's reading (log 6). -/
def Obligations.CommandsWriteOnlyWhatTheyMay : Prop :=
  ∀ (i : Instr) (s t : State), exec i s = .next t →
    t.params = s.params ∧ t.agenda = s.agenda ∧ t.reply = s.reply ∧
    (∀ j : FeIdx, j ∉ i.writesFe → t.feReg j = s.feReg j) ∧
    (i.setsKey = false → t.key = s.key) ∧
    (i.isStream = false ∨ s.params.counterWriteback = false → t.ctr = s.ctr) ∧
    (i.stores = none → t.buf = s.buf) ∧
    (∀ r, i.stores = some r → UnchangedOutside s t r) ∧
    (i.readsKey = false → t.work = s.work ∧ t.blk = s.blk ∧ t.fresh = s.fresh)

/-- Commands never change a buffer's length or presence (R60). -/
def Obligations.CommandsKeepBufferLengths : Prop :=
  ∀ (i : Instr) (s t : State) (h : Nat), exec i s = .next t → t.buf.lenAt h = s.buf.lenAt h

/-- Over whole steps: KEY changes only in a core step whose frame is CC_SETKEY (R32), and CTR only by H_WRCTR or in a core step
of a stream command with COUNTER_WRITEBACK (R34). A core step is one whose turn the agenda gives to the core (log 7). -/
def Obligations.KeyAndCounterWriters : Prop :=
  ∀ s t : State, step s = .next t →
    (t.key ≠ s.key → (s.agenda = [] ∨ ∃ rest, s.agenda = .core :: rest) ∧
      ∃ frame kh koff, s.pend = some frame ∧ decode s.params.nfe frame = .ok (.ccSetkey kh koff)) ∧
    (t.ctr ≠ s.ctr → (∃ v rest, s.agenda = .host (.wrCtr v) :: rest) ∨
      ((s.agenda = [] ∨ ∃ rest, s.agenda = .core :: rest) ∧ s.params.counterWriteback = true ∧
        ∃ frame i, s.pend = some frame ∧ decode s.params.nfe frame = .ok i ∧ i.isStream = true))

/-- A command that completes writes RESULT = 0 unless it is KEY_EQ, MAC_EQ, P_VERIFY or A_VERIFY, and every error writes
RESULT = 0 (R38). -/
def Obligations.ResultIsZeroUnlessComparing : Prop :=
  ∀ (i : Instr) (s t : State), s.Running → exec i s = .next t → t.Running →
    (i.givesResult = false → t.status.result = false) ∧ (t.status.err ≠ .ok → t.status.result = false)

/-- The seven field commands without buffer operands depend on the registers they read alone, and on no hidden state: from
states that agree on those registers and on the parameters they fault alike and write alike (R214). -/
def Obligations.FieldCommandsHaveNoHiddenState : Prop :=
  ∀ (i : Instr) (s s' : State), i.isFieldArith = true → s.fault = [] → s'.fault = [] → s.params = s'.params →
    (∀ j : FeIdx, .fe j ∈ i.readRegs → s.feReg j = s'.feReg j) →
    ∃ t t' : State, exec i s = .next t ∧ exec i s' = .next t' ∧ t.fault = t'.fault ∧
      (t.fault = [] → ∀ j ∈ i.writesFe, t.feReg j = t'.feReg j)

/-! ### Value types (40_value_types.md) -/

/-- KEY_EQ: its frame is `0x00000001` and the four operands; it completes with RESULT saying whether the two 32-byte regions hold
equal bytes, and with INVALID_ARGUMENT and RESULT 0 where a region check fails; either way nothing but STATUS and PEND changes
(R115, R116). That regions which overlap in part are compared byte by byte too, as R116's pseudocode has it and against its
corner case, is the model's choice (log 19). -/
def Obligations.KeyEqComparesRegions : Prop :=
  ∀ (s : State) (h1 off1 h2 off2 : Word),
    (∀ nfe, decode nfe [0x00000001#32, h1, off1, h2, off2] = .ok (.keyEq h1 off1 h2 off2)) ∧
    (¬ s.RegionBad ⟨h1, off1, 32⟩ → ¬ s.RegionBad ⟨h2, off2, 32⟩ →
      exec (.keyEq h1 off1 h2 off2) s = .next { s with
        status := ⟨false, decide (s.memRead h1 off1 32 = s.memRead h2 off2 32), .ok⟩
        pend := none }) ∧
    (s.RegionBad ⟨h1, off1, 32⟩ ∨ s.RegionBad ⟨h2, off2, 32⟩ →
      exec (.keyEq h1 off1 h2 off2) s = .next { s with status := ⟨false, false, .invalidArgument⟩, pend := none })

/-- MAC_EQ: its frame is `0x00000002` and the four operands; it completes with RESULT saying whether the two 16-byte regions hold
equal bytes, and with INVALID_ARGUMENT and RESULT 0 where a region check fails; either way nothing but STATUS and PEND changes
(R117). -/
def Obligations.MacEqComparesRegions : Prop :=
  ∀ (s : State) (h1 off1 h2 off2 : Word),
    (∀ nfe, decode nfe [0x00000002#32, h1, off1, h2, off2] = .ok (.macEq h1 off1 h2 off2)) ∧
    (¬ s.RegionBad ⟨h1, off1, 16⟩ → ¬ s.RegionBad ⟨h2, off2, 16⟩ →
      exec (.macEq h1 off1 h2 off2) s = .next { s with
        status := ⟨false, decide (s.memRead h1 off1 16 = s.memRead h2 off2 16), .ok⟩
        pend := none }) ∧
    (s.RegionBad ⟨h1, off1, 16⟩ ∨ s.RegionBad ⟨h2, off2, 16⟩ →
      exec (.macEq h1 off1 h2 off2) s = .next { s with status := ⟨false, false, .invalidArgument⟩, pend := none })

/-! ### ChaCha20 (41_chacha20.md) -/

/-- CC_SETKEY: its frame is `0x00000010` and the two operands; it completes, word i of KEY the little-endian value of bytes 4i to
4i+3 and the mark set, and nothing else but STATUS and PEND changes; where the region check fails it ends with INVALID_ARGUMENT,
KEY and its mark unchanged (R140). -/
def Obligations.SetKeyLoadsLittleEndianWords : Prop :=
  ∀ (s : State) (kh koff : Word),
    (∀ nfe, decode nfe [0x00000010#32, kh, koff] = .ok (.ccSetkey kh koff)) ∧
    (¬ s.RegionBad ⟨kh, koff, 32⟩ → ∃ k : Vector Word 8,
      (∀ (i : Nat) (hi : i < 8), k[i].toNat = leAt (s.memRead kh koff 32) (4 * i) 4) ∧
      exec (.ccSetkey kh koff) s = .next { s with
        key := ⟨k, true⟩
        status := ⟨false, false, .ok⟩
        pend := none }) ∧
    (s.RegionBad ⟨kh, koff, 32⟩ →
      exec (.ccSetkey kh koff) s = .next { s with status := ⟨false, false, .invalidArgument⟩, pend := none })

/-- The block function: 64 bytes, of which bytes 4i to 4i+3 are, little-endian, the sum mod 2^32 of word i of the initial state
and word i after the twenty rounds (R134). -/
def Obligations.BlockBytesAreLittleEndianSums : Prop :=
  ∀ (key : Vector Word 8) (c : Word) (nonce : Nonce),
    (chachaBlock key c nonce).length = 64 ∧
    ∀ i : Fin 16, leAt (chachaBlock key c nonce) (4 * i.val) 4 =
      ((chachaInit key c nonce)[i].toNat + (doubleRounds 10 (chachaInit key c nonce))[i].toNat) % 2 ^ 32

/-- CC_BLOCK and CC_CREATEKEY complete where KEY is loaded: the block, or its first 32 bytes, for the frame's own counter and
nonce stands in the region, every byte outside it reads as before, and nothing else but the scratch, STATUS and PEND changes;
CTR is neither read nor written (R141, R147). -/
def Obligations.BlockCommandsWriteKeystream : Prop :=
  ∀ (s : State) (dh doff ctr n0 n1 n2 : Word), s.key.written = true →
    (¬ s.RegionBad ⟨dh, doff, 64⟩ → ∃ t : State, exec (.ccBlock dh doff ctr n0 n1 n2) s = .next t ∧
      t.memRead dh doff 64 = chachaBlock s.key.words ctr ⟨n0, n1, n2⟩ ∧
      UnchangedOutside s t ⟨dh, doff, 64⟩ ∧
      t = { s with
        buf := t.buf
        work := t.work
        blk := t.blk
        fresh := t.fresh
        status := ⟨false, false, .ok⟩
        pend := none }) ∧
    (¬ s.RegionBad ⟨dh, doff, 32⟩ → ∃ t : State, exec (.ccCreatekey dh doff ctr n0 n1 n2) s = .next t ∧
      t.memRead dh doff 32 = (chachaBlock s.key.words ctr ⟨n0, n1, n2⟩).take 32 ∧
      UnchangedOutside s t ⟨dh, doff, 32⟩ ∧
      t = { s with
        buf := t.buf
        work := t.work
        blk := t.blk
        fresh := t.fresh
        status := ⟨false, false, .ok⟩
        pend := none })

/-- CC_ENCRYPT and CC_DECRYPT of L > 0 bytes complete, for identical or disjoint regions and KEY and CTR written: byte k of the
destination is byte k of the source XOR byte k mod 64 of the block for counter CTR + k / 64 mod 2^32, every byte outside the
destination reads as before, CTR is advanced by ceil(L / 64) with COUNTER_WRITEBACK and kept without, and nothing else but the
scratch, STATUS and PEND changes (R135, R136, R143 to R146). -/
def Obligations.StreamCommandsXorKeystream : Prop :=
  ∀ (s : State) (sh soff dh doff len n0 n1 n2 : Word),
    ¬ s.RegionBad ⟨sh, soff, s32 len⟩ → ¬ s.RegionBad ⟨dh, doff, s32 len⟩ → 0 < s32 len →
    (sh = dh ∧ soff = doff ∨ RegionsDisjoint ⟨sh, soff, s32 len⟩ ⟨dh, doff, s32 len⟩) →
    s.key.written = true → s.ctr.written = true →
    ∃ t : State, exec (.ccEncrypt sh soff dh doff len n0 n1 n2) s = .next t ∧
      exec (.ccDecrypt sh soff dh doff len n0 n1 n2) s = .next t ∧
      (∀ k < (s32 len).toNat,
        (t.memRead dh doff (s32 len).toNat)[k]? = some ((s.memRead sh soff (s32 len).toNat).getD k 0 ^^^
          (chachaBlock s.key.words (s.ctr.value + BitVec.ofNat 32 (k / 64)) ⟨n0, n1, n2⟩).getD (k % 64) 0)) ∧
      UnchangedOutside s t ⟨dh, doff, s32 len⟩ ∧
      t.ctr = (if s.params.counterWriteback then
        ⟨s.ctr.value + BitVec.ofNat 32 (((s32 len).toNat + 63) / 64), true⟩ else s.ctr) ∧
      t = { s with
        buf := t.buf
        ctr := t.ctr
        work := t.work
        blk := t.blk
        fresh := t.fresh
        status := ⟨false, false, .ok⟩
        pend := none }

/-- CC_ENCRYPT and CC_DECRYPT of no bytes: with ZERO_LENGTH_CHECKS the regions are checked, without it they are not; either way
the command completes, reads neither KEY nor CTR and changes nothing but STATUS and PEND (R142). That the scratch is unchanged
is the model's reading (log 6). -/
def Obligations.ZeroLengthStreamIsNoop : Prop :=
  ∀ (s : State) (sh soff dh doff len n0 n1 n2 : Word), s32 len = 0 →
    (s.params.zeroLengthChecks = false ∨ (¬ s.RegionBad ⟨sh, soff, 0⟩ ∧ ¬ s.RegionBad ⟨dh, doff, 0⟩)) →
    exec (.ccEncrypt sh soff dh doff len n0 n1 n2) s = .next { s with status := ⟨false, false, .ok⟩, pend := none } ∧
    exec (.ccDecrypt sh soff dh doff len n0 n1 n2) s = .next { s with status := ⟨false, false, .ok⟩, pend := none }

/-- The round trip, which the spec derives from the keystream XOR (R148, R136): the stream transform undoes itself for every key,
counter, nonce and string; and CC_DECRYPT after CC_ENCRYPT, with the same KEY, nonce and CTR at the start, restores the source
bytes, wherever the two results go. -/
def Obligations.DecryptAfterEncryptRestoresBytes : Prop :=
  (∀ (key : Vector Word 8) (c0 : Word) (nonce : Nonce) (src : List Byte),
    streamXor key c0 nonce (streamXor key c0 nonce src) = src) ∧
  ∀ (s : State) (sh soff dh doff eh eoff len n0 n1 n2 : Word),
    ¬ s.RegionBad ⟨sh, soff, s32 len⟩ → ¬ s.RegionBad ⟨dh, doff, s32 len⟩ → ¬ s.RegionBad ⟨eh, eoff, s32 len⟩ →
    (sh = dh ∧ soff = doff ∨ RegionsDisjoint ⟨sh, soff, s32 len⟩ ⟨dh, doff, s32 len⟩) →
    (dh = eh ∧ doff = eoff ∨ RegionsDisjoint ⟨dh, doff, s32 len⟩ ⟨eh, eoff, s32 len⟩) →
    (0 < s32 len → s.key.written = true ∧ s.ctr.written = true) →
    ∃ t u : State, exec (.ccEncrypt sh soff dh doff len n0 n1 n2) s = .next t ∧
      exec (.ccDecrypt dh doff eh eoff len n0 n1 n2) { t with ctr := s.ctr } = .next u ∧
      u.memRead eh eoff (s32 len).toNat = s.memRead sh soff (s32 len).toNat

/-! ### Poly1305 (42_poly1305.md) -/

/-- The clamp clears the top four bits of every 32-bit word of r and the low two bits of every word but the first, and keeps
every other bit of the key's first half (R160, R161). -/
def Obligations.ClampClearsTheTabledBits : Prop :=
  ∀ (key : List Byte) (i : Nat), i < 128 →
    (polyR key).testBit i = ((leAt key 0 16).testBit i && decide (i % 32 < 28) && !(decide (32 ≤ i) && decide (i % 32 < 2)))

/-- P_SIGN: its frame is `0x00000020` and the seven operands; it completes, and the tag in the region is, as a little-endian
number, the polynomial of the message's block numbers in the clamped r, mod 2^130 - 5, plus s, mod 2^128; every byte outside the
tag reads as before and nothing else but STATUS and PEND changes. The regions may overlap. Where a region check fails it ends
with INVALID_ARGUMENT and nothing is written (R170; R160 to R164 for the tag's number). -/
def Obligations.PolySignWritesTag : Prop :=
  ∀ (s : State) (mh moff mlen kh koff th toff : Word),
    (∀ nfe, decode nfe [0x00000020#32, mh, moff, mlen, kh, koff, th, toff] = .ok (.pSign mh moff mlen kh koff th toff)) ∧
    (¬ s.RegionBad ⟨mh, moff, s32 mlen⟩ → ¬ s.RegionBad ⟨kh, koff, 32⟩ → ¬ s.RegionBad ⟨th, toff, 16⟩ →
      ∃ t : State, exec (.pSign mh moff mlen kh koff th toff) s = .next t ∧
        leValue (t.memRead th toff 16) =
          tagNumber (s.memRead kh koff 32) (plainNumbersOf (s.memRead mh moff (s32 mlen).toNat)) ∧
        UnchangedOutside s t ⟨th, toff, 16⟩ ∧
        t = { s with buf := t.buf, status := ⟨false, false, .ok⟩, pend := none }) ∧
    (s.RegionBad ⟨mh, moff, s32 mlen⟩ ∨ s.RegionBad ⟨kh, koff, 32⟩ ∨ s.RegionBad ⟨th, toff, 16⟩ →
      exec (.pSign mh moff mlen kh koff th toff) s =
        .next { s with status := ⟨false, false, .invalidArgument⟩, pend := none })

/-- P_VERIFY: its frame is `0x00000021` and the seven operands; it completes with RESULT saying whether the given tag is the
message's, ERR = OK either way, and changes nothing but STATUS and PEND; where a region check fails it ends with
INVALID_ARGUMENT and RESULT 0 (R171, R169). -/
def Obligations.PolyVerifyComparesTag : Prop :=
  ∀ (s : State) (mh moff mlen kh koff th toff : Word),
    (∀ nfe, decode nfe [0x00000021#32, mh, moff, mlen, kh, koff, th, toff] = .ok (.pVerify mh moff mlen kh koff th toff)) ∧
    (¬ s.RegionBad ⟨mh, moff, s32 mlen⟩ → ¬ s.RegionBad ⟨kh, koff, 32⟩ → ¬ s.RegionBad ⟨th, toff, 16⟩ →
      exec (.pVerify mh moff mlen kh koff th toff) s = .next { s with
        status := ⟨false, decide (leValue (s.memRead th toff 16) =
          tagNumber (s.memRead kh koff 32) (plainNumbersOf (s.memRead mh moff (s32 mlen).toNat))), .ok⟩
        pend := none }) ∧
    (s.RegionBad ⟨mh, moff, s32 mlen⟩ ∨ s.RegionBad ⟨kh, koff, 32⟩ ∨ s.RegionBad ⟨th, toff, 16⟩ →
      exec (.pVerify mh moff mlen kh koff th toff) s =
        .next { s with status := ⟨false, false, .invalidArgument⟩, pend := none })

/-- A_SIGN completes: as P_SIGN, over the block numbers of the associated data and then of the ciphertext under the instance's
AEAD_TAIL_POLICY, each segment chunked on its own, with no length trailer (R166, R167, R172, R175). -/
def Obligations.AeadSignWritesTag : Prop :=
  ∀ (s : State) (ah aoff alen ch coff clen kh koff th toff : Word),
    ¬ s.RegionBad ⟨ah, aoff, s32 alen⟩ → ¬ s.RegionBad ⟨ch, coff, s32 clen⟩ → ¬ s.RegionBad ⟨kh, koff, 32⟩ →
    ¬ s.RegionBad ⟨th, toff, 16⟩ →
    ∃ t : State, exec (.aSign ah aoff alen ch coff clen kh koff th toff) s = .next t ∧
      leValue (t.memRead th toff 16) = tagNumber (s.memRead kh koff 32)
        (aeadNumbersOf s.params.aeadTail (s.memRead ah aoff (s32 alen).toNat) ++
          aeadNumbersOf s.params.aeadTail (s.memRead ch coff (s32 clen).toNat)) ∧
      UnchangedOutside s t ⟨th, toff, 16⟩ ∧
      t = { s with buf := t.buf, status := ⟨false, false, .ok⟩, pend := none }

/-- A_VERIFY completes with RESULT saying whether the given tag is that of the two segments, ERR = OK either way, and changes
nothing but STATUS and PEND (R168, R169, R173). -/
def Obligations.AeadVerifyComparesTag : Prop :=
  ∀ (s : State) (ah aoff alen ch coff clen kh koff th toff : Word),
    ¬ s.RegionBad ⟨ah, aoff, s32 alen⟩ → ¬ s.RegionBad ⟨ch, coff, s32 clen⟩ → ¬ s.RegionBad ⟨kh, koff, 32⟩ →
    ¬ s.RegionBad ⟨th, toff, 16⟩ →
    exec (.aVerify ah aoff alen ch coff clen kh koff th toff) s = .next { s with
      status := ⟨false, decide (leValue (s.memRead th toff 16) = tagNumber (s.memRead kh koff 32)
        (aeadNumbersOf s.params.aeadTail (s.memRead ah aoff (s32 alen).toNat) ++
          aeadNumbersOf s.params.aeadTail (s.memRead ch coff (s32 clen).toNat))), .ok⟩
      pend := none }

/-- A tag that P_SIGN or A_SIGN has just written verifies, where the tag's region shares no byte with what is authenticated or
with the key (R170 to R173). -/
def Obligations.SignedTagVerifies : Prop :=
  ∀ (s : State) (ah aoff alen ch coff clen kh koff th toff : Word),
    ¬ s.RegionBad ⟨ah, aoff, s32 alen⟩ → ¬ s.RegionBad ⟨ch, coff, s32 clen⟩ → ¬ s.RegionBad ⟨kh, koff, 32⟩ →
    ¬ s.RegionBad ⟨th, toff, 16⟩ → RegionsDisjoint ⟨ah, aoff, s32 alen⟩ ⟨th, toff, 16⟩ →
    RegionsDisjoint ⟨ch, coff, s32 clen⟩ ⟨th, toff, 16⟩ → RegionsDisjoint ⟨kh, koff, 32⟩ ⟨th, toff, 16⟩ →
    (∃ t u : State, exec (.pSign ah aoff alen kh koff th toff) s = .next t ∧
      exec (.pVerify ah aoff alen kh koff th toff) t = .next u ∧ u.status = ⟨false, true, .ok⟩) ∧
    (∃ t u : State, exec (.aSign ah aoff alen ch coff clen kh koff th toff) s = .next t ∧
      exec (.aVerify ah aoff alen ch coff clen kh koff th toff) t = .next u ∧ u.status = ⟨false, true, .ok⟩)

/-- The evaluation of R162, one block at a time, is the polynomial in r mod 2^130 - 5; with no block it is 0, and then the tag is
the key's second half. -/
def Obligations.PolyEvalIsPolynomial : Prop :=
  (∀ (r : Nat) (ns : List Nat), polyEval r ns = polySum r ns % (2 ^ 130 - 5)) ∧
  (∀ key : List Byte, key.length = 32 → polyTag key [] = key.drop 16)

/-! ### The field unit (43_field_arith.md, 44_field_invert_codec.md) -/

/-- A carry step keeps the value exactly for i < 9, changes it by -c p for i = 9, and so every chain keeps it mod p (R210). -/
def Obligations.CarriesKeepTheValue : Prop :=
  (∀ (h k : Limbs Int) (i : LimbIdx), carry h i = some k → i ≠ 9 → k.val = h.val) ∧
  (∀ h k : Limbs Int, carry h 9 = some k → k.val = h.val - (h.l9 + 2 ^ 24) / 2 ^ 25 * (2 ^ 255 - 19)) ∧
  (∀ (h k : Limbs Int) (is : List LimbIdx), chain h is = some k → k.val ≡ h.val [ZMOD (2 ^ 255 - 19)])

/-- The pre-carry sums of two vectors stand for the product of the elements (R191, R198). -/
def Obligations.ProductSumsMultiply : Prop :=
  ∀ f g : Limbs Int, (Limbs.ofFun (productSum f g)).val ≡ f.val * g.val [ZMOD (2 ^ 255 - 19)]

/-- F_ADD and F_SUB complete where every limb's sum or difference is in the i32 range: each limb of FE[fd] is exactly it, the mark
is set, and nothing else but STATUS and PEND changes; the value is the exact sum or difference (R200, R201, R211). -/
def Obligations.AddAndSubAreLimbwise : Prop :=
  ∀ (s : State) (fd fa fb : FeIdx), (s.feReg fa).written = true → (s.feReg fb).written = true →
    ((∀ j, InI32 ((s.feInts fa).get j + (s.feInts fb).get j)) →
      ∃ v : Limbs Word, (∀ j, v.toInts.get j = (s.feInts fa).get j + (s.feInts fb).get j) ∧
        v.toInts.val = (s.feInts fa).val + (s.feInts fb).val ∧
        exec (.fAdd fd fa fb) s = .next { s with
          fe := s.fe.set fd.val ⟨v, true⟩ fd.isLt
          status := ⟨false, false, .ok⟩
          pend := none }) ∧
    ((∀ j, InI32 ((s.feInts fa).get j - (s.feInts fb).get j)) →
      ∃ v : Limbs Word, (∀ j, v.toInts.get j = (s.feInts fa).get j - (s.feInts fb).get j) ∧
        v.toInts.val = (s.feInts fa).val - (s.feInts fb).val ∧
        exec (.fSub fd fa fb) s = .next { s with
          fe := s.fe.set fd.val ⟨v, true⟩ fd.isLt
          status := ⟨false, false, .ok⟩
          pend := none })

/-- F_MUL and F_SQR of operands in B(3.3) complete without a fault: FE[fd] stands for the product or the square mod p, its limbs
are in B(1.1), and nothing else but STATUS and PEND changes (R203, R205); and for every operand, beyond those bounds too, for
which they do not fault, FE[fd] stands for the product or the square (R211, which the spec derives). The bounds are R196's,
which the spec calls informative: no check of the model rests on them. -/
def Obligations.MulAndSqrMultiply : Prop :=
  (∀ (s : State) (fd fa fb : FeIdx), (s.feReg fa).written = true → (s.feReg fb).written = true →
    (s.feInts fa).Within 33 10 → (s.feInts fb).Within 33 10 →
    (∃ v : Limbs Word, v.toInts.val ≡ (s.feInts fa).val * (s.feInts fb).val [ZMOD (2 ^ 255 - 19)] ∧
      v.toInts.Within 11 10 ∧
      exec (.fMul fd fa fb) s = .next { s with
        fe := s.fe.set fd.val ⟨v, true⟩ fd.isLt
        status := ⟨false, false, .ok⟩
        pend := none }) ∧
    (∃ v : Limbs Word, v.toInts.val ≡ (s.feInts fa).val * (s.feInts fa).val [ZMOD (2 ^ 255 - 19)] ∧
      v.toInts.Within 11 10 ∧
      exec (.fSqr fd fa) s = .next { s with
        fe := s.fe.set fd.val ⟨v, true⟩ fd.isLt
        status := ⟨false, false, .ok⟩
        pend := none })) ∧
  ∀ (s t : State) (fd fa fb : FeIdx), s.fault = [] → t.fault = [] →
    (exec (.fMul fd fa fb) s = .next t →
      (t.feInts fd).val ≡ (s.feInts fa).val * (s.feInts fb).val [ZMOD (2 ^ 255 - 19)]) ∧
    (exec (.fSqr fd fa) s = .next t →
      (t.feInts fd).val ≡ (s.feInts fa).val * (s.feInts fa).val [ZMOD (2 ^ 255 - 19)])

/-- F_SQR of a register and F_MUL of the register by itself leave the same state, so the same limbs, wherever neither faults
(R212, which the spec derives from R203 and R205). -/
def Obligations.SquareEqualsMultiply : Prop :=
  ∀ (s t u : State) (fd fa : FeIdx), s.fault = [] → exec (.fSqr fd fa) s = .next t → exec (.fMul fd fa fa) s = .next u →
    t.fault = [] → u.fault = [] → t.feReg fd = u.feReg fd ∧ t = u

/-- F_MUL121666 completes on every operand, under both carry orders: FE[fd] stands for 121666 times the element mod p, within
B(1.1) for an operand in B(2.2), and nothing else but STATUS and PEND changes (R207, R208, R211). That no width check fails on
any operand, although R207 and R271 name the fault, follows from the widths; the bounds are R196's, which the spec calls
informative. -/
def Obligations.Mul121666AlwaysCompletes : Prop :=
  ∀ (s : State) (fd fa : FeIdx), (s.feReg fa).written = true →
    ∃ v : Limbs Word, v.toInts.val ≡ 121666 * (s.feInts fa).val [ZMOD (2 ^ 255 - 19)] ∧
      ((s.feInts fa).Within 22 10 → v.toInts.Within 11 10) ∧
      exec (.fMul121666 fd fa) s = .next { s with
        fe := s.fe.set fd.val ⟨v, true⟩ fd.isLt
        status := ⟨false, false, .ok⟩
        pend := none }

/-- F_INV of an operand in B(3.3) completes without a fault: FE[fd] stands for the element to the power p - 2, its limbs are in
B(1.1), zero gives zero, and nothing else but STATUS and PEND changes (R231 to R233). The bounds are R196's, which the spec calls
informative. -/
def Obligations.InvRaisesToPMinusTwo : Prop :=
  ∀ (s : State) (fd fa : FeIdx), (s.feReg fa).written = true → (s.feInts fa).Within 33 10 →
    ∃ v : Limbs Word, v.toInts.val ≡ (s.feInts fa).val ^ (2 ^ 255 - 21) [ZMOD (2 ^ 255 - 19)] ∧
      v.toInts.Within 11 10 ∧
      ((s.feReg fa).limbs = Limbs.const 0#32 → v = Limbs.const 0#32) ∧
      exec (.fInv fd fa) s = .next { s with
        fe := s.fe.set fd.val ⟨v, true⟩ fd.isLt
        status := ⟨false, false, .ok⟩
        pend := none }

/-- Where F_INV does not fault, the result times the operand is 1 mod p, for every operand that does not stand for 0 (R234, which
the spec derives from R231 and Fermat's little theorem). -/
def Obligations.InverseTimesOperandIsOne : Prop :=
  ∀ (s t : State) (fd fa : FeIdx), s.fault = [] → exec (.fInv fd fa) s = .next t → t.fault = [] →
    ¬ (s.feInts fa).val ≡ 0 [ZMOD (2 ^ 255 - 19)] →
    (t.feInts fd).val * (s.feInts fa).val ≡ 1 [ZMOD (2 ^ 255 - 19)]

/-- F_CSWAP completes: with the flag clear both registers keep their limbs, with it set they are exchanged exactly, limb for limb,
for equal registers too, and nothing else but STATUS and PEND changes (R209, R213). -/
def Obligations.CswapSwapsExactlyWhenSet : Prop :=
  ∀ (s : State) (fa fb : FeIdx) (bit : BitVec 1), (s.feReg fa).written = true → (s.feReg fb).written = true →
    ∃ t : State, exec (.fCswap fa fb bit) s = .next t ∧
      t.feReg fa = (if bit = 1#1 then s.feReg fb else s.feReg fa) ∧
      t.feReg fb = (if bit = 1#1 then s.feReg fa else s.feReg fb) ∧
      (∀ j : FeIdx, j ≠ fa → j ≠ fb → t.feReg j = s.feReg j) ∧
      t = { s with fe := t.fe, status := ⟨false, false, .ok⟩, pend := none }

/-- F_DECODE completes on every 32 bytes, under both carry orders: FE[fd] stands for their little-endian value with bit 255
dropped, its limbs are in B(1.1), the mark is set, and nothing else but STATUS and PEND changes (R235 to R240). The bound is
R196's, which the spec calls informative. -/
def Obligations.DecodeLoadsTheValue : Prop :=
  ∀ (s : State) (fd : FeIdx) (sh soff : Word), ¬ s.RegionBad ⟨sh, soff, 32⟩ →
    ∃ v : Limbs Word,
      v.toInts.val ≡ ((leValue (s.memRead sh soff 32) % 2 ^ 255 : Nat) : Int) [ZMOD (2 ^ 255 - 19)] ∧
      v.toInts.Within 11 10 ∧
      exec (.fDecode fd sh soff) s = .next { s with
        fe := s.fe.set fd.val ⟨v, true⟩ fd.isLt
        status := ⟨false, false, .ok⟩
        pend := none }

/-- F_ENCODE of an operand in B(2.2) completes: the 32 bytes in the region are, little-endian, the canonical value in [0, p) of
the element, every byte outside reads as before, and nothing else but STATUS and PEND changes (R241 to R245). The bound is R243's
and R196's, which the spec calls informative. -/
def Obligations.EncodeStoresCanonicalValue : Prop :=
  ∀ (s : State) (fa : FeIdx) (dh doff : Word), ¬ s.RegionBad ⟨dh, doff, 32⟩ → (s.feReg fa).written = true →
    (s.feInts fa).Within 22 10 →
    ∃ t : State, exec (.fEncode fa dh doff) s = .next t ∧
      (leValue (t.memRead dh doff 32) : Int) = (s.feInts fa).val % (2 ^ 255 - 19) ∧
      UnchangedOutside s t ⟨dh, doff, 32⟩ ∧
      t = { s with buf := t.buf, status := ⟨false, false, .ok⟩, pend := none }

/-- F_DECODE and then F_ENCODE of the same register gives back a canonical string, and of any string the canonical form of its
value with bit 255 dropped (R246, R247). -/
def Obligations.EncodeAfterDecodeIsCanonical : Prop :=
  ∀ (s : State) (f : FeIdx) (sh soff dh doff : Word), ¬ s.RegionBad ⟨sh, soff, 32⟩ → ¬ s.RegionBad ⟨dh, doff, 32⟩ →
    ∃ t u : State, exec (.fDecode f sh soff) s = .next t ∧ exec (.fEncode f dh doff) t = .next u ∧
      leValue (u.memRead dh doff 32) = leValue (s.memRead sh soff 32) % 2 ^ 255 % (2 ^ 255 - 19) ∧
      (leValue (s.memRead sh soff 32) < 2 ^ 255 - 19 → u.memRead dh doff 32 = s.memRead sh soff 32)

/-- F_ENCODE and then F_DECODE of the bytes gives back the same element, for every register in B(2.2) (R248, which the spec
derives from R237 and R243). -/
def Obligations.DecodeAfterEncodeKeepsElement : Prop :=
  ∀ (s : State) (fa fd : FeIdx) (dh doff : Word), ¬ s.RegionBad ⟨dh, doff, 32⟩ → (s.feReg fa).written = true →
    (s.feInts fa).Within 22 10 →
    ∃ t u : State, exec (.fEncode fa dh doff) s = .next t ∧ exec (.fDecode fd dh doff) t = .next u ∧
      (u.feInts fd).val ≡ (s.feInts fa).val [ZMOD (2 ^ 255 - 19)]
end

