-- ==== Sys2Proof/Laws/Bytes.lean ====
section
/-! SUPPORT. The laws of little-endian byte strings (00_scope.md R14): lengths, ranges, and that the two directions are
inverse. -/

namespace Sys2Proof.Machine

@[simp] theorem leBytes_length (n v : Nat) : (leBytes n v).length = n := by
  induction n generalizing v with
  | zero => rfl
  | succ n ih => simp [leBytes, ih]

theorem leValue_lt (b : List Byte) : leValue b < 256 ^ b.length := by
  induction b with
  | nil => simp [leValue]
  | cons x xs ih =>
    have hx := x.isLt
    simp only [leValue, List.length_cons, Nat.pow_succ]
    omega

/-- `LE(LEbytes_n(v)) = v mod 2^(8n)`. -/
theorem leValue_leBytes (n v : Nat) : leValue (leBytes n v) = v % 256 ^ n := by
  induction n generalizing v with
  | zero => simp [leBytes, leValue, Nat.mod_one]
  | succ n ih =>
    have h2 : (2 : Nat) ^ 8 = 256 := rfl
    rw [leBytes, leValue, ih, BitVec.toNat_ofNat, h2, Nat.pow_succ, Nat.mul_comm (256 ^ n) 256, Nat.mod_mul]

/-- `LEbytes_n(LE(b)) = b` for a string of `n` bytes. -/
theorem leBytes_leValue (b : List Byte) : leBytes b.length (leValue b) = b := by
  induction b with
  | nil => rfl
  | cons x xs ih =>
    have hx := x.isLt
    have h1 : (x.toNat + 256 * leValue xs) / 256 = leValue xs := by omega
    simp only [List.length_cons, leBytes, leValue, h1, ih, List.cons.injEq, and_true]
    apply BitVec.eq_of_toNat_eq
    simp only [BitVec.toNat_ofNat]
    omega

/-- Byte strings of one length are equal exactly when their values are (40_value_types.md R113). -/
theorem leValue_injective {a b : List Byte} (hl : a.length = b.length) (h : leValue a = leValue b) : a = b := by
  rw [← leBytes_leValue a, ← leBytes_leValue b, hl, h]

theorem s32_bounds (w : Word) : -2147483648 ≤ s32 w ∧ s32 w < 2147483648 := by
  unfold s32
  exact ⟨by have := BitVec.le_toInt w; simpa using this, by have := BitVec.toInt_lt (x := w); simpa using this⟩

end Sys2Proof.Machine
end

