-- ==== Sys2Proof/Laws/Memory.lean ====
section
/-! SUPPORT. The laws of the buffer table: a read after a write, what a write leaves alone, and that every operation keeps the
canonical form. The read and write laws hold of every list, canonical or not. -/

namespace Sys2Proof.Machine

variable {α : Type}

/-! ### Keyed lists -/

theorem lookupKey_insertKey_self (l : List (Nat × α)) (x : Nat) (v : α) :
    lookupKey (insertKey l x v) x = some v := by
  induction l with
  | nil => simp [insertKey, lookupKey]
  | cons e rest ih =>
    simp only [insertKey]
    split
    · simp [lookupKey]
    · split
      · simp_all [lookupKey]
      · simp_all [lookupKey]

theorem lookupKey_insertKey_other (l : List (Nat × α)) {x y : Nat} (v : α) (h : y ≠ x) :
    lookupKey (insertKey l x v) y = lookupKey l y := by
  induction l with
  | nil => simp [insertKey, lookupKey, h]
  | cons e rest ih =>
    simp only [insertKey]
    split
    · simp [lookupKey, h]
    · split
      · simp_all [lookupKey]
      · simp_all [lookupKey]

theorem lookupKey_eraseKey_self (l : List (Nat × α)) (x : Nat) : lookupKey (eraseKey l x) x = none := by
  induction l with
  | nil => rfl
  | cons e rest ih =>
    simp only [eraseKey]
    split
    · exact ih
    · simp_all [lookupKey]

theorem lookupKey_eraseKey_other (l : List (Nat × α)) {x y : Nat} (h : y ≠ x) :
    lookupKey (eraseKey l x) y = lookupKey l y := by
  induction l with
  | nil => rfl
  | cons e rest ih =>
    simp only [eraseKey]
    split <;> simp_all [lookupKey]

theorem mem_of_lookupKey {l : List (Nat × α)} {x : Nat} {a : α} (h : lookupKey l x = some a) : (x, a) ∈ l := by
  induction l with
  | nil => simp [lookupKey] at h
  | cons e rest ih =>
    simp only [lookupKey] at h
    split at h
    · rename_i hx
      subst hx
      cases h
      exact List.mem_cons_self
    · exact List.mem_cons_of_mem _ (ih h)

theorem mem_insertKey {l : List (Nat × α)} {x : Nat} {v : α} {e : Nat × α} (h : e ∈ insertKey l x v) :
    e = (x, v) ∨ e ∈ l := by
  induction l with
  | nil => simpa [insertKey] using h
  | cons d rest ih =>
    simp only [insertKey] at h
    split at h
    · simpa using h
    · split at h
      · rename_i _ hx
        subst hx
        rcases List.mem_cons.1 h with h | h
        · exact .inl h
        · exact .inr (List.mem_cons_of_mem _ h)
      · rcases List.mem_cons.1 h with h | h
        · exact .inr (h ▸ List.mem_cons_self)
        · exact (ih h).imp_right (List.mem_cons_of_mem _)

theorem mem_eraseKey {l : List (Nat × α)} {x : Nat} {e : Nat × α} (h : e ∈ eraseKey l x) : e ∈ l := by
  induction l with
  | nil => simp [eraseKey] at h
  | cons d rest ih =>
    simp only [eraseKey] at h
    split at h
    · exact List.mem_cons_of_mem _ (ih h)
    · rcases List.mem_cons.1 h with h | h
      · exact h ▸ List.mem_cons_self
      · exact List.mem_cons_of_mem _ (ih h)

theorem risingFrom_mono {l : List (Nat × α)} {lo lo' : Nat} (hle : lo' ≤ lo) (h : risingFrom lo l = true) :
    risingFrom lo' l = true := by
  cases l with
  | nil => rfl
  | cons e rest =>
    simp only [risingFrom, Bool.and_eq_true, decide_eq_true_eq] at h ⊢
    exact ⟨by omega, h.2⟩

theorem risingFrom_insertKey {l : List (Nat × α)} {lo x : Nat} (v : α) (hx : lo ≤ x) (h : risingFrom lo l = true) :
    risingFrom lo (insertKey l x v) = true := by
  induction l generalizing lo with
  | nil => simp [insertKey, risingFrom, hx]
  | cons e rest ih =>
    simp only [risingFrom, Bool.and_eq_true, decide_eq_true_eq] at h
    simp only [insertKey]
    split
    · rename_i hlt
      simp only [risingFrom, Bool.and_eq_true, decide_eq_true_eq]
      exact ⟨hx, by omega, h.2⟩
    · split
      · simpa only [risingFrom, Bool.and_eq_true, decide_eq_true_eq] using h
      · simp only [risingFrom, Bool.and_eq_true, decide_eq_true_eq]
        exact ⟨h.1, ih (by omega) h.2⟩

theorem risingFrom_eraseKey {l : List (Nat × α)} {lo : Nat} (x : Nat) (h : risingFrom lo l = true) :
    risingFrom lo (eraseKey l x) = true := by
  induction l generalizing lo with
  | nil => rfl
  | cons e rest ih =>
    simp only [risingFrom, Bool.and_eq_true, decide_eq_true_eq] at h
    simp only [eraseKey]
    split
    · exact ih (risingFrom_mono (by omega) h.2)
    · simp only [risingFrom, Bool.and_eq_true, decide_eq_true_eq]
      exact ⟨h.1, ih h.2⟩

/-! ### One buffer -/

@[simp] theorem Buffer.setByte_len (b : Buffer) (a : Nat) (v : Byte) : (b.setByte a v).len = b.len := by
  unfold Buffer.setByte; split <;> rfl

@[simp] theorem Buffer.write_len (b : Buffer) (a : Nat) (vs : List Byte) : (b.write a vs).len = b.len := by
  induction vs generalizing b a with
  | nil => rfl
  | cons v vs ih => simp [Buffer.write, ih]

theorem Buffer.byte_setByte_self (b : Buffer) {a : Nat} (v : Byte) (h : a < b.len) : (b.setByte a v).byte a = v := by
  simp only [Buffer.setByte, h, if_true, Buffer.byte]
  split
  · simp_all [lookupKey_eraseKey_self]
  · simp [lookupKey_insertKey_self]

theorem Buffer.byte_setByte_other (b : Buffer) {a x : Nat} (v : Byte) (h : x ≠ a) :
    (b.setByte a v).byte x = b.byte x := by
  simp only [Buffer.setByte, Buffer.byte]
  split
  · dsimp only
    split
    · rw [lookupKey_eraseKey_other _ h]
    · rw [lookupKey_insertKey_other _ _ h]
  · rfl

/-- What a write of a byte string does to each byte of the buffer. -/
theorem Buffer.byte_write (b : Buffer) (a : Nat) (vs : List Byte) (x : Nat) (hfit : a + vs.length ≤ b.len) :
    (b.write a vs).byte x = if h : a ≤ x ∧ x - a < vs.length then vs[x - a]'h.2 else b.byte x := by
  induction vs generalizing b a with
  | nil => simp [Buffer.write]
  | cons v vs ih =>
    simp only [List.length_cons] at hfit ⊢
    rw [Buffer.write, ih _ _ (by rw [Buffer.setByte_len]; omega)]
    by_cases hxa : x = a
    · subst hxa
      rw [dif_neg (by omega), dif_pos (by omega), Buffer.byte_setByte_self b v (by omega)]
      simp
    · rw [Buffer.byte_setByte_other b v hxa]
      by_cases hin : a + 1 ≤ x ∧ x - (a + 1) < vs.length
      · have e : x - a = (x - (a + 1)) + 1 := by omega
        rw [dif_pos hin, dif_pos (by omega)]
        simp [e]
      · rw [dif_neg hin, dif_neg (by omega)]

/-- A read of the bytes just written gives them. -/
theorem Buffer.read_write (b : Buffer) (a : Nat) (vs : List Byte) (hfit : a + vs.length ≤ b.len) :
    (b.write a vs).read a vs.length = vs := by
  apply List.ext_getElem
  · simp [Buffer.read]
  · intro i h1 h2
    simp only [Buffer.read, List.getElem_map, List.getElem_range]
    rw [Buffer.byte_write b a vs _ hfit, dif_pos (by omega)]
    simp

@[simp] theorem Buffer.read_length (b : Buffer) (a n : Nat) : (b.read a n).length = n := by simp [Buffer.read]

/-! ### The table -/

theorem Memory.slot_put_self (m : Memory) (h : Nat) (b : Buffer) : (m.put h b).slot h = some b :=
  lookupKey_insertKey_self m h b

theorem Memory.slot_put_other (m : Memory) {h x : Nat} (b : Buffer) (hx : x ≠ h) : (m.put h b).slot x = m.slot x :=
  lookupKey_insertKey_other m b hx

theorem Memory.slot_drop_self (m : Memory) (h : Nat) : (m.drop h).slot h = none := lookupKey_eraseKey_self m h

theorem Memory.slot_drop_other (m : Memory) {h x : Nat} (hx : x ≠ h) : (m.drop h).slot x = m.slot x :=
  lookupKey_eraseKey_other m hx

/-- What a write does to each slot: the named one is written, where it is present, and no other changes. -/
theorem Memory.slot_write (m : Memory) (h off : Nat) (v : List Byte) (x : Nat) :
    (m.write h off v).slot x = if x = h then (m.slot h).map (fun b => b.write off v) else m.slot x := by
  unfold Memory.write
  split
  · rename_i hn
    split
    · simp_all
    · rfl
  · rename_i b hb
    split
    · simp_all [Memory.slot_put_self]
    · rename_i hx
      exact Memory.slot_put_other m _ hx

/-- A write changes no buffer's length or presence (R60). -/
theorem Memory.lenAt_write (m : Memory) (h off : Nat) (v : List Byte) (x : Nat) :
    (m.write h off v).lenAt x = m.lenAt x := by
  simp only [Memory.lenAt, Memory.slot_write]
  by_cases hx : x = h
  · subst hx
    cases hs : m.slot x <;> simp
  · simp [hx]

/-- A read of the bytes just written gives them. -/
theorem Memory.read_write (m : Memory) {h off : Nat} {b : Buffer} (v : List Byte) (hb : m.slot h = some b)
    (hfit : off + v.length ≤ b.len) : (m.write h off v).read h off v.length = v := by
  have hs : (m.write h off v).slot h = some (b.write off v) := by simp [Memory.slot_write, hb]
  simp only [Memory.read, hs]
  exact Buffer.read_write b off v hfit

/-- A byte that a write does not cover reads as before. -/
theorem Memory.byteAt_write_other (m : Memory) {h off : Nat} {b : Buffer} (v : List Byte) (hb : m.slot h = some b)
    (hfit : off + v.length ≤ b.len) {x a : Nat} (hout : ¬ (x = h ∧ off ≤ a ∧ a < off + v.length)) :
    (m.write h off v).byteAt x a = m.byteAt x a := by
  simp only [Memory.byteAt, Memory.slot_write]
  by_cases hx : x = h
  · subst hx
    simp only [if_true, hb, Option.map_some, Buffer.write_len]
    rw [Buffer.byte_write b off v a hfit, dif_neg (by omega)]
  · simp only [hx, if_false]

/-- A read of bytes that a write does not cover gives what it gave before. -/
theorem Memory.read_write_other (m : Memory) {h off : Nat} {b : Buffer} (v : List Byte) (hb : m.slot h = some b)
    (hfit : off + v.length ≤ b.len) {x a n : Nat} (hout : x ≠ h ∨ a + n ≤ off ∨ off + v.length ≤ a) :
    (m.write h off v).read x a n = m.read x a n := by
  simp only [Memory.read, Memory.slot_write]
  by_cases hx : x = h
  · subst hx
    simp only [if_true, hb, Option.map_some, Buffer.read]
    apply List.map_congr_left
    intro i hi
    have := List.mem_range.1 hi
    rw [Buffer.byte_write b off v _ hfit, dif_neg (by omega)]
  · simp only [hx, if_false]

/-! ### The canonical form -/

theorem Buffer.wf_iff (b : Buffer) :
    b.wf = true ↔ b.len ≤ maxBufferLen ∧ risingFrom 0 b.cells = true ∧ ∀ c ∈ b.cells, c.1 < b.len ∧ c.2 ≠ 0#8 := by
  simp [Buffer.wf, and_assoc]

theorem Memory.wf_iff (m : Memory) : m.wf = true ↔ risingFrom 0 m = true ∧ ∀ e ∈ m, e.2.wf = true := by
  simp [Memory.wf]

theorem Buffer.zeros_wf {n : Nat} (h : n ≤ maxBufferLen) : (Buffer.zeros n).wf = true := by
  rw [Buffer.wf_iff]
  exact ⟨h, rfl, by simp [Buffer.zeros]⟩

theorem Buffer.setByte_wf {b : Buffer} (h : b.wf = true) (a : Nat) (v : Byte) : (b.setByte a v).wf = true := by
  rw [Buffer.wf_iff] at h
  obtain ⟨hlen, hrise, hcells⟩ := h
  unfold Buffer.setByte
  split
  · rename_i ha
    rw [Buffer.wf_iff]
    refine ⟨hlen, ?_, ?_⟩
    · dsimp only
      split
      · exact risingFrom_eraseKey a hrise
      · exact risingFrom_insertKey v (Nat.zero_le a) hrise
    · dsimp only
      intro c hc
      split at hc
      · exact hcells c (mem_eraseKey hc)
      · rename_i hv
        rcases mem_insertKey hc with rfl | hc
        · exact ⟨ha, hv⟩
        · exact hcells c hc
  · exact (Buffer.wf_iff b).2 ⟨hlen, hrise, hcells⟩

theorem Buffer.write_wf {b : Buffer} (h : b.wf = true) (a : Nat) (vs : List Byte) : (b.write a vs).wf = true := by
  induction vs generalizing b a with
  | nil => exact h
  | cons v vs ih => exact ih (Buffer.setByte_wf h a v) (a + 1)

theorem Memory.put_wf {m : Memory} (h : m.wf = true) (x : Nat) {b : Buffer} (hb : b.wf = true) :
    (m.put x b).wf = true := by
  rw [Memory.wf_iff] at h ⊢
  refine ⟨risingFrom_insertKey b (Nat.zero_le x) h.1, ?_⟩
  intro e he
  rcases mem_insertKey he with rfl | he
  · exact hb
  · exact h.2 e he

theorem Memory.drop_wf {m : Memory} (h : m.wf = true) (x : Nat) : (m.drop x).wf = true := by
  rw [Memory.wf_iff] at h ⊢
  exact ⟨risingFrom_eraseKey x h.1, fun e he => h.2 e (mem_eraseKey he)⟩

theorem Memory.write_wf {m : Memory} (h : m.wf = true) (x off : Nat) (v : List Byte) : (m.write x off v).wf = true := by
  unfold Memory.write
  split
  · exact h
  · rename_i b hb
    exact Memory.put_wf h x (Buffer.write_wf ((Memory.wf_iff m).1 h |>.2 _ (mem_of_lookupKey hb)) off v)

/-- A write adds no slot. -/
theorem Memory.write_handles {m : Memory} {x off : Nat} {v : List Byte} {e : Nat × Buffer} (he : e ∈ m.write x off v) :
    ∃ d ∈ m, d.1 = e.1 := by
  unfold Memory.write at he
  split at he
  · exact ⟨e, he, rfl⟩
  · rename_i b hb
    rcases mem_insertKey he with rfl | he
    · exact ⟨_, mem_of_lookupKey hb, rfl⟩
    · exact ⟨e, he, rfl⟩

/-- The table after reset is canonical. -/
theorem reset_memory_wf : State.reset.buf.wf = true := rfl

end Sys2Proof.Machine
end

