-- ==== Sys2Proof/Laws/State.lean ====
section
/-! SUPPORT. What each named update of the state does to each field: one lemma per field per update, so that no proof unfolds
a record update. -/

namespace Sys2Proof.Machine

variable (s : State)

/-! ### `State.complete` -/

@[simp] theorem State.complete_params (r : Bool) : (s.complete r).params = s.params := rfl
@[simp] theorem State.complete_fe (r : Bool) : (s.complete r).fe = s.fe := rfl
@[simp] theorem State.complete_key (r : Bool) : (s.complete r).key = s.key := rfl
@[simp] theorem State.complete_ctr (r : Bool) : (s.complete r).ctr = s.ctr := rfl
@[simp] theorem State.complete_status (r : Bool) : (s.complete r).status = s.status.succeeded r := rfl
@[simp] theorem State.complete_pend (r : Bool) : (s.complete r).pend = none := rfl
@[simp] theorem State.complete_buf (r : Bool) : (s.complete r).buf = s.buf := rfl
@[simp] theorem State.complete_work (r : Bool) : (s.complete r).work = s.work := rfl
@[simp] theorem State.complete_blk (r : Bool) : (s.complete r).blk = s.blk := rfl
@[simp] theorem State.complete_fault (r : Bool) : (s.complete r).fault = s.fault := rfl
@[simp] theorem State.complete_refused (r : Bool) : (s.complete r).refused = s.refused := rfl
@[simp] theorem State.complete_agenda (r : Bool) : (s.complete r).agenda = s.agenda := rfl
@[simp] theorem State.complete_reply (r : Bool) : (s.complete r).reply = s.reply := rfl
@[simp] theorem State.complete_fresh (r : Bool) : (s.complete r).fresh = s.fresh := rfl

/-! ### `State.raiseError` -/

@[simp] theorem State.raiseError_params (e : Err) : (s.raiseError e).params = s.params := rfl
@[simp] theorem State.raiseError_fe (e : Err) : (s.raiseError e).fe = s.fe := rfl
@[simp] theorem State.raiseError_key (e : Err) : (s.raiseError e).key = s.key := rfl
@[simp] theorem State.raiseError_ctr (e : Err) : (s.raiseError e).ctr = s.ctr := rfl
@[simp] theorem State.raiseError_status (e : Err) : (s.raiseError e).status = s.status.failed e := rfl
@[simp] theorem State.raiseError_pend (e : Err) : (s.raiseError e).pend = none := rfl
@[simp] theorem State.raiseError_buf (e : Err) : (s.raiseError e).buf = s.buf := rfl
@[simp] theorem State.raiseError_work (e : Err) : (s.raiseError e).work = s.work := rfl
@[simp] theorem State.raiseError_blk (e : Err) : (s.raiseError e).blk = s.blk := rfl
@[simp] theorem State.raiseError_fault (e : Err) : (s.raiseError e).fault = s.fault := rfl
@[simp] theorem State.raiseError_refused (e : Err) : (s.raiseError e).refused = s.refused := rfl
@[simp] theorem State.raiseError_agenda (e : Err) : (s.raiseError e).agenda = s.agenda := rfl
@[simp] theorem State.raiseError_reply (e : Err) : (s.raiseError e).reply = s.reply := rfl
@[simp] theorem State.raiseError_fresh (e : Err) : (s.raiseError e).fresh = s.fresh := rfl

/-! ### `State.addFault` -/

@[simp] theorem State.addFault_params (f : Fault) : (s.addFault f).params = s.params := rfl
@[simp] theorem State.addFault_fe (f : Fault) : (s.addFault f).fe = s.fe := rfl
@[simp] theorem State.addFault_key (f : Fault) : (s.addFault f).key = s.key := rfl
@[simp] theorem State.addFault_ctr (f : Fault) : (s.addFault f).ctr = s.ctr := rfl
@[simp] theorem State.addFault_status (f : Fault) : (s.addFault f).status = s.status := rfl
@[simp] theorem State.addFault_pend (f : Fault) : (s.addFault f).pend = s.pend := rfl
@[simp] theorem State.addFault_buf (f : Fault) : (s.addFault f).buf = s.buf := rfl
@[simp] theorem State.addFault_work (f : Fault) : (s.addFault f).work = s.work := rfl
@[simp] theorem State.addFault_blk (f : Fault) : (s.addFault f).blk = s.blk := rfl
@[simp] theorem State.addFault_fault (f : Fault) : (s.addFault f).fault = if f ∈ s.fault then s.fault else s.fault ++ [f] := rfl
@[simp] theorem State.addFault_refused (f : Fault) : (s.addFault f).refused = s.refused := rfl
@[simp] theorem State.addFault_agenda (f : Fault) : (s.addFault f).agenda = s.agenda := rfl
@[simp] theorem State.addFault_reply (f : Fault) : (s.addFault f).reply = s.reply := rfl
@[simp] theorem State.addFault_fresh (f : Fault) : (s.addFault f).fresh = s.fresh := rfl

/-! ### `State.refuse` -/

@[simp] theorem State.refuse_params : (s.refuse).params = s.params := rfl
@[simp] theorem State.refuse_fe : (s.refuse).fe = s.fe := rfl
@[simp] theorem State.refuse_key : (s.refuse).key = s.key := rfl
@[simp] theorem State.refuse_ctr : (s.refuse).ctr = s.ctr := rfl
@[simp] theorem State.refuse_status : (s.refuse).status = s.status := rfl
@[simp] theorem State.refuse_pend : (s.refuse).pend = s.pend := rfl
@[simp] theorem State.refuse_buf : (s.refuse).buf = s.buf := rfl
@[simp] theorem State.refuse_work : (s.refuse).work = s.work := rfl
@[simp] theorem State.refuse_blk : (s.refuse).blk = s.blk := rfl
@[simp] theorem State.refuse_fault : (s.refuse).fault = s.fault := rfl
@[simp] theorem State.refuse_refused : (s.refuse).refused = true := rfl
@[simp] theorem State.refuse_agenda : (s.refuse).agenda = s.agenda := rfl
@[simp] theorem State.refuse_reply : (s.refuse).reply = s.reply := rfl
@[simp] theorem State.refuse_fresh : (s.refuse).fresh = s.fresh := rfl

/-! ### `State.writeFe` -/

@[simp] theorem State.writeFe_params (i : FeIdx) (v : Limbs Word) : (s.writeFe i v).params = s.params := rfl
@[simp] theorem State.writeFe_fe (i : FeIdx) (v : Limbs Word) : (s.writeFe i v).fe = s.fe.set i.val ⟨v, true⟩ i.isLt := rfl
@[simp] theorem State.writeFe_key (i : FeIdx) (v : Limbs Word) : (s.writeFe i v).key = s.key := rfl
@[simp] theorem State.writeFe_ctr (i : FeIdx) (v : Limbs Word) : (s.writeFe i v).ctr = s.ctr := rfl
@[simp] theorem State.writeFe_status (i : FeIdx) (v : Limbs Word) : (s.writeFe i v).status = s.status := rfl
@[simp] theorem State.writeFe_pend (i : FeIdx) (v : Limbs Word) : (s.writeFe i v).pend = s.pend := rfl
@[simp] theorem State.writeFe_buf (i : FeIdx) (v : Limbs Word) : (s.writeFe i v).buf = s.buf := rfl
@[simp] theorem State.writeFe_work (i : FeIdx) (v : Limbs Word) : (s.writeFe i v).work = s.work := rfl
@[simp] theorem State.writeFe_blk (i : FeIdx) (v : Limbs Word) : (s.writeFe i v).blk = s.blk := rfl
@[simp] theorem State.writeFe_fault (i : FeIdx) (v : Limbs Word) : (s.writeFe i v).fault = s.fault := rfl
@[simp] theorem State.writeFe_refused (i : FeIdx) (v : Limbs Word) : (s.writeFe i v).refused = s.refused := rfl
@[simp] theorem State.writeFe_agenda (i : FeIdx) (v : Limbs Word) : (s.writeFe i v).agenda = s.agenda := rfl
@[simp] theorem State.writeFe_reply (i : FeIdx) (v : Limbs Word) : (s.writeFe i v).reply = s.reply := rfl
@[simp] theorem State.writeFe_fresh (i : FeIdx) (v : Limbs Word) : (s.writeFe i v).fresh = s.fresh := rfl

/-! ### `State.writeKey` -/

@[simp] theorem State.writeKey_params (v : Vector Word 8) : (s.writeKey v).params = s.params := rfl
@[simp] theorem State.writeKey_fe (v : Vector Word 8) : (s.writeKey v).fe = s.fe := rfl
@[simp] theorem State.writeKey_key (v : Vector Word 8) : (s.writeKey v).key = ⟨v, true⟩ := rfl
@[simp] theorem State.writeKey_ctr (v : Vector Word 8) : (s.writeKey v).ctr = s.ctr := rfl
@[simp] theorem State.writeKey_status (v : Vector Word 8) : (s.writeKey v).status = s.status := rfl
@[simp] theorem State.writeKey_pend (v : Vector Word 8) : (s.writeKey v).pend = s.pend := rfl
@[simp] theorem State.writeKey_buf (v : Vector Word 8) : (s.writeKey v).buf = s.buf := rfl
@[simp] theorem State.writeKey_work (v : Vector Word 8) : (s.writeKey v).work = s.work := rfl
@[simp] theorem State.writeKey_blk (v : Vector Word 8) : (s.writeKey v).blk = s.blk := rfl
@[simp] theorem State.writeKey_fault (v : Vector Word 8) : (s.writeKey v).fault = s.fault := rfl
@[simp] theorem State.writeKey_refused (v : Vector Word 8) : (s.writeKey v).refused = s.refused := rfl
@[simp] theorem State.writeKey_agenda (v : Vector Word 8) : (s.writeKey v).agenda = s.agenda := rfl
@[simp] theorem State.writeKey_reply (v : Vector Word 8) : (s.writeKey v).reply = s.reply := rfl
@[simp] theorem State.writeKey_fresh (v : Vector Word 8) : (s.writeKey v).fresh = s.fresh := rfl

/-! ### `State.writeCtr` -/

@[simp] theorem State.writeCtr_params (v : Word) : (s.writeCtr v).params = s.params := rfl
@[simp] theorem State.writeCtr_fe (v : Word) : (s.writeCtr v).fe = s.fe := rfl
@[simp] theorem State.writeCtr_key (v : Word) : (s.writeCtr v).key = s.key := rfl
@[simp] theorem State.writeCtr_ctr (v : Word) : (s.writeCtr v).ctr = ⟨v, true⟩ := rfl
@[simp] theorem State.writeCtr_status (v : Word) : (s.writeCtr v).status = s.status := rfl
@[simp] theorem State.writeCtr_pend (v : Word) : (s.writeCtr v).pend = s.pend := rfl
@[simp] theorem State.writeCtr_buf (v : Word) : (s.writeCtr v).buf = s.buf := rfl
@[simp] theorem State.writeCtr_work (v : Word) : (s.writeCtr v).work = s.work := rfl
@[simp] theorem State.writeCtr_blk (v : Word) : (s.writeCtr v).blk = s.blk := rfl
@[simp] theorem State.writeCtr_fault (v : Word) : (s.writeCtr v).fault = s.fault := rfl
@[simp] theorem State.writeCtr_refused (v : Word) : (s.writeCtr v).refused = s.refused := rfl
@[simp] theorem State.writeCtr_agenda (v : Word) : (s.writeCtr v).agenda = s.agenda := rfl
@[simp] theorem State.writeCtr_reply (v : Word) : (s.writeCtr v).reply = s.reply := rfl
@[simp] theorem State.writeCtr_fresh (v : Word) : (s.writeCtr v).fresh = s.fresh := rfl

/-! ### `State.memWrite` -/

@[simp] theorem State.memWrite_params (h off : Word) (v : List Byte) : (s.memWrite h off v).params = s.params := rfl
@[simp] theorem State.memWrite_fe (h off : Word) (v : List Byte) : (s.memWrite h off v).fe = s.fe := rfl
@[simp] theorem State.memWrite_key (h off : Word) (v : List Byte) : (s.memWrite h off v).key = s.key := rfl
@[simp] theorem State.memWrite_ctr (h off : Word) (v : List Byte) : (s.memWrite h off v).ctr = s.ctr := rfl
@[simp] theorem State.memWrite_status (h off : Word) (v : List Byte) : (s.memWrite h off v).status = s.status := rfl
@[simp] theorem State.memWrite_pend (h off : Word) (v : List Byte) : (s.memWrite h off v).pend = s.pend := rfl
@[simp] theorem State.memWrite_buf (h off : Word) (v : List Byte) : (s.memWrite h off v).buf = s.buf.write h.toNat (s32 off).toNat v := rfl
@[simp] theorem State.memWrite_work (h off : Word) (v : List Byte) : (s.memWrite h off v).work = s.work := rfl
@[simp] theorem State.memWrite_blk (h off : Word) (v : List Byte) : (s.memWrite h off v).blk = s.blk := rfl
@[simp] theorem State.memWrite_fault (h off : Word) (v : List Byte) : (s.memWrite h off v).fault = s.fault := rfl
@[simp] theorem State.memWrite_refused (h off : Word) (v : List Byte) : (s.memWrite h off v).refused = s.refused := rfl
@[simp] theorem State.memWrite_agenda (h off : Word) (v : List Byte) : (s.memWrite h off v).agenda = s.agenda := rfl
@[simp] theorem State.memWrite_reply (h off : Word) (v : List Byte) : (s.memWrite h off v).reply = s.reply := rfl
@[simp] theorem State.memWrite_fresh (h off : Word) (v : List Byte) : (s.memWrite h off v).fresh = s.fresh := rfl

/-! ### `State.scrambleScratch` -/

@[simp] theorem State.scrambleScratch_params : (s.scrambleScratch).params = s.params := rfl
@[simp] theorem State.scrambleScratch_fe : (s.scrambleScratch).fe = s.fe := rfl
@[simp] theorem State.scrambleScratch_key : (s.scrambleScratch).key = s.key := rfl
@[simp] theorem State.scrambleScratch_ctr : (s.scrambleScratch).ctr = s.ctr := rfl
@[simp] theorem State.scrambleScratch_status : (s.scrambleScratch).status = s.status := rfl
@[simp] theorem State.scrambleScratch_pend : (s.scrambleScratch).pend = s.pend := rfl
@[simp] theorem State.scrambleScratch_buf : (s.scrambleScratch).buf = s.buf := rfl
@[simp] theorem State.scrambleScratch_work : (s.scrambleScratch).work = Config.freeWork s.fresh := rfl
@[simp] theorem State.scrambleScratch_blk : (s.scrambleScratch).blk = Config.freeBlk s.fresh := rfl
@[simp] theorem State.scrambleScratch_fault : (s.scrambleScratch).fault = s.fault := rfl
@[simp] theorem State.scrambleScratch_refused : (s.scrambleScratch).refused = s.refused := rfl
@[simp] theorem State.scrambleScratch_agenda : (s.scrambleScratch).agenda = s.agenda := rfl
@[simp] theorem State.scrambleScratch_reply : (s.scrambleScratch).reply = s.reply := rfl
@[simp] theorem State.scrambleScratch_fresh : (s.scrambleScratch).fresh = s.fresh + 1 := rfl

/-! ### `State.answer` -/

@[simp] theorem State.answer_params (r : HostReply) : (s.answer r).params = s.params := rfl
@[simp] theorem State.answer_fe (r : HostReply) : (s.answer r).fe = s.fe := rfl
@[simp] theorem State.answer_key (r : HostReply) : (s.answer r).key = s.key := rfl
@[simp] theorem State.answer_ctr (r : HostReply) : (s.answer r).ctr = s.ctr := rfl
@[simp] theorem State.answer_status (r : HostReply) : (s.answer r).status = s.status := rfl
@[simp] theorem State.answer_pend (r : HostReply) : (s.answer r).pend = s.pend := rfl
@[simp] theorem State.answer_buf (r : HostReply) : (s.answer r).buf = s.buf := rfl
@[simp] theorem State.answer_work (r : HostReply) : (s.answer r).work = s.work := rfl
@[simp] theorem State.answer_blk (r : HostReply) : (s.answer r).blk = s.blk := rfl
@[simp] theorem State.answer_fault (r : HostReply) : (s.answer r).fault = s.fault := rfl
@[simp] theorem State.answer_refused (r : HostReply) : (s.answer r).refused = s.refused := rfl
@[simp] theorem State.answer_agenda (r : HostReply) : (s.answer r).agenda = s.agenda := rfl
@[simp] theorem State.answer_reply (r : HostReply) : (s.answer r).reply = r := rfl
@[simp] theorem State.answer_fresh (r : HostReply) : (s.answer r).fresh = s.fresh := rfl

/-! ### `State.advanceCtr` -/

@[simp] theorem State.advanceCtr_params (c : Word) (n : Nat) : (s.advanceCtr c n).params = s.params := by
  unfold State.advanceCtr; split <;> rfl
@[simp] theorem State.advanceCtr_fe (c : Word) (n : Nat) : (s.advanceCtr c n).fe = s.fe := by
  unfold State.advanceCtr; split <;> rfl
@[simp] theorem State.advanceCtr_key (c : Word) (n : Nat) : (s.advanceCtr c n).key = s.key := by
  unfold State.advanceCtr; split <;> rfl
@[simp] theorem State.advanceCtr_ctr (c : Word) (n : Nat) : (s.advanceCtr c n).ctr =
    if s.params.counterWriteback then ⟨c + BitVec.ofNat 32 (blockCount n), true⟩ else s.ctr := by
  unfold State.advanceCtr; split <;> rfl
@[simp] theorem State.advanceCtr_status (c : Word) (n : Nat) : (s.advanceCtr c n).status = s.status := by
  unfold State.advanceCtr; split <;> rfl
@[simp] theorem State.advanceCtr_pend (c : Word) (n : Nat) : (s.advanceCtr c n).pend = s.pend := by
  unfold State.advanceCtr; split <;> rfl
@[simp] theorem State.advanceCtr_buf (c : Word) (n : Nat) : (s.advanceCtr c n).buf = s.buf := by
  unfold State.advanceCtr; split <;> rfl
@[simp] theorem State.advanceCtr_work (c : Word) (n : Nat) : (s.advanceCtr c n).work = s.work := by
  unfold State.advanceCtr; split <;> rfl
@[simp] theorem State.advanceCtr_blk (c : Word) (n : Nat) : (s.advanceCtr c n).blk = s.blk := by
  unfold State.advanceCtr; split <;> rfl
@[simp] theorem State.advanceCtr_fault (c : Word) (n : Nat) : (s.advanceCtr c n).fault = s.fault := by
  unfold State.advanceCtr; split <;> rfl
@[simp] theorem State.advanceCtr_refused (c : Word) (n : Nat) : (s.advanceCtr c n).refused = s.refused := by
  unfold State.advanceCtr; split <;> rfl
@[simp] theorem State.advanceCtr_agenda (c : Word) (n : Nat) : (s.advanceCtr c n).agenda = s.agenda := by
  unfold State.advanceCtr; split <;> rfl
@[simp] theorem State.advanceCtr_reply (c : Word) (n : Nat) : (s.advanceCtr c n).reply = s.reply := by
  unfold State.advanceCtr; split <;> rfl
@[simp] theorem State.advanceCtr_fresh (c : Word) (n : Nat) : (s.advanceCtr c n).fresh = s.fresh := by
  unfold State.advanceCtr; split <;> rfl

/-! ### Registers -/

theorem State.feReg_writeFe (i j : FeIdx) (v : Limbs Word) :
    (s.writeFe i v).feReg j = if j = i then ⟨v, true⟩ else s.feReg j := by
  simp only [State.feReg, State.writeFe_fe, Vector.getElem_set, Fin.ext_iff, eq_comm]

@[simp] theorem State.feReg_writeFe_self (i : FeIdx) (v : Limbs Word) : (s.writeFe i v).feReg i = ⟨v, true⟩ := by
  simp [State.feReg_writeFe]

theorem State.feReg_writeFe_other {i j : FeIdx} (h : j ≠ i) (v : Limbs Word) :
    (s.writeFe i v).feReg j = s.feReg j := by
  simp [State.feReg_writeFe, h]

/-- A state whose `fe` is another's has its registers. -/
theorem State.feReg_congr {s t : State} (h : t.fe = s.fe) (j : FeIdx) : t.feReg j = s.feReg j := by
  simp only [State.feReg, h]

/-- Every register of a fresh instance is unmarked (R45). -/
@[simp] theorem State.resetWith_feReg (p : Params) (j : FeIdx) :
    (State.resetWith p).feReg j = ⟨Limbs.const 0#32, false⟩ := by
  simp [State.feReg, State.resetWith]

end Sys2Proof.Machine
end

