-- ==== Sys2Proof/Laws/Ops.lean ====
section
/-! SUPPORT. What each shared operation can do, said once: how a command ends, the reads of registers, the region checks, and
the read and write of a checked region. -/

namespace Sys2Proof.Machine

variable (s : State)

/-! ### How a command ends -/

@[simp] theorem State.settle_ok (t : State) : s.settle (.ok t) = .next t := rfl

@[simp] theorem State.settle_error (e : Stop) : s.settle (.error e) = .next (s.stopped e) := rfl

@[simp] theorem State.stopped_error (e : Err) : s.stopped (.error e) = s.raiseError e := rfl

@[simp] theorem State.stopped_fault (f : Fault) : s.stopped (.fault f) = s.addFault f := rfl

@[simp] theorem State.stopped_refuse : s.stopped .refuse = s.refuse := rfl

/-- A command that settles gives its own result or the state its stop leaves, and nothing else. -/
theorem State.settle_next {r : Except Stop State} {t : State} (h : s.settle r = .next t) :
    r = .ok t ∨ ∃ e, r = .error e ∧ t = s.stopped e := by
  cases r with
  | ok u => left; simpa using h
  | error e => right; exact ⟨e, rfl, by simpa using h.symm⟩

/-- Every command that settles gives a next state. -/
theorem State.settle_total (r : Except Stop State) : ∃ t, s.settle r = .next t := by
  cases r with
  | ok u => exact ⟨u, rfl⟩
  | error e => exact ⟨s.stopped e, rfl⟩

/-- A stop keeps the parameters, every register, the buffers, the scratch and the model's own fields. -/
theorem State.stopped_keeps (e : Stop) :
    s.stopped e = { s with
      status := (s.stopped e).status
      pend := (s.stopped e).pend
      fault := (s.stopped e).fault
      refused := (s.stopped e).refused } := by
  cases e <;> rfl

/-! ### Registers -/

theorem State.readFe_marked {i : FeIdx} (h : (s.feReg i).written = true) : s.readFe i = .ok (s.feReg i).limbs := by
  simp [State.readFe, h]

theorem State.readFe_unmarked {i : FeIdx} (h : (s.feReg i).written = false) :
    s.readFe i = .error (.fault (.unwrittenRead (.fe i))) := by
  simp [State.readFe, h]

theorem State.readKey_marked (h : s.key.written = true) : s.readKey = .ok s.key.words := by simp [State.readKey, h]

theorem State.readKey_unmarked (h : s.key.written = false) : s.readKey = .error (.fault (.unwrittenRead .key)) := by
  simp [State.readKey, h]

theorem State.readCtr_marked (h : s.ctr.written = true) : s.readCtr = .ok s.ctr.value := by simp [State.readCtr, h]

theorem State.readCtr_unmarked (h : s.ctr.written = false) : s.readCtr = .error (.fault (.unwrittenRead .ctr)) := by
  simp [State.readCtr, h]

/-! ### Region checks -/

theorem State.checkRegion_ok {r : Region} (h : s.regionOk r = true) : s.checkRegion r = .ok () := by
  simp [State.checkRegion, h]

theorem State.checkRegion_bad {r : Region} (h : s.regionOk r = false) :
    s.checkRegion r = .error (.error .invalidArgument) := by
  simp [State.checkRegion, h]

/-- The checks of a command pass when every region does. -/
theorem State.checkRegions_ok {rs : List Region} (h : ∀ r ∈ rs, s.regionOk r = true) : s.checkRegions rs = .ok () := by
  induction rs with
  | nil => rfl
  | cons r rs ih =>
    have hr := h r List.mem_cons_self
    have hrs := ih fun q hq => h q (List.mem_cons_of_mem _ hq)
    simp [State.checkRegions, State.checkRegion_ok s hr, hrs, bind, Except.bind]

/-- A region that fails makes the checks raise InvalidArgument. -/
theorem State.checkRegions_bad {rs : List Region} {r : Region} (hr : r ∈ rs) (h : s.regionOk r = false) :
    s.checkRegions rs = .error (.error .invalidArgument) := by
  induction rs with
  | nil => simp at hr
  | cons q rs ih =>
    cases hq : s.regionOk q with
    | false => simp [State.checkRegions, State.checkRegion_bad s hq, bind, Except.bind]
    | true =>
      have hr' : r ∈ rs := by
        rcases List.mem_cons.1 hr with rfl | hr
        · simp [h] at hq
        · exact hr
      simp [State.checkRegions, State.checkRegion_ok s hq, ih hr', bind, Except.bind]

/-- The checks either pass with every region good, or raise InvalidArgument with some region bad. -/
theorem State.checkRegions_cases (rs : List Region) :
    (s.checkRegions rs = .ok () ∧ ∀ r ∈ rs, s.regionOk r = true) ∨
    (s.checkRegions rs = .error (.error .invalidArgument) ∧ ∃ r ∈ rs, s.regionOk r = false) := by
  by_cases h : ∀ r ∈ rs, s.regionOk r = true
  · exact .inl ⟨s.checkRegions_ok h, h⟩
  · simp only [not_forall, Bool.not_eq_true] at h
    obtain ⟨r, hr, hbad⟩ := h
    exact .inr ⟨s.checkRegions_bad hr hbad, r, hr, hbad⟩

/-- What a region check that passes says (R66). -/
theorem State.regionOk_iff (r : Region) :
    s.regionOk r = true ↔ ∃ b, r.h.toNat < s.params.nbuf ∧ s.buf.slot r.h.toNat = some b ∧
      0 ≤ r.n ∧ 0 ≤ s32 r.off ∧ s32 r.off + r.n ≤ (b.len : Int) := by
  unfold State.regionOk State.slot
  by_cases hn : r.h.toNat < s.params.nbuf
  · cases hb : s.buf.slot r.h.toNat with
    | none => simp [hn]
    | some b => simp [hn, and_assoc]
  · simp [hn]

/-! ### Reads and writes of a checked region -/

@[simp] theorem State.readRegion_eq (r : Region) :
    s.readRegion r = s.buf.read r.h.toNat (s32 r.off).toNat r.n.toNat := rfl

theorem State.readRegion_length {r : Region} (h : s.regionOk r = true) : (s.readRegion r).length = r.n.toNat := by
  obtain ⟨b, _, hb, _⟩ := (s.regionOk_iff r).1 h
  simp [Memory.read, hb]

/-- A write that fills a checked region is read back whole. -/
theorem State.memRead_memWrite {r : Region} {v : List Byte} (h : s.regionOk r = true) (hv : v.length = r.n.toNat) :
    (s.memWrite r.h r.off v).memRead r.h r.off r.n.toNat = v := by
  obtain ⟨b, _, hb, hn, hoff, hfit⟩ := (s.regionOk_iff r).1 h
  rw [← hv]
  exact Memory.read_write s.buf v hb (by omega)

/-- A write that fills a checked region leaves every byte outside it. -/
theorem State.byteAt_memWrite_other {r : Region} {v : List Byte} (h : s.regionOk r = true)
    (hv : v.length = r.n.toNat) {x a : Nat}
    (hout : ¬ (x = r.h.toNat ∧ s32 r.off ≤ (a : Int) ∧ (a : Int) < s32 r.off + r.n)) :
    (s.memWrite r.h r.off v).buf.byteAt x a = s.buf.byteAt x a := by
  obtain ⟨b, _, hb, hn, hoff, hfit⟩ := (s.regionOk_iff r).1 h
  refine Memory.byteAt_write_other s.buf v hb (by omega) ?_
  rintro ⟨hx, h1, h2⟩
  exact hout ⟨hx, by omega, by omega⟩

/-- A write changes no buffer's length or presence (R60). -/
theorem State.lenAt_memWrite (h off : Word) (v : List Byte) (x : Nat) :
    (s.memWrite h off v).buf.lenAt x = s.buf.lenAt x :=
  Memory.lenAt_write s.buf _ _ v x

end Sys2Proof.Machine
end

