-- ==== Sys2Proof/Laws/Commands.lean ====
section
/-! SUPPORT. What each shared meaning can do, said once: how it ends where a region check fails, where a register is
unwritten, and where everything is in order. A proof about a command cites these and does not unfold the meaning. -/

namespace Sys2Proof.Machine

variable (s : State)

/-! ### The region check as a statement sees it -/

theorem State.regionBad_iff (r : Region) : s.RegionBad r ↔ s.regionOk r = false := by
  rw [← Bool.not_eq_true, State.regionOk_iff]
  unfold State.RegionBad Memory.lenAt
  cases hb : s.buf.slot r.h.toNat with
  | none => simp
  | some b =>
    simp only [Option.some.injEq, exists_eq_left', reduceCtorEq, false_or, not_exists, not_and]
    constructor
    · rintro h b' hn rfl h1 h2 h3
      rcases h with h | h | h | h <;> omega
    · intro h
      by_contra hc
      push Not at hc
      have := h b (by omega) rfl (by omega) (by omega)
      omega

theorem State.regionGood_iff (r : Region) : ¬ s.RegionBad r ↔ s.regionOk r = true := by
  rw [State.regionBad_iff, Bool.not_eq_false]

/-! ### Value types -/

theorem equalRegions_good {n : Nat} {h1 off1 h2 off2 : Word}
    (ha : s.regionOk ⟨h1, off1, n⟩ = true) (hb : s.regionOk ⟨h2, off2, n⟩ = true) :
    equalRegions n h1 off1 h2 off2 s =
      .next (s.complete (ctEq (s.readRegion ⟨h1, off1, n⟩) (s.readRegion ⟨h2, off2, n⟩))) := by
  have hc : s.checkRegions [⟨h1, off1, (n : Int)⟩, ⟨h2, off2, n⟩] = .ok () :=
    State.checkRegions_ok (s := s) (by simp [ha, hb])
  unfold equalRegions
  rw [hc]
  rfl

/-! ### ChaCha20 -/

theorem blockPrefix_good {n : Nat} {dh doff ctr : Word} {nonce : Nonce}
    (hr : s.regionOk ⟨dh, doff, n⟩ = true) (hk : s.key.written = true) :
    blockPrefix n dh doff ctr nonce s = .next
      ((s.memWrite dh doff ((chachaBlock s.key.words ctr nonce).take n)).scrambleScratch.complete false) := by
  have hc : s.checkRegions [⟨dh, doff, (n : Int)⟩] = .ok () := State.checkRegions_ok (s := s) (by simp [hr])
  unfold blockPrefix
  rw [hc, State.readKey_marked (s := s) hk]
  rfl

theorem blockPrefix_unwritten {n : Nat} {dh doff ctr : Word} {nonce : Nonce}
    (hr : s.regionOk ⟨dh, doff, n⟩ = true) (hk : s.key.written = false) :
    blockPrefix n dh doff ctr nonce s = .next (s.addFault (.unwrittenRead .key)) := by
  have hc : s.checkRegions [⟨dh, doff, (n : Int)⟩] = .ok () := State.checkRegions_ok (s := s) (by simp [hr])
  unfold blockPrefix
  rw [hc, State.readKey_unmarked (s := s) hk]
  rfl

theorem streamBody_nonempty {src dst : Region} {nonce : Nonce} (hn : 0 < src.n)
    (hk : s.key.written = true) (hc : s.ctr.written = true) :
    streamBody src dst nonce s = .ok
      (((s.memWrite dst.h dst.off (streamXor s.key.words s.ctr.value nonce (s.readRegion src))).advanceCtr
        s.ctr.value src.n.toNat).scrambleScratch.complete false) := by
  unfold streamBody
  rw [if_pos hn, State.readKey_marked (s := s) hk, State.readCtr_marked (s := s) hc]
  rfl

theorem streamCommand_checked {sh soff dh doff len : Word} {nonce : Nonce}
    (hz : ¬ (s32 len = 0 ∧ s.params.zeroLengthChecks = false))
    (ha : s.regionOk ⟨sh, soff, s32 len⟩ = true) (hb : s.regionOk ⟨dh, doff, s32 len⟩ = true) :
    streamCommand sh soff dh doff len nonce s = s.settle
      (if partialOverlap ⟨sh, soff, s32 len⟩ ⟨dh, doff, s32 len⟩ then .error .refuse
        else streamBody ⟨sh, soff, s32 len⟩ ⟨dh, doff, s32 len⟩ nonce s) := by
  have hc : s.checkRegions [⟨sh, soff, s32 len⟩, ⟨dh, doff, s32 len⟩] = .ok () :=
    State.checkRegions_ok (s := s) (by simp [ha, hb])
  unfold streamCommand
  rw [if_neg hz]
  dsimp only
  rw [hc]
  rfl

/-! ### The field unit -/

theorem fieldBinary_unwritten_first {op : Limbs Int → Limbs Int → Option (Limbs Int)} {fd fa fb : FeIdx}
    (ha : (s.feReg fa).written = false) :
    fieldBinary op fd fa fb s = .next (s.addFault (.unwrittenRead (.fe fa))) := by
  unfold fieldBinary
  rw [State.readFe_unmarked (s := s) ha]
  rfl

theorem fieldBinary_unwritten_second {op : Limbs Int → Limbs Int → Option (Limbs Int)} {fd fa fb : FeIdx}
    (ha : (s.feReg fa).written = true) (hb : (s.feReg fb).written = false) :
    fieldBinary op fd fa fb s = .next (s.addFault (.unwrittenRead (.fe fb))) := by
  unfold fieldBinary
  rw [State.readFe_marked (s := s) ha, State.readFe_unmarked (s := s) hb]
  rfl

theorem fieldBinary_overflow {op : Limbs Int → Limbs Int → Option (Limbs Int)} {fd fa fb : FeIdx}
    (ha : (s.feReg fa).written = true) (hb : (s.feReg fb).written = true) (h : op (s.feInts fa) (s.feInts fb) = none) :
    fieldBinary op fd fa fb s = .next (s.addFault .arithOverflow) := by
  unfold fieldBinary
  rw [State.readFe_marked (s := s) ha, State.readFe_marked (s := s) hb]
  unfold State.feInts at h
  simp [bind, Except.bind, h, arith]

theorem fieldBinary_good {op : Limbs Int → Limbs Int → Option (Limbs Int)} {fd fa fb : FeIdx} {h : Limbs Int}
    (ha : (s.feReg fa).written = true) (hb : (s.feReg fb).written = true) (hop : op (s.feInts fa) (s.feInts fb) = some h) :
    fieldBinary op fd fa fb s = .next ((s.writeFe fd h.toWords).complete false) := by
  unfold fieldBinary
  rw [State.readFe_marked (s := s) ha, State.readFe_marked (s := s) hb]
  unfold State.feInts at hop
  simp [bind, Except.bind, pure, Except.pure, hop, arith]

theorem fieldUnary_unwritten {op : Limbs Int → Option (Limbs Int)} {fd fa : FeIdx} (ha : (s.feReg fa).written = false) :
    fieldUnary op fd fa s = .next (s.addFault (.unwrittenRead (.fe fa))) := by
  unfold fieldUnary
  rw [State.readFe_unmarked (s := s) ha]
  rfl

theorem fieldUnary_overflow {op : Limbs Int → Option (Limbs Int)} {fd fa : FeIdx}
    (ha : (s.feReg fa).written = true) (h : op (s.feInts fa) = none) :
    fieldUnary op fd fa s = .next (s.addFault .arithOverflow) := by
  unfold fieldUnary
  rw [State.readFe_marked (s := s) ha]
  unfold State.feInts at h
  simp [bind, Except.bind, h, arith]

theorem fieldUnary_good {op : Limbs Int → Option (Limbs Int)} {fd fa : FeIdx} {h : Limbs Int}
    (ha : (s.feReg fa).written = true) (hop : op (s.feInts fa) = some h) :
    fieldUnary op fd fa s = .next ((s.writeFe fd h.toWords).complete false) := by
  unfold fieldUnary
  rw [State.readFe_marked (s := s) ha]
  unfold State.feInts at hop
  simp [bind, Except.bind, pure, Except.pure, hop, arith]

/-- What a unary field command did where it recorded no fault. -/
theorem fieldUnary_ok {op : Limbs Int → Option (Limbs Int)} {fd fa : FeIdx} {t : State} (hf : s.fault = [])
    (h : fieldUnary op fd fa s = .next t) (ht : t.fault = []) :
    ∃ v, (s.feReg fa).written = true ∧ op (s.feInts fa) = some v ∧ t = (s.writeFe fd v.toWords).complete false := by
  by_cases ha : (s.feReg fa).written = true
  · rcases ho : op (s.feInts fa) with _ | v
    · rw [fieldUnary_overflow s ha ho] at h; cases h; simp [hf] at ht
    · rw [fieldUnary_good s ha ho] at h; cases h; exact ⟨v, ha, rfl, rfl⟩
  · rw [fieldUnary_unwritten s (by simpa using ha)] at h; cases h; simp [hf] at ht

/-- What a binary field command did where it recorded no fault. -/
theorem fieldBinary_ok {op : Limbs Int → Limbs Int → Option (Limbs Int)} {fd fa fb : FeIdx} {t : State} (hf : s.fault = [])
    (h : fieldBinary op fd fa fb s = .next t) (ht : t.fault = []) :
    ∃ v, (s.feReg fa).written = true ∧ (s.feReg fb).written = true ∧ op (s.feInts fa) (s.feInts fb) = some v ∧
      t = (s.writeFe fd v.toWords).complete false := by
  by_cases ha : (s.feReg fa).written = true
  · by_cases hb : (s.feReg fb).written = true
    · rcases ho : op (s.feInts fa) (s.feInts fb) with _ | v
      · rw [fieldBinary_overflow s ha hb ho] at h; cases h; simp [hf] at ht
      · rw [fieldBinary_good s ha hb ho] at h; cases h; exact ⟨v, ha, hb, rfl, rfl⟩
    · rw [fieldBinary_unwritten_second s ha (by simpa using hb)] at h; cases h; simp [hf] at ht
  · rw [fieldBinary_unwritten_first s (by simpa using ha)] at h; cases h; simp [hf] at ht

/-- Every command ends in a next state, whatever it meets (R261): an error, a fault and a refusal are states too. -/
theorem exec_total (i : Instr) : ∃ t, exec i s = .next t := by
  cases i <;> exact State.settle_total s _

end Sys2Proof.Machine
end

