-- ==== Sys2Proof/Laws/Decode.lean ====
section
/-! SUPPORT. The fields of a command word put together from its fields (30_encoding.md R91), and the opcode map as a map. -/

namespace Sys2Proof

/-- A bit of an index field is a bit of a number below 16. -/
theorem testBit_index (f : FeIdx) {i : Nat} (h : 4 ≤ i) : f.val.testBit i = false :=
  Nat.testBit_lt_two_pow (Nat.lt_of_lt_of_le f.isLt (Nat.pow_le_pow_right (n := 2) (by omega) h))

/-- Every bit of a command word, by its field. -/
theorem getLsbD_commandWord (opc : BitVec 8) (fd fa fb : FeIdx) (bit : BitVec 1) {i : Nat} (hi : i < 32) :
    (commandWord opc fd fa fb bit).getLsbD i =
      if i < 8 then opc.getLsbD i else if i < 12 then fd.val.testBit (i - 8)
      else if i < 16 then fa.val.testBit (i - 12) else if i < 20 then fb.val.testBit (i - 16)
      else bit.getLsbD (i - 20) := by
  simp only [commandWord, BitVec.getLsbD_or, BitVec.getLsbD_shiftLeft, BitVec.getLsbD_setWidth, BitVec.getLsbD_ofNat,
    BitVec.truncate_eq_setWidth, hi]
  interval_cases i <;> simp [testBit_index, BitVec.getLsbD_of_ge]

/-- The same, by index. -/
theorem getElem_commandWord (opc : BitVec 8) (fd fa fb : FeIdx) (bit : BitVec 1) {i : Nat} (hi : i < 32) :
    (commandWord opc fd fa fb bit)[i] =
      if i < 8 then opc.getLsbD i else if i < 12 then fd.val.testBit (i - 8)
      else if i < 16 then fa.val.testBit (i - 12) else if i < 20 then fb.val.testBit (i - 16)
      else bit.getLsbD (i - 20) := by
  rw [← getLsbD_commandWord opc fd fa fb bit hi, BitVec.getLsbD_eq_getElem]

theorem fieldOpc_commandWord (opc : BitVec 8) (fd fa fb : FeIdx) (bit : BitVec 1) :
    fieldOpc (commandWord opc fd fa fb bit) = opc := by
  unfold fieldOpc
  apply BitVec.eq_of_getLsbD_eq
  intro i hi
  simp [getElem_commandWord, show i < 32 by omega, hi]

theorem fieldFd_commandWord (opc : BitVec 8) (fd fa fb : FeIdx) (bit : BitVec 1) :
    fieldFd (commandWord opc fd fa fb bit) = fd := by
  have : (commandWord opc fd fa fb bit).extractLsb' 8 4 = BitVec.ofNat 4 fd.val := by
    apply BitVec.eq_of_getLsbD_eq
    intro i hi
    simp [getElem_commandWord, show 8 + i < 32 by omega, show 8 + i < 12 by omega, hi]
  simp [fieldFd, this]

theorem fieldFa_commandWord (opc : BitVec 8) (fd fa fb : FeIdx) (bit : BitVec 1) :
    fieldFa (commandWord opc fd fa fb bit) = fa := by
  have : (commandWord opc fd fa fb bit).extractLsb' 12 4 = BitVec.ofNat 4 fa.val := by
    apply BitVec.eq_of_getLsbD_eq
    intro i hi
    simp [getElem_commandWord, show 12 + i < 32 by omega, show 12 + i < 16 by omega, show ¬ 12 + i < 8 by omega, hi]
  simp [fieldFa, this]

theorem fieldFb_commandWord (opc : BitVec 8) (fd fa fb : FeIdx) (bit : BitVec 1) :
    fieldFb (commandWord opc fd fa fb bit) = fb := by
  have : (commandWord opc fd fa fb bit).extractLsb' 16 4 = BitVec.ofNat 4 fb.val := by
    apply BitVec.eq_of_getLsbD_eq
    intro i hi
    simp [getElem_commandWord, show 16 + i < 32 by omega, show 16 + i < 20 by omega, show ¬ 16 + i < 8 by omega,
      show ¬ 16 + i < 12 by omega, hi]
  simp [fieldFb, this]

theorem fieldBit_commandWord (opc : BitVec 8) (fd fa fb : FeIdx) (bit : BitVec 1) :
    fieldBit (commandWord opc fd fa fb bit) = bit := by
  unfold fieldBit
  apply BitVec.eq_of_getLsbD_eq
  intro i hi
  have h0 : i = 0 := by omega
  subst h0
  simp [getElem_commandWord]

/-- Every command's opcode value names it. -/
theorem Opcode.ofCode_code (o : Opcode) : Opcode.ofCode o.code = some o := by cases o <;> rfl

/-- An opcode value names at most the command whose value it is. -/
theorem Opcode.code_of_ofCode {c : BitVec 8} {o : Opcode} (h : Opcode.ofCode c = some o) : o.code = c := by
  have := List.find?_some h
  simpa using this

end Sys2Proof
end

