-- ==== Sys2Proof/Laws/Field.lean ====
section
/-! SUPPORT. The small laws of limb vectors, width checks and registers as integers (43_field_arith.md R190 to R199). -/

namespace Sys2Proof.Machine

/-! ### Limbs -/

/-- Two vectors with equal limbs are equal. -/
theorem Limbs.ext_get {α : Type} {h k : Limbs α} (e : ∀ j, h.get j = k.get j) : h = k := by
  cases h; cases k
  have := e 0; have := e 1; have := e 2; have := e 3; have := e 4
  have := e 5; have := e 6; have := e 7; have := e 8; have := e 9
  simp_all [Limbs.get]

/-- A property of every limb number, limb by limb. -/
theorem forall_limbIdx {P : LimbIdx → Prop} :
    (∀ j, P j) ↔ P 0 ∧ P 1 ∧ P 2 ∧ P 3 ∧ P 4 ∧ P 5 ∧ P 6 ∧ P 7 ∧ P 8 ∧ P 9 := by
  constructor
  · intro h
    exact ⟨h 0, h 1, h 2, h 3, h 4, h 5, h 6, h 7, h 8, h 9⟩
  · rintro ⟨h0, h1, h2, h3, h4, h5, h6, h7, h8, h9⟩ j
    fin_cases j <;> assumption

theorem Limbs.get_put {α : Type} (h : Limbs α) (i j : LimbIdx) (v : α) :
    (h.put i v).get j = if j = i then v else h.get j := by
  fin_cases i <;> fin_cases j <;> rfl

@[simp] theorem Limbs.get_map {α β : Type} (f : α → β) (h : Limbs α) (j : LimbIdx) : (h.map f).get j = f (h.get j) := by
  fin_cases j <;> rfl

@[simp] theorem Limbs.get_zip {α β γ : Type} (f : α → β → γ) (h : Limbs α) (k : Limbs β) (j : LimbIdx) :
    (h.zip f k).get j = f (h.get j) (k.get j) := by
  fin_cases j <;> rfl

@[simp] theorem Limbs.get_ofFun {α : Type} (f : LimbIdx → α) (j : LimbIdx) : (Limbs.ofFun f).get j = f j := by
  fin_cases j <;> rfl

@[simp] theorem Limbs.get_const {α : Type} (a : α) (j : LimbIdx) : (Limbs.const a).get j = a := by
  fin_cases j <;> rfl

/-- `val` written out (R190). -/
theorem Limbs.val_eq (h : Limbs Int) :
    h.val = h.l0 + h.l1 * 2 ^ 26 + h.l2 * 2 ^ 51 + h.l3 * 2 ^ 77 + h.l4 * 2 ^ 102 + h.l5 * 2 ^ 128 + h.l6 * 2 ^ 153 +
      h.l7 * 2 ^ 179 + h.l8 * 2 ^ 204 + h.l9 * 2 ^ 230 := by
  simp only [Limbs.val, limbIdxs, List.map_cons, List.map_nil, List.sum_cons, List.sum_nil, Limbs.get, limbBase]
  ring

/-! ### Width checks -/

theorem chk32_eq_some {v r : Int} : chk32 v = some r ↔ v = r ∧ -2147483648 ≤ v ∧ v < 2147483648 := by
  unfold chk32
  split
  · simp_all
  · simp only [reduceCtorEq, false_iff]
    omega

theorem chk64_eq_some {v r : Int} :
    chk64 v = some r ↔ v = r ∧ -9223372036854775808 ≤ v ∧ v < 9223372036854775808 := by
  unfold chk64
  split
  · simp_all
  · simp only [reduceCtorEq, false_iff]
    omega

theorem chk32_of_range {v : Int} (h1 : -2147483648 ≤ v) (h2 : v < 2147483648) : chk32 v = some v :=
  chk32_eq_some.2 ⟨rfl, h1, h2⟩

theorem chk64_of_range {v : Int} (h1 : -9223372036854775808 ≤ v) (h2 : v < 9223372036854775808) : chk64 v = some v :=
  chk64_eq_some.2 ⟨rfl, h1, h2⟩

/-- A check of every limb passes exactly when it passes on each. -/
theorem Limbs.check_eq_some {f : Int → Option Int} {h k : Limbs Int} :
    h.check f = some k ↔ ∀ j, f (h.get j) = some (k.get j) := by
  rw [forall_limbIdx]
  cases h; cases k
  simp only [Limbs.check, Limbs.get, bind, Option.bind_eq_some_iff, Option.some.injEq, Limbs.mk.injEq]
  constructor
  · rintro ⟨_, h0, _, h1, _, h2, _, h3, _, h4, _, h5, _, h6, _, h7, _, h8, _, h9, rfl, rfl, rfl, rfl, rfl, rfl, rfl, rfl,
      rfl, rfl⟩
    exact ⟨h0, h1, h2, h3, h4, h5, h6, h7, h8, h9⟩
  · rintro ⟨h0, h1, h2, h3, h4, h5, h6, h7, h8, h9⟩
    exact ⟨_, h0, _, h1, _, h2, _, h3, _, h4, _, h5, _, h6, _, h7, _, h8, _, h9, rfl, rfl, rfl, rfl, rfl, rfl, rfl, rfl,
      rfl, rfl⟩

/-- `finish` gives its argument back, where every limb is in the i32 range (R199). -/
theorem finish_eq_some {h k : Limbs Int} :
    finish h = some k ↔ h = k ∧ ∀ j, -2147483648 ≤ h.get j ∧ h.get j < 2147483648 := by
  unfold finish
  rw [Limbs.check_eq_some]
  constructor
  · intro e
    exact ⟨Limbs.ext_get fun j => (chk32_eq_some.1 (e j)).1, fun j => (chk32_eq_some.1 (e j)).2⟩
  · rintro ⟨rfl, e⟩ j
    exact chk32_of_range (e j).1 (e j).2

/-! ### Registers as integers -/

/-- A limb of a register is in the i32 range. -/
theorem Limbs.toInts_range (h : Limbs Word) (j : LimbIdx) :
    -2147483648 ≤ h.toInts.get j ∧ h.toInts.get j < 2147483648 := by
  simp only [Limbs.toInts, Limbs.get_map]
  exact ⟨by have := BitVec.le_toInt (h.get j); simpa using this,
    by have := BitVec.toInt_lt (x := h.get j); simpa using this⟩

/-- Integers in the i32 range are the limbs they are written as. -/
theorem Limbs.toInts_toWords {h : Limbs Int} (e : ∀ j, -2147483648 ≤ h.get j ∧ h.get j < 2147483648) :
    h.toWords.toInts = h := by
  apply Limbs.ext_get
  intro j
  simp only [Limbs.toInts, Limbs.toWords, Limbs.get_map]
  obtain ⟨h1, h2⟩ := e j
  rw [BitVec.toInt_ofInt]
  exact Int.bmod_eq_of_le (by simpa using h1) (by simpa using h2)

/-! ### Chains -/

@[simp] theorem chain_nil (h : Limbs Int) : chain h [] = some h := rfl

theorem chain_cons_eq_some {h k : Limbs Int} {i : LimbIdx} {is : List LimbIdx} :
    chain h (i :: is) = some k ↔ ∃ h', carry h i = some h' ∧ chain h' is = some k := by
  simp [chain, bind, Option.bind_eq_some_iff]

/-- A property every carry keeps is kept by a chain. -/
theorem chain_induction {P : Limbs Int → Prop} (step : ∀ h i h', carry h i = some h' → P h → P h') {h k : Limbs Int}
    {is : List LimbIdx} (hc : chain h is = some k) (hp : P h) : P k := by
  induction is generalizing h with
  | nil => simp only [chain_nil, Option.some.injEq] at hc; exact hc ▸ hp
  | cons i is ih =>
    obtain ⟨h', h1, h2⟩ := chain_cons_eq_some.1 hc
    exact ih h2 (step h i h' h1 hp)

/-- What a carry does, where no check fails (R195). -/
theorem carry_eq_some {h k : Limbs Int} {i : LimbIdx} (e : carry h i = some k) :
    let c := (h.get i + 2 ^ (limbWidth i - 1)) / 2 ^ limbWidth i
    k = (h.put (i + 1) (h.get (i + 1) + (if i = 9 then 19 * c else c))).put i (h.get i - c * 2 ^ limbWidth i) := by
  simp only [carry, bind, Option.bind_eq_some_iff] at e
  obtain ⟨t, ht, up, hup, next, hnext, down, hdown, rest, hrest, hk⟩ := e
  have ht := (chk64_eq_some.1 ht).1
  have hnext := (chk64_eq_some.1 hnext).1
  have hdown := (chk64_eq_some.1 hdown).1
  have hrest := (chk64_eq_some.1 hrest).1
  subst ht hdown
  have hup : up = if i = 9 then 19 * ((h.get i + 2 ^ (limbWidth i - 1)) / 2 ^ limbWidth i)
      else (h.get i + 2 ^ (limbWidth i - 1)) / 2 ^ limbWidth i := by
    unfold carryUp at hup
    split at hup
    · rename_i h9
      rw [if_pos h9]
      exact (chk64_eq_some.1 hup).1.symm
    · rename_i h9
      rw [if_neg h9]
      exact (Option.some.inj hup).symm
  subst hup hnext hrest
  exact (Option.some.inj hk).symm

/-- A carry completes where the two limbs it touches are far inside the i64 range, and gives the vector of `carry_eq_some`. -/
theorem carry_completes {h : Limbs Int} {i : LimbIdx} (hi : |h.get i| ≤ 2 ^ 62) (hn : |h.get (i + 1)| ≤ 2 ^ 61) :
    let c := (h.get i + 2 ^ (limbWidth i - 1)) / 2 ^ limbWidth i
    carry h i = some
      ((h.put (i + 1) (h.get (i + 1) + (if i = 9 then 19 * c else c))).put i (h.get i - c * 2 ^ limbWidth i)) := by
  intro c
  rw [abs_le] at hi hn
  have hw : limbWidth i = 26 ∨ limbWidth i = 25 := by fin_cases i <;> simp [limbWidth]
  have e1 : chk64 (h.get i + 2 ^ (limbWidth i - 1)) = some (h.get i + 2 ^ (limbWidth i - 1)) := by
    apply chk64_of_range <;> rcases hw with e | e <;> rw [e] <;> omega
  have hc : -(2 ^ 38) ≤ c ∧ c ≤ 2 ^ 38 ∧ -(2 ^ 26) ≤ h.get i - c * 2 ^ limbWidth i ∧ h.get i - c * 2 ^ limbWidth i ≤ 2 ^ 26 := by
    simp only [c]
    rcases hw with e | e <;> rw [e] <;> omega
  have e2 : carryUp i c = some (if i = 9 then 19 * c else c) := by
    unfold carryUp
    split
    · apply chk64_of_range <;> omega
    · rfl
  have e3 : chk64 (h.get (i + 1) + (if i = 9 then 19 * c else c)) = some (h.get (i + 1) + (if i = 9 then 19 * c else c)) := by
    apply chk64_of_range <;> split <;> omega
  have e4 : chk64 (c * 2 ^ limbWidth i) = some (c * 2 ^ limbWidth i) := by apply chk64_of_range <;> omega
  have e5 : chk64 (h.get i - c * 2 ^ limbWidth i) = some (h.get i - c * 2 ^ limbWidth i) := by apply chk64_of_range <;> omega
  simp only [c] at e2 e3 e4 e5 ⊢
  simp only [carry, bind, Option.bind_some, e1, e2, e3, e4, e5]

/-- What a carry leaves in the limb it carries out of: at most half its width, in absolute value. -/
theorem carry_rest_bound (x : Int) (i : LimbIdx) :
    let c := (x + 2 ^ (limbWidth i - 1)) / 2 ^ limbWidth i
    |x - c * 2 ^ limbWidth i| ≤ 2 ^ (limbWidth i - 1) := by
  intro c
  have hw : limbWidth i = 26 ∨ limbWidth i = 25 := by fin_cases i <;> simp [limbWidth]
  rw [abs_le]
  simp only [c]
  rcases hw with e | e <;> rw [e] <;> omega

/-- How large the carry itself can be. -/
theorem carry_out_bound {x b : Int} (i : LimbIdx) (hx : |x| ≤ b * 2 ^ limbWidth i) :
    |(x + 2 ^ (limbWidth i - 1)) / 2 ^ limbWidth i| ≤ b := by
  have hw : limbWidth i = 26 ∨ limbWidth i = 25 := by fin_cases i <;> simp [limbWidth]
  rw [abs_le] at hx ⊢
  rcases hw with e | e <;> rw [e] at hx ⊢ <;> omega

end Sys2Proof.Machine
end

