-- ==== Sys2Proof/Laws/Ends.lean ====
section
/-! SUPPORT. Everything a command can do, said once: the ways it ends (60_exceptions.md R261, R264) and the frame of a command that
succeeds (10_state.md R43). A proof about every command starts from `exec_ends` and takes no meaning apart. -/

namespace Sys2Proof.Machine

/-- What a command that succeeds from `s` leaves: the frame of R43, by its kinds of state. -/
structure Succeeded (i : Instr) (s t : State) : Prop where
  params : t.params = s.params
  agenda : t.agenda = s.agenda
  reply : t.reply = s.reply
  fault : t.fault = s.fault
  refused : t.refused = s.refused
  pend : t.pend = none
  status : ∃ b, t.status = ⟨false, b, .ok⟩ ∧ (b = true → i.givesResult = true)
  fe : ∀ j, j ∉ i.writesFe → t.feReg j = s.feReg j
  feMark : ∀ j ∈ i.writesFe, (t.feReg j).written = true
  key : i.setsKey = false → t.key = s.key
  keyMark : i.setsKey = true → t.key.written = true
  ctr : t.ctr = s.ctr ∨ (i.isStream = true ∧ s.params.counterWriteback = true ∧ t.ctr.written = true)
  buf : t.buf = s.buf ∨ ∃ r v, i.stores = some r ∧ s.regionOk r = true ∧ v.length = r.n.toNat ∧
    t.buf = (s.memWrite r.h r.off v).buf
  scratch : i.readsKey = false → t.work = s.work ∧ t.blk = s.blk ∧ t.fresh = s.fresh
  regions : i.earlyNoop s.params = true ∨ ∀ r ∈ i.regions, s.regionOk r = true
  reads : ∀ r ∈ i.readRegs, s.marked r = true

/-- The ways a command ends from `s` (R261, R264). -/
inductive Ends (i : Instr) (s : State) : State → Prop where
  | error (r : Region) : r ∈ i.regions → s.regionOk r = false → i.earlyNoop s.params = false →
      Ends i s (s.raiseError .invalidArgument)
  | refuse : i.overlaps = true → Ends i s s.refuse
  | unwritten (r : Reg) : r ∈ i.readRegs → s.marked r = false → Ends i s (s.addFault (.unwrittenRead r))
  | overflow : Ends i s (s.addFault .arithOverflow)
  | success (t : State) : Succeeded i s t → Ends i s t

theorem chachaBlock_length (key : Vector Word 8) (c : Word) (nonce : Nonce) : (chachaBlock key c nonce).length = 64 := by
  have h : ∀ l : List Word, (l.flatMap fun w => leBytes 4 w.toNat).length = 4 * l.length := by
    intro l
    induction l with
    | nil => rfl
    | cons w ws ih => simp only [List.flatMap_cons, List.length_append, ih, leBytes_length, List.length_cons]; omega
  unfold chachaBlock
  rw [h]
  simp [chachaWords]

theorem keystream_length (key : Vector Word 8) (c : Word) (nonce : Nonce) (n : Nat) :
    (keystream key c nonce n).length = 64 * n := by
  unfold keystream
  rw [List.length_flatMap]
  simp [chachaBlock_length, Nat.mul_comm]

theorem streamXor_length (key : Vector Word 8) (c : Word) (nonce : Nonce) (src : List Byte) :
    (streamXor key c nonce src).length = src.length := by
  unfold streamXor
  rw [List.length_zipWith, keystream_length]
  unfold blockCount
  omega

theorem polyTag_length (key : List Byte) (ns : List Nat) : (polyTag key ns).length = 16 := by simp [polyTag]

theorem encodeLimbs_length {h : Limbs Int} {b : List Byte} (e : encodeLimbs h = some b) : b.length = 32 := by
  unfold encodeLimbs at e
  simp only [bind, Option.bind_eq_some_iff] at e
  obtain ⟨h', _, e⟩ := e
  cases e
  simp

variable (s : State)

theorem equalRegions_cases (n : Nat) (h1 off1 h2 off2 : Word) :
    (∃ r ∈ ([⟨h1, off1, n⟩, ⟨h2, off2, n⟩] : List Region), s.regionOk r = false ∧
      equalRegions n h1 off1 h2 off2 s = .next (s.raiseError .invalidArgument)) ∨
    ((∀ r ∈ ([⟨h1, off1, n⟩, ⟨h2, off2, n⟩] : List Region), s.regionOk r = true) ∧
      ∃ b, equalRegions n h1 off1 h2 off2 s = .next (s.complete b)) := by
  rcases s.checkRegions_cases [⟨h1, off1, (n : Int)⟩, ⟨h2, off2, n⟩] with ⟨hc, hr⟩ | ⟨hc, r, hr, hb⟩
  · right; refine ⟨hr, ctEq (s.readRegion ⟨h1, off1, n⟩) (s.readRegion ⟨h2, off2, n⟩), ?_⟩; unfold equalRegions; rw [hc]; rfl
  · left; refine ⟨r, hr, hb, ?_⟩; unfold equalRegions; rw [hc]; rfl

theorem blockPrefix_bad {n : Nat} {dh doff ctr : Word} {nonce : Nonce} (h : s.regionOk ⟨dh, doff, n⟩ = false) :
    blockPrefix n dh doff ctr nonce s = .next (s.raiseError .invalidArgument) := by
  have hc := State.checkRegions_bad (s := s) (rs := [⟨dh, doff, (n : Int)⟩]) (by simp) h
  unfold blockPrefix
  rw [hc]; rfl

theorem blockPrefix_ends (n : Nat) (hn : n ≤ 64) (dh doff ctr : Word) (nonce : Nonce) (i : Instr)
    (h1 : i.regions = [⟨dh, doff, n⟩]) (h2 : i.readRegs = [.key]) (h3 : i.stores = some ⟨dh, doff, n⟩)
    (h4 : i.earlyNoop s.params = false) (h5 : i.setsKey = false) (h6 : i.writesFe = []) (h7 : i.readsKey = true) :
    ∃ t, blockPrefix n dh doff ctr nonce s = .next t ∧ Ends i s t := by
  by_cases hr : s.regionOk ⟨dh, doff, n⟩ = true
  · by_cases hk : s.key.written = true
    · refine ⟨_, blockPrefix_good s hr hk, .success _ ?_⟩
      constructor <;> try rfl
      · exact ⟨false, rfl, by simp⟩
      · intro j _; rfl
      · simp [h6]
      · intro _; rfl
      · simp [h5]
      · left; rfl
      · right
        refine ⟨_, _, h3, hr, ?_, rfl⟩
        simp [chachaBlock_length, hn]
      · simp [h7]
      · right; simp [h1, hr]
      · simp [h2, State.marked, hk]
    · refine ⟨_, blockPrefix_unwritten s hr (by simpa using hk), .unwritten .key (by simp [h2]) (by simpa [State.marked] using hk)⟩
  · have hr : s.regionOk ⟨dh, doff, n⟩ = false := by simpa using hr
    exact ⟨_, blockPrefix_bad s hr, .error _ (by simp [h1]) hr h4⟩


theorem stream_ends (sh soff dh doff len : Word) (nonce : Nonce) (i : Instr)
    (h1 : i.regions = [⟨sh, soff, s32 len⟩, ⟨dh, doff, s32 len⟩])
    (h2 : i.readRegs = if 0 < s32 len then [.key, .ctr] else []) (h3 : i.stores = some ⟨dh, doff, s32 len⟩)
    (h4 : i.earlyNoop s.params = (s32 len == 0 && !s.params.zeroLengthChecks)) (h5 : i.setsKey = false)
    (h6 : i.writesFe = []) (h7 : i.readsKey = true) (h8 : i.isStream = true)
    (h9 : i.overlaps = partialOverlap ⟨sh, soff, s32 len⟩ ⟨dh, doff, s32 len⟩) :
    ∃ t, streamCommand sh soff dh doff len nonce s = .next t ∧ Ends i s t := by
  have done (hr : i.earlyNoop s.params = true ∨ ∀ r ∈ i.regions, s.regionOk r = true) (hz : ¬ 0 < s32 len) :
      Succeeded i s (s.complete false) := by
    constructor <;> try rfl
    · exact ⟨false, rfl, by simp⟩
    · intro j _; rfl
    · simp [h6]
    · intro _; rfl
    · simp [h5]
    · left; rfl
    · left; rfl
    · simp [h7]
    · exact hr
    · simp [h2, hz]
  by_cases hz : s32 len = 0 ∧ s.params.zeroLengthChecks = false
  · refine ⟨s.complete false, ?_, .success _ (done (by left; simp [h4, hz]) (by omega))⟩
    unfold streamCommand
    rw [if_pos hz]; rfl
  have he : i.earlyNoop s.params = false := by
    rw [h4]
    by_cases hl : s32 len = 0 <;> simp_all
  rcases s.checkRegions_cases [⟨sh, soff, s32 len⟩, ⟨dh, doff, s32 len⟩] with ⟨hc, hr⟩ | ⟨hc, r, hr, hb⟩
  · have ha : s.regionOk ⟨sh, soff, s32 len⟩ = true := hr _ (by simp)
    have hb : s.regionOk ⟨dh, doff, s32 len⟩ = true := hr _ (by simp)
    rw [streamCommand_checked s hz ha hb]
    by_cases ho : partialOverlap ⟨sh, soff, s32 len⟩ ⟨dh, doff, s32 len⟩ = true
    · rw [if_pos ho]
      exact ⟨_, rfl, .refuse (h9.trans ho)⟩
    · rw [if_neg ho]
      by_cases hn : 0 < s32 len
      · by_cases hk : s.key.written = true
        · by_cases hct : s.ctr.written = true
          · rw [streamBody_nonempty s hn hk hct]
            refine ⟨_, rfl, .success _ ?_⟩
            constructor
            · unfold State.advanceCtr; split <;> rfl
            · unfold State.advanceCtr; split <;> rfl
            · unfold State.advanceCtr; split <;> rfl
            · unfold State.advanceCtr; split <;> rfl
            · unfold State.advanceCtr; split <;> rfl
            · rfl
            · exact ⟨false, rfl, by simp⟩
            · intro j _; unfold State.advanceCtr; split <;> rfl
            · simp [h6]
            · intro _; unfold State.advanceCtr; split <;> rfl
            · simp [h5]
            · unfold State.advanceCtr
              split
              · rename_i hw
                right; exact ⟨h8, hw, rfl⟩
              · left; rfl
            · right
              refine ⟨_, streamXor s.key.words s.ctr.value nonce (s.readRegion ⟨sh, soff, s32 len⟩), h3, hb, ?_, ?_⟩
              · rw [streamXor_length]
                exact s.readRegion_length ha
              · unfold State.advanceCtr; split <;> rfl
            · simp [h7]
            · right; rw [h1]; exact hr
            · simp [h2, hn, State.marked, hk, hct]
          · refine ⟨s.addFault (.unwrittenRead .ctr), ?_, .unwritten .ctr (by simp [h2, hn]) (by simpa [State.marked] using hct)⟩
            unfold streamBody
            rw [if_pos hn, State.readKey_marked (s := s) hk, State.readCtr_unmarked (s := s) (by simpa using hct)]
            rfl
        · refine ⟨s.addFault (.unwrittenRead .key), ?_, .unwritten .key (by simp [h2, hn]) (by simpa [State.marked] using hk)⟩
          unfold streamBody
          rw [if_pos hn, State.readKey_unmarked (s := s) (by simpa using hk)]
          rfl
      · refine ⟨s.complete false, ?_, .success _ (done (by right; rw [h1]; exact hr) hn)⟩
        unfold streamBody
        rw [if_neg hn]
        rfl
  · refine ⟨s.raiseError .invalidArgument, ?_, .error r (by rw [h1]; exact hr) hb he⟩
    unfold streamCommand
    rw [if_neg hz]
    dsimp only
    rw [hc]
    rfl

theorem fieldBinary_ends (op : Limbs Int → Limbs Int → Option (Limbs Int)) (fd fa fb : FeIdx) (i : Instr)
    (h1 : i.regions = []) (h2 : i.readRegs = [.fe fa, .fe fb]) (h5 : i.setsKey = false) (h6 : i.writesFe = [fd]) :
    ∃ t, fieldBinary op fd fa fb s = .next t ∧ Ends i s t := by
  by_cases ha : (s.feReg fa).written = true
  · by_cases hb : (s.feReg fb).written = true
    · rcases ho : op (s.feInts fa) (s.feInts fb) with _ | h
      · exact ⟨_, fieldBinary_overflow s ha hb ho, .overflow⟩
      · refine ⟨_, fieldBinary_good s ha hb ho, .success _ ?_⟩
        constructor <;> try rfl
        · exact ⟨false, rfl, by simp⟩
        · intro j hj
          have := State.feReg_writeFe s fd j h.toWords
          rw [h6] at hj
          simp at hj
          rw [if_neg hj] at this
          exact this
        · intro j hj
          have := State.feReg_writeFe s fd j h.toWords
          rw [h6] at hj
          simp at hj
          rw [if_pos hj] at this
          exact congrArg FeReg.written this
        · intro _; rfl
        · simp [h5]
        · left; rfl
        · left; rfl
        · intro _; exact ⟨rfl, rfl, rfl⟩
        · right; simp [h1]
        · simp [h2, State.marked, ha, hb]
    · exact ⟨_, fieldBinary_unwritten_second s ha (by simpa using hb), .unwritten (.fe fb) (by simp [h2]) (by simpa [State.marked] using hb)⟩
  · exact ⟨_, fieldBinary_unwritten_first s (by simpa using ha), .unwritten (.fe fa) (by simp [h2]) (by simpa [State.marked] using ha)⟩

theorem fieldUnary_ends (op : Limbs Int → Option (Limbs Int)) (fd fa : FeIdx) (i : Instr)
    (h1 : i.regions = []) (h2 : i.readRegs = [.fe fa]) (h5 : i.setsKey = false) (h6 : i.writesFe = [fd]) :
    ∃ t, fieldUnary op fd fa s = .next t ∧ Ends i s t := by
  by_cases ha : (s.feReg fa).written = true
  · rcases ho : op (s.feInts fa) with _ | h
    · exact ⟨_, fieldUnary_overflow s ha ho, .overflow⟩
    · refine ⟨_, fieldUnary_good s ha ho, .success _ ?_⟩
      constructor <;> try rfl
      · exact ⟨false, rfl, by simp⟩
      · intro j hj
        have := State.feReg_writeFe s fd j h.toWords
        rw [h6] at hj
        simp at hj
        rw [if_neg hj] at this
        exact this
      · intro j hj
        have := State.feReg_writeFe s fd j h.toWords
        rw [h6] at hj
        simp at hj
        rw [if_pos hj] at this
        exact congrArg FeReg.written this
      · intro _; rfl
      · simp [h5]
      · left; rfl
      · left; rfl
      · intro _; exact ⟨rfl, rfl, rfl⟩
      · right; simp [h1]
      · simp [h2, State.marked, ha]
  · exact ⟨_, fieldUnary_unwritten s (by simpa using ha), .unwritten (.fe fa) (by simp [h2]) (by simpa [State.marked] using ha)⟩

theorem checked_ends (i : Instr) (r : Except Stop State) (h4 : i.earlyNoop s.params = false)
    (hg : (∀ q ∈ i.regions, s.regionOk q = true) → ∃ t, s.settle r = .next t ∧ Ends i s t) :
    ∃ t, s.settle (s.checkRegions i.regions >>= fun _ => r) = .next t ∧ Ends i s t := by
  rcases s.checkRegions_cases i.regions with ⟨hc, hr⟩ | ⟨hc, q, hq, hb⟩
  · rw [hc]; exact hg hr
  · rw [hc]; exact ⟨_, rfl, .error q hq hb h4⟩


theorem completes_ends (i : Instr) (b : Bool) (h : b = true → i.givesResult = true) (hr : ∀ r ∈ i.regions, s.regionOk r = true)
    (h2 : i.readRegs = []) (h5 : i.setsKey = false) (h6 : i.writesFe = []) : Succeeded i s (s.complete b) := by
  constructor <;> try rfl
  · exact ⟨b, rfl, h⟩
  · intro j _; rfl
  · simp [h6]
  · intro _; rfl
  · simp [h5]
  · left; rfl
  · left; rfl
  · intro _; exact ⟨rfl, rfl, rfl⟩
  · right; exact hr
  · simp [h2]

theorem stores_ends (i : Instr) (r : Region) (v : List Byte) (hs : i.stores = some r) (hv : v.length = r.n.toNat)
    (hok : s.regionOk r = true) (hr : ∀ r ∈ i.regions, s.regionOk r = true) (hreads : ∀ r ∈ i.readRegs, s.marked r = true)
    (h5 : i.setsKey = false) (h6 : i.writesFe = []) :
    Succeeded i s ((s.memWrite r.h r.off v).complete false) := by
  constructor <;> try rfl
  · exact ⟨false, rfl, by simp⟩
  · intro j _; rfl
  · simp [h6]
  · intro _; rfl
  · simp [h5]
  · left; rfl
  · right; exact ⟨r, v, hs, hok, hv, rfl⟩
  · intro _; exact ⟨rfl, rfl, rfl⟩
  · right; exact hr
  · exact hreads

/-- Every command ends in a next state that is one of the ways of `Ends`. -/
theorem exec_ends (i : Instr) : ∃ t, exec i s = .next t ∧ Ends i s t := by
  cases i with
  | keyEq h1 off1 h2 off2 =>
    rcases equalRegions_cases s 32 h1 off1 h2 off2 with ⟨r, hr, hb, e⟩ | ⟨hr, b, e⟩
    · exact ⟨_, e, .error r hr hb rfl⟩
    · exact ⟨_, e, .success _ (completes_ends s _ b (fun _ => rfl) hr rfl rfl rfl)⟩
  | macEq h1 off1 h2 off2 =>
    rcases equalRegions_cases s 16 h1 off1 h2 off2 with ⟨r, hr, hb, e⟩ | ⟨hr, b, e⟩
    · exact ⟨_, e, .error r hr hb rfl⟩
    · exact ⟨_, e, .success _ (completes_ends s _ b (fun _ => rfl) hr rfl rfl rfl)⟩
  | ccSetkey kh koff =>
    refine checked_ends s (.ccSetkey kh koff) _ rfl fun hr => ⟨_, rfl, .success _ ?_⟩
    constructor <;> try rfl
    · exact ⟨false, rfl, by simp⟩
    · intro j _; rfl
    · simp [Instr.writesFe]
    · intro h; simp [Instr.setsKey] at h
    · intro _; rfl
    · left; rfl
    · left; rfl
    · intro _; exact ⟨rfl, rfl, rfl⟩
    · right; exact hr
    · simp [Instr.readRegs]
  | ccBlock dh doff ctr n0 n1 n2 => exact blockPrefix_ends s 64 (by omega) dh doff ctr _ _ rfl rfl rfl rfl rfl rfl rfl
  | ccCreatekey dh doff ctr n0 n1 n2 => exact blockPrefix_ends s 32 (by omega) dh doff ctr _ _ rfl rfl rfl rfl rfl rfl rfl
  | ccEncrypt sh soff dh doff len n0 n1 n2 =>
    exact stream_ends s sh soff dh doff len _ _ rfl rfl rfl rfl rfl rfl rfl rfl rfl
  | ccDecrypt sh soff dh doff len n0 n1 n2 =>
    exact stream_ends s sh soff dh doff len _ _ rfl rfl rfl rfl rfl rfl rfl rfl rfl
  | pSign mh moff mlen kh koff th toff =>
    refine checked_ends s (.pSign mh moff mlen kh koff th toff) _ rfl fun hr => ⟨_, rfl, .success _ ?_⟩
    exact stores_ends s _ ⟨th, toff, 16⟩ _ rfl (polyTag_length _ _) (hr _ (by simp [Instr.regions])) hr
      (by simp [Instr.readRegs]) rfl rfl
  | pVerify mh moff mlen kh koff th toff =>
    refine checked_ends s (.pVerify mh moff mlen kh koff th toff) _ rfl fun hr => ⟨_, rfl, .success _ ?_⟩
    exact completes_ends s _ _ (fun _ => rfl) hr rfl rfl rfl
  | aSign ah aoff alen ch coff clen kh koff th toff =>
    refine checked_ends s (.aSign ah aoff alen ch coff clen kh koff th toff) _ rfl fun hr => ⟨_, rfl, .success _ ?_⟩
    exact stores_ends s _ ⟨th, toff, 16⟩ _ rfl (polyTag_length _ _) (hr _ (by simp [Instr.regions])) hr
      (by simp [Instr.readRegs]) rfl rfl
  | aVerify ah aoff alen ch coff clen kh koff th toff =>
    refine checked_ends s (.aVerify ah aoff alen ch coff clen kh koff th toff) _ rfl fun hr => ⟨_, rfl, .success _ ?_⟩
    exact completes_ends s _ _ (fun _ => rfl) hr rfl rfl rfl
  | fAdd fd fa fb => exact fieldBinary_ends s _ fd fa fb _ rfl rfl rfl rfl
  | fSub fd fa fb => exact fieldBinary_ends s _ fd fa fb _ rfl rfl rfl rfl
  | fMul fd fa fb => exact fieldBinary_ends s _ fd fa fb _ rfl rfl rfl rfl
  | fSqr fd fa => exact fieldUnary_ends s _ fd fa _ rfl rfl rfl rfl
  | fMul121666 fd fa => exact fieldUnary_ends s _ fd fa _ rfl rfl rfl rfl
  | fInv fd fa => exact fieldUnary_ends s _ fd fa _ rfl rfl rfl rfl
  | fCswap fa fb bit =>
    by_cases ha : (s.feReg fa).written = true
    · by_cases hb : (s.feReg fb).written = true
      · refine ⟨_, ?_, .success (((s.writeFe fa (cswapLimbs bit (s.feReg fa).limbs (s.feReg fb).limbs).1).writeFe fb
          (cswapLimbs bit (s.feReg fa).limbs (s.feReg fb).limbs).2).complete false) ?_⟩
        · show execFCswap fa fb bit s = _
          unfold execFCswap
          rw [State.readFe_marked (s := s) ha, State.readFe_marked (s := s) hb]
          rfl
        · constructor <;> try rfl
          · exact ⟨false, rfl, by simp⟩
          · intro j hj
            simp [Instr.writesFe] at hj
            show ((s.writeFe fa _).writeFe fb _).feReg j = _
            rw [State.feReg_writeFe, if_neg hj.2, State.feReg_writeFe, if_neg hj.1]
          · intro j hj
            simp [Instr.writesFe] at hj
            show (((s.writeFe fa _).writeFe fb _).feReg j).written = _
            rw [State.feReg_writeFe]
            split
            · rfl
            · rename_i hn
              rw [State.feReg_writeFe, if_pos (by tauto)]
          · intro _; rfl
          · simp [Instr.setsKey]
          · left; rfl
          · left; rfl
          · intro _; exact ⟨rfl, rfl, rfl⟩
          · right; simp [Instr.regions]
          · simp [Instr.readRegs, State.marked, ha, hb]
      · refine ⟨s.addFault (.unwrittenRead (.fe fb)), ?_, .unwritten (.fe fb) (by simp [Instr.readRegs]) (by simpa [State.marked] using hb)⟩
        show execFCswap fa fb bit s = _
        unfold execFCswap
        rw [State.readFe_marked (s := s) ha, State.readFe_unmarked (s := s) (by simpa using hb)]
        rfl
    · refine ⟨s.addFault (.unwrittenRead (.fe fa)), ?_, .unwritten (.fe fa) (by simp [Instr.readRegs]) (by simpa [State.marked] using ha)⟩
      show execFCswap fa fb bit s = _
      unfold execFCswap
      rw [State.readFe_unmarked (s := s) (by simpa using ha)]
      rfl
  | fDecode fd sh soff =>
    refine checked_ends s (.fDecode fd sh soff) _ rfl fun hr => ?_
    rcases ho : decodeLimbs s.params.decodeOrder (s.readRegion ⟨sh, soff, 32⟩) with _ | h
    · exact ⟨s.addFault .arithOverflow, rfl, .overflow⟩
    · refine ⟨_, rfl, .success _ ?_⟩
      constructor <;> try rfl
      · exact ⟨false, rfl, by simp⟩
      · intro j hj
        simp [Instr.writesFe] at hj
        show (s.writeFe fd _).feReg j = _
        rw [State.feReg_writeFe, if_neg hj]
      · intro j hj
        simp [Instr.writesFe] at hj
        show ((s.writeFe fd _).feReg j).written = _
        rw [State.feReg_writeFe, if_pos hj]
      · intro _; rfl
      · simp [Instr.setsKey]
      · left; rfl
      · left; rfl
      · intro _; exact ⟨rfl, rfl, rfl⟩
      · right; exact hr
      · simp [Instr.readRegs]
  | fEncode fa dh doff =>
    refine checked_ends s (.fEncode fa dh doff) _ rfl fun hr => ?_
    by_cases ha : (s.feReg fa).written = true
    · rw [State.readFe_marked (s := s) ha]
      rcases ho : encodeLimbs (s.feReg fa).limbs.toInts with _ | b
      · refine ⟨s.addFault .arithOverflow, ?_, .overflow⟩
        simp [bind, Except.bind, ho, arith]
      · refine ⟨(s.memWrite dh doff b).complete false, ?_, .success _ ?_⟩
        · simp [bind, Except.bind, pure, Except.pure, ho, arith]
        · exact stores_ends s _ ⟨dh, doff, 32⟩ b rfl (encodeLimbs_length ho) (hr _ (by simp [Instr.regions])) hr
            (by simp [Instr.readRegs, State.marked, ha]) rfl rfl
    · rw [State.readFe_unmarked (s := s) (by simpa using ha)]
      exact ⟨s.addFault (.unwrittenRead (.fe fa)), rfl, .unwritten (.fe fa) (by simp [Instr.readRegs]) (by simpa [State.marked] using ha)⟩

end Sys2Proof.Machine
end

