-- ==== Sys2Proof/Laws/PerInstr.lean ====
section
/-! SUPPORT. A law of every command as syntax: its frame is a command word whose opcode names a row of the map, followed by as
many argument words as that row's NARGS (30_encoding.md R90, R95, R99). -/

namespace Sys2Proof.Laws.FrameShape

/-- The frame of a command has the shape its opcode fixes. -/
def Statement (i : Instr) : Prop :=
  ∃ w0 args o, encode i = w0 :: args ∧ Opcode.ofCode (fieldOpc w0) = some o ∧ args.length = o.nargs

theorem keyEq (h1 off1 h2 off2 : Word) : Statement (.keyEq h1 off1 h2 off2) :=
  ⟨_, _, .keyEq, rfl, by rw [fieldOpc_commandWord]; rfl, rfl⟩

theorem macEq (h1 off1 h2 off2 : Word) : Statement (.macEq h1 off1 h2 off2) :=
  ⟨_, _, .macEq, rfl, by rw [fieldOpc_commandWord]; rfl, rfl⟩

theorem ccSetkey (kh koff : Word) : Statement (.ccSetkey kh koff) :=
  ⟨_, _, .ccSetkey, rfl, by rw [fieldOpc_commandWord]; rfl, rfl⟩

theorem ccBlock (dh doff ctr n0 n1 n2 : Word) : Statement (.ccBlock dh doff ctr n0 n1 n2) :=
  ⟨_, _, .ccBlock, rfl, by rw [fieldOpc_commandWord]; rfl, rfl⟩

theorem ccEncrypt (sh soff dh doff len n0 n1 n2 : Word) : Statement (.ccEncrypt sh soff dh doff len n0 n1 n2) :=
  ⟨_, _, .ccEncrypt, rfl, by rw [fieldOpc_commandWord]; rfl, rfl⟩

theorem ccDecrypt (sh soff dh doff len n0 n1 n2 : Word) : Statement (.ccDecrypt sh soff dh doff len n0 n1 n2) :=
  ⟨_, _, .ccDecrypt, rfl, by rw [fieldOpc_commandWord]; rfl, rfl⟩

theorem ccCreatekey (dh doff ctr n0 n1 n2 : Word) : Statement (.ccCreatekey dh doff ctr n0 n1 n2) :=
  ⟨_, _, .ccCreatekey, rfl, by rw [fieldOpc_commandWord]; rfl, rfl⟩

theorem pSign (mh moff mlen kh koff th toff : Word) : Statement (.pSign mh moff mlen kh koff th toff) :=
  ⟨_, _, .pSign, rfl, by rw [fieldOpc_commandWord]; rfl, rfl⟩

theorem pVerify (mh moff mlen kh koff th toff : Word) : Statement (.pVerify mh moff mlen kh koff th toff) :=
  ⟨_, _, .pVerify, rfl, by rw [fieldOpc_commandWord]; rfl, rfl⟩

theorem aSign (ah aoff alen ch coff clen kh koff th toff : Word) :
    Statement (.aSign ah aoff alen ch coff clen kh koff th toff) :=
  ⟨_, _, .aSign, rfl, by rw [fieldOpc_commandWord]; rfl, rfl⟩

theorem aVerify (ah aoff alen ch coff clen kh koff th toff : Word) :
    Statement (.aVerify ah aoff alen ch coff clen kh koff th toff) :=
  ⟨_, _, .aVerify, rfl, by rw [fieldOpc_commandWord]; rfl, rfl⟩

theorem fAdd (fd fa fb : FeIdx) : Statement (.fAdd fd fa fb) :=
  ⟨_, _, .fAdd, rfl, by rw [fieldOpc_commandWord]; rfl, rfl⟩

theorem fSub (fd fa fb : FeIdx) : Statement (.fSub fd fa fb) :=
  ⟨_, _, .fSub, rfl, by rw [fieldOpc_commandWord]; rfl, rfl⟩

theorem fMul (fd fa fb : FeIdx) : Statement (.fMul fd fa fb) :=
  ⟨_, _, .fMul, rfl, by rw [fieldOpc_commandWord]; rfl, rfl⟩

theorem fSqr (fd fa : FeIdx) : Statement (.fSqr fd fa) :=
  ⟨_, _, .fSqr, rfl, by rw [fieldOpc_commandWord]; rfl, rfl⟩

theorem fMul121666 (fd fa : FeIdx) : Statement (.fMul121666 fd fa) :=
  ⟨_, _, .fMul121666, rfl, by rw [fieldOpc_commandWord]; rfl, rfl⟩

theorem fInv (fd fa : FeIdx) : Statement (.fInv fd fa) :=
  ⟨_, _, .fInv, rfl, by rw [fieldOpc_commandWord]; rfl, rfl⟩

theorem fCswap (fa fb : FeIdx) (bit : BitVec 1) : Statement (.fCswap fa fb bit) :=
  ⟨_, _, .fCswap, rfl, by rw [fieldOpc_commandWord]; rfl, rfl⟩

theorem fDecode (fd : FeIdx) (sh soff : Word) : Statement (.fDecode fd sh soff) :=
  ⟨_, _, .fDecode, rfl, by rw [fieldOpc_commandWord]; rfl, rfl⟩

theorem fEncode (fa : FeIdx) (dh doff : Word) : Statement (.fEncode fa dh doff) :=
  ⟨_, _, .fEncode, rfl, by rw [fieldOpc_commandWord]; rfl, rfl⟩

end Sys2Proof.Laws.FrameShape
end

