-- ==== Sys2Proof/Laws/Steps.lean ====
section
/-! SUPPORT. What a step can do, said once: whose move it was, and what a host action keeps. -/

namespace Sys2Proof.Machine

/-- A step whose move is a host action. -/
theorem step_host {s : State} {a : HostAction} {rest : List Move} (h : s.Running) (ha : s.agenda = .host a :: rest) :
    step s = hostStep a { s with agenda := rest } := by
  unfold step machineStep moveStep
  rw [h.1, ha]
  simp [h.2]

/-- Where a next state comes from: the state was running, and the move was a host action or a turn of the core. -/
theorem step_next {s t : State} (h : step s = .next t) : s.Running ∧
    ((∃ rest a, s.agenda = .host a :: rest ∧ hostStep a { s with agenda := rest } = .next t) ∨
     (∃ rest, (s.agenda = [] ∧ rest = [] ∨ s.agenda = .core :: rest) ∧ coreStep { s with agenda := rest } = .next t)) := by
  unfold step machineStep at h
  split at h
  · cases h
  · rename_i hf
    split at h
    · cases h
    · rename_i hr
      refine ⟨⟨hf, by simpa using hr⟩, ?_⟩
      unfold moveStep at h
      split at h
      · rename_i ha
        right; refine ⟨[], .inl ⟨ha, rfl⟩, ?_⟩
        rw [← h]; congr 1; cases s; simp_all
      · rename_i rest ha
        right; exact ⟨rest, .inr ha, h⟩
      · rename_i a rest ha
        left; exact ⟨rest, a, ha, h⟩

/-- What a host action keeps: the parameters, KEY, CTR but for H_WRCTR, every recorded fault, the refusal, every written mark. -/
theorem hostStep_keeps {a : HostAction} {s t : State} (h : hostStep a s = .next t) :
    t.params = s.params ∧ t.key = s.key ∧ (t.ctr = s.ctr ∨ ∃ v, a = .wrCtr v) ∧ (∀ f ∈ s.fault, f ∈ t.fault) ∧
    (s.refused = true → t.refused = true) ∧ (∀ r, s.marked r = true → t.marked r = true) := by
  unfold hostStep at h
  split at h
  · cases h
  split at h
  · cases h
    refine ⟨rfl, rfl, .inl rfl, ?_, id, fun r h => by cases r <;> exact h⟩
    intro f hf
    simp only [State.addFault_fault]
    split <;> simp [hf]
  unfold hostEffect at h
  cases a with
  | issue frame => cases h; exact ⟨rfl, rfl, .inl rfl, fun _ h => h, id, fun r h => by cases r <;> exact h⟩
  | rdStatus => cases h; exact ⟨rfl, rfl, .inl rfl, fun _ h => h, id, fun r h => by cases r <;> exact h⟩
  | rdFe i =>
    simp only [hostRdFe] at h
    split at h
    · cases h
    · rename_i j _
      by_cases hw : (s.feReg j).written = true
      · rw [State.readFe_marked (s := s) hw] at h
        cases h; exact ⟨rfl, rfl, .inl rfl, fun _ h => h, id, fun r h => by cases r <;> exact h⟩
      · rw [State.readFe_unmarked (s := s) (by simpa using hw)] at h
        cases h
        refine ⟨rfl, rfl, .inl rfl, ?_, id, fun r h => by cases r <;> exact h⟩
        intro f hf
        simp only [State.stopped_fault, State.addFault_fault]
        split <;> simp [hf]
  | wrFe i v =>
    simp only [hostWrFe] at h
    split at h
    · cases h
    · rename_i j _
      cases h; refine ⟨rfl, rfl, .inl rfl, fun _ h => h, id, fun r h => ?_⟩
      cases r with
      | fe k =>
        show ((s.writeFe j v).feReg k).written = true
        rw [State.feReg_writeFe]; split
        · rfl
        · exact h
      | _ => exact h
  | rdCtr =>
    simp only [hostRdCtr] at h
    by_cases hw : s.ctr.written = true
    · rw [State.readCtr_marked (s := s) hw] at h
      cases h; exact ⟨rfl, rfl, .inl rfl, fun _ h => h, id, fun r h => by cases r <;> exact h⟩
    · rw [State.readCtr_unmarked (s := s) (by simpa using hw)] at h
      cases h
      refine ⟨rfl, rfl, .inl rfl, ?_, id, fun r h => by cases r <;> exact h⟩
      intro f hf
      simp only [State.stopped_fault, State.addFault_fault]
      split <;> simp [hf]
  | wrCtr v =>
    cases h; refine ⟨rfl, rfl, .inr ⟨v, rfl⟩, fun _ h => h, id, fun r h => by cases r <;> first | rfl | exact h⟩
  | bufAlloc x n => cases h; exact ⟨rfl, rfl, .inl rfl, fun _ h => h, id, fun r h => by cases r <;> exact h⟩
  | bufFree x => cases h; exact ⟨rfl, rfl, .inl rfl, fun _ h => h, id, fun r h => by cases r <;> exact h⟩
  | bufWrite x o b => cases h; exact ⟨rfl, rfl, .inl rfl, fun _ h => h, id, fun r h => by cases r <;> exact h⟩
  | bufRead x o n => cases h; exact ⟨rfl, rfl, .inl rfl, fun _ h => h, id, fun r h => by cases r <;> exact h⟩

end Sys2Proof.Machine
end

