-- ==== Sys2Proof/Machine/Assembler.lean ====
section
/-! DEFINITION. The assembler's mnemonics and pseudo-instructions (30_encoding.md R100, R101). Nothing in a step uses them. -/

namespace Sys2Proof.Machine

/-- The mnemonic of a command (R100). -/
def mnemonicOf : Instr → String
  | .keyEq _ _ _ _ => "key.eq"
  | .macEq _ _ _ _ => "mac.eq"
  | .ccSetkey _ _ => "cc.setkey"
  | .ccBlock _ _ _ _ _ _ => "cc.block"
  | .ccEncrypt _ _ _ _ _ _ _ _ => "cc.encrypt"
  | .ccDecrypt _ _ _ _ _ _ _ _ => "cc.decrypt"
  | .ccCreatekey _ _ _ _ _ _ => "cc.createkey"
  | .pSign _ _ _ _ _ _ _ => "p.sign"
  | .pVerify _ _ _ _ _ _ _ => "p.verify"
  | .aSign _ _ _ _ _ _ _ _ _ _ => "a.sign"
  | .aVerify _ _ _ _ _ _ _ _ _ _ => "a.verify"
  | .fAdd _ _ _ => "f.add"
  | .fSub _ _ _ => "f.sub"
  | .fMul _ _ _ => "f.mul"
  | .fSqr _ _ => "f.sqr"
  | .fMul121666 _ _ => "f.mul121666"
  | .fInv _ _ => "f.inv"
  | .fCswap _ _ _ => "f.cswap"
  | .fDecode _ _ _ => "f.decode"
  | .fEncode _ _ _ => "f.encode"

/-- `cc.polykey dh, doff, n0, n1, n2` (R101): the counter is 0. -/
def pseudoPolykey (dh doff n0 n1 n2 : Word) : Instr := .ccCreatekey dh doff 0#32 n0 n1 n2

/-- `f.swap fa, fb` (R101): the unconditional swap. -/
def pseudoSwap (fa fb : FeIdx) : Instr := .fCswap fa fb 1#1

/-- `f.nop fa` (R101): a no-op that still faults on an unwritten register. -/
def pseudoNop (fa : FeIdx) : Instr := .fCswap fa fa 0#1

end Sys2Proof.Machine
end

