-- ==== Sys2Proof/Tests/Slice0.lean ====
section
/-! SUPPORT. The model's own tests. Every expected value is copied from spec/ (mostly 95_test_vectors.md, by its vector's
number) or computed by hand from a rule. Byte strings are given as the number whose little-endian bytes they are. -/

namespace Sys2Proof.Tests

open Sys2Proof.Machine

set_option Elab.async false

/-! ### Small states -/

/-- A present buffer that holds a byte string. -/
def bufferOf (bytes : List Byte) : Buffer := (Buffer.zeros bytes.length).write 0 bytes

/-- A fresh instance with buffers in slots 0, 1, ... -/
def withBuffers (bs : List (List Byte)) : State :=
  { State.reset with buf := bs.zipIdx.map fun e => (e.2, bufferOf e.1) }

/-- A register's limbs from integers. -/
def reg (v : Limbs Int) : Limbs Word := v.toWords

/-- A fresh instance with `FE[0]` and `FE[1]` written. -/
def withRegs (f g : Limbs Int) : State := (State.reset.writeFe 0 (reg f)).writeFe 1 (reg g)

/-- The state with `KEY` and `CTR` written. -/
def keyed (s : State) (k : Vector Word 8) (c : Word) : State := (s.writeKey k).writeCtr c

/-- The next state of an outcome. -/
def nextOf (r : Result) : Option State :=
  match r with
  | .next t => some t
  | .fault _ => none
  | .refused _ => none

/-- The status word a meaning leaves. -/
def statusAfter (r : Result) : Option Word := (nextOf r).map fun t => t.status.word

/-- Bytes of memory after a meaning. -/
def bytesAfter (r : Result) (h off n : Nat) : Option (List Byte) := (nextOf r).map fun t => t.buf.read h off n

/-- A field register after a meaning. -/
def feAfter (r : Result) (i : FeIdx) : Option (Limbs Int) := (nextOf r).map fun t => t.feInts i

/-- The faults recorded after a meaning. -/
def faultsAfter (r : Result) : Option (List Fault) := (nextOf r).map fun t => t.fault

/-- The key words of the bytes 00 01 .. 1f (R140). -/
def seqKey : Vector Word 8 :=
  #v[0x03020100#32, 0x07060504#32, 0x0b0a0908#32, 0x0f0e0d0c#32, 0x13121110#32, 0x17161514#32, 0x1b1a1918#32, 0x1f1e1d1c#32]

/-- The key words of the bytes 80 81 .. 9f (V15). -/
def key80 : Vector Word 8 :=
  #v[0x83828180#32, 0x87868584#32, 0x8b8a8988#32, 0x8f8e8d8c#32, 0x93929190#32, 0x97969594#32, 0x9b9a9998#32, 0x9f9e9d9c#32]

def zeroKey : Vector Word 8 := Vector.replicate 8 0#32

/-- The key and message of V3. -/
def v3Key : List Byte := leBytes 32 0x1bf54941aff6bf4afdb20dfb8a800301a806d542fe52447f336d555778bed685
def v3Msg : List Byte := leBytes 34 0x70756f7247206863726165736552206d75726f4620636968706172676f7470797243

/-- The bytes 00 01 .. 1f. -/
def seqBytes : List Byte := (List.range 32).map (BitVec.ofNat 8)

/-! ### Well-formedness: an ill-formed term for each check -/

theorem test_wf_refuses_fd : (Instr.fAdd 8 0 0).wf 8 = false := by decide
theorem test_wf_refuses_fa : (Instr.fAdd 0 8 0).wf 8 = false := by decide
theorem test_wf_refuses_fb : (Instr.fAdd 0 0 8).wf 8 = false := by decide
theorem test_wf_accepts : (Instr.fAdd 7 7 7).wf 8 = true := by decide
theorem test_params_refuse_nfe_zero : ¬ ({ Config.defaults with nfe := 0 } : Params).Legal := by decide
theorem test_params_refuse_nfe_17 : ¬ ({ Config.defaults with nfe := 17 } : Params).Legal := by decide
theorem test_params_refuse_nbuf_zero : ¬ ({ Config.defaults with nbuf := 0 } : Params).Legal := by decide
theorem test_params_accept_defaults : Config.defaults.Legal := by decide

/-! ### Decoding: for every constructor a frame written out from the map of R95 (most from 95_test_vectors.md) -/

theorem test_decode_keyEq : decode 16 [0x00000001, 1, 0, 1, 0x40] = .ok (.keyEq 1 0 1 0x40) := by decide
theorem test_decode_macEq : decode 16 [0x00000002, 0, 0, 0, 1] = .ok (.macEq 0 0 0 1) := by decide
theorem test_decode_ccSetkey : decode 16 [0x00000010, 0, 5] = .ok (.ccSetkey 0 5) := by decide
theorem test_decode_ccBlock : decode 16 [0x00000011, 1, 0x40, 2, 0x09000000, 0x4a000000, 3] =
    .ok (.ccBlock 1 0x40 2 0x09000000 0x4a000000 3) := by decide
theorem test_decode_ccEncrypt : decode 16 [0x00000012, 3, 1, 4, 2, 0x72, 7, 0x43424140, 0x47464544] =
    .ok (.ccEncrypt 3 1 4 2 0x72 7 0x43424140 0x47464544) := by decide
theorem test_decode_ccDecrypt : decode 16 [0x00000013, 2, 0, 3, 0, 0x72, 0, 0x4a000000, 1] =
    .ok (.ccDecrypt 2 0 3 0 0x72 0 0x4a000000 1) := by decide
theorem test_decode_ccCreatekey : decode 16 [0x00000014, 1, 0, 0, 7, 0x43424140, 0x47464544] =
    .ok (pseudoPolykey 1 0 7 0x43424140 0x47464544) := by decide
theorem test_decode_pSign : decode 16 [0x00000020, 1, 2, 3, 4, 5, 6, 7] = .ok (.pSign 1 2 3 4 5 6 7) := by decide
theorem test_decode_pVerify : decode 16 [0x00000021, 1, 2, 3, 4, 5, 6, 7] = .ok (.pVerify 1 2 3 4 5 6 7) := by decide
theorem test_decode_aSign : decode 16 [0x00000022, 2, 0, 0xc, 4, 0, 0x72, 1, 0, 5, 0] =
    .ok (.aSign 2 0 12 4 0 114 1 0 5 0) := by decide
theorem test_decode_aVerify : decode 16 [0x00000023, 2, 0, 0xc, 4, 0, 0x72, 1, 0, 5, 0] =
    .ok (.aVerify 2 0 12 4 0 114 1 0 5 0) := by decide
theorem test_decode_fAdd : decode 16 [0x00010230] = .ok (.fAdd 2 0 1) := by decide
theorem test_decode_fSub : decode 16 [0x00013431] = .ok (.fSub 4 3 1) := by decide
theorem test_decode_fMul : decode 16 [0x00097a32] = .ok (.fMul 10 7 9) := by decide
theorem test_decode_fSqr : decode 16 [0x00002433] = .ok (.fSqr 4 2) := by decide
theorem test_decode_fMul121666 : decode 16 [0x00007834] = .ok (.fMul121666 8 7) := by decide
theorem test_decode_fInv : decode 16 [0x00000235] = .ok (.fInv 2 0) := by decide
theorem test_decode_fCswap : decode 16 [0x00110036] = .ok (pseudoSwap 0 1) ∧ decode 16 [0x00055036] = .ok (pseudoNop 5) := by
  decide
theorem test_decode_fDecode : decode 16 [0x00000f37, 3, 4] = .ok (.fDecode 15 3 4) := by decide
theorem test_decode_fEncode : decode 16 [0x0000a038, 2, 0] = .ok (.fEncode 10 2 0) := by decide

/-- V52: illegal frames, each refused by the name of its condition. -/
theorem test_decode_refuses :
    decode 16 [] = .error .emptyFrame ∧ decode 16 [0x00000003] = .error .reservedOpcode ∧
    decode 16 [0x000000ff] = .error .reservedOpcode ∧ decode 16 [0x00100030] = .error .maskMismatch ∧
    decode 16 [0x00000136] = .error .maskMismatch ∧ decode 16 [0x00200035] = .error .maskMismatch ∧
    decode 16 [0x00000010, 0] = .error .wrongLength ∧ decode 16 [0x00000230, 0] = .error .wrongLength ∧
    decode 8 [0x00080030] = .error .indexOutOfRange := by decide

theorem test_encode_fAdd : encode (.fAdd 2 0 1) = [0x00010230] := by decide
theorem test_encode_fCswap : encode (.fCswap 0 1 1) = [0x00110036] := by decide

/-- A row of the table with its operand words 0 (R95): the frame is padded to `1 + NARGS` words. -/
theorem test_table_word : decodeTableWord 32 0x22 = some (.aSign 0 0 0 0 0 0 0 0 0 0) ∧ decodeTableWord 32 0x03 = none := by
  decide

/-- R90: a serialised frame is little-endian. -/
theorem test_frame_bytes : frameBytes [0x00010230] = [0x30, 0x02, 0x01, 0x00] := by decide

/-! ### Value types -/

/-- V50. -/
theorem test_keyEq_equal : statusAfter (execKeyEq 0 0 1 0 (withBuffers [leBytes 32 0, leBytes 32 0])) = some 2 := by decide +kernel
theorem test_keyEq_differs : statusAfter (execKeyEq 0 0 1 0 (withBuffers [leBytes 32 0, leBytes 32 (2 ^ 248)])) = some 0 := by
  decide +kernel

/-- V50, R117: a region with itself, and a region one byte beyond its buffer. -/
theorem test_macEq_self : statusAfter (execMacEq 0 0 0 0 (withBuffers [leBytes 16 0xa927010caf8b2bc2c6365130c11d06a8])) = some 2 := by
  decide +kernel
theorem test_macEq_beyond : statusAfter (execMacEq 0 0 0 1 (withBuffers [leBytes 16 0])) = some 0x10 := by decide +kernel

/-! ### ChaCha20 -/

/-- V2. -/
theorem test_quarterRound : (quarterRound #v[0x11111111, 0x01020304, 0x9b8d6f43, 0x01234567, 0, 0, 0, 0, 0, 0, 0, 0, 0, 0, 0, 0]
    0 1 2 3).toList.take 4 = [0xea2a92f4, 0xcb1cf8ce, 0x4581472e, 0x5881c4bb] := by decide

/-- V17. -/
theorem test_setkey_words : (nextOf (execCcSetkey 0 0 (withBuffers [seqBytes]))).map (fun t => (t.key.words.toList, t.key.written)) =
    some (seqKey.toList, true) := by decide +kernel
theorem test_setkey_short : (nextOf (execCcSetkey 0 0 (withBuffers [leBytes 31 0]))).map (fun t => (t.status.word, t.key.written)) =
    some (0x10, false) := by decide +kernel

/-- V1. -/
theorem test_block : bytesAfter (execCcBlock 0 0 1 0x09000000 0x4a000000 0 (keyed (withBuffers [leBytes 64 0]) seqKey 0)) 0 0 64 =
    some (leBytes 64 0x4e3c50a2e883d0cbb94e16ded19c12b5a2028bd905d7c21409aa9f07466482d24e6cd4c39aaa22040368c033c7f4d1c7c47120a31fdd0f5015593bd1e4e7f110) := by
  decide +kernel

/-- V54: no key was loaded. -/
theorem test_block_unwritten : faultsAfter (execCcBlock 0 0 1 0 0 0 (withBuffers [leBytes 64 0])) = some [.unwrittenRead .key] := by
  decide +kernel

/-- V12: "abc" under the zero key; only the destination changes. -/
theorem test_encrypt_short : bytesAfter (execCcEncrypt 0 0 1 1 3 0 0 0
    (keyed (withBuffers [[0x61, 0x62, 0x63], [1, 2, 3, 4, 5]]) zeroKey 0)) 1 0 5 = some [1, 0x17, 0xda, 0x83, 5] := by decide +kernel

/-- V18: ranges [0, 8) and [4, 12) of one buffer. -/
theorem test_encrypt_overlap : (nextOf (execCcEncrypt 0 0 0 4 8 0 0 0 (keyed (withBuffers [leBytes 16 0]) zeroKey 0))).map
    (fun t => (t.refused, t.buf.read 0 0 16)) = some (true, leBytes 16 0) := by decide +kernel

/-- V14 (L = 65 from zero bytes gives the keystream; byte 64 is the first of block 2), in place, with COUNTER_WRITEBACK. -/
theorem test_decrypt_second_block : (nextOf (execCcDecrypt 0 0 0 0 65 0 0x4a000000 0
    (keyed { withBuffers [leBytes 65 0] with params := { Config.defaults with counterWriteback := true } } seqKey 1))).map
    (fun t => (t.buf.read 0 0 1, t.buf.read 0 64 1, t.ctr)) = some ([0x22], [0x69], ⟨3, true⟩) := by decide +kernel

/-- V16: length 0 with a null source. -/
theorem test_decrypt_zero_length :
    statusAfter (execCcDecrypt 9 0 0 0 0 0 0 0 (withBuffers [[]])) = some 0x10 ∧
    statusAfter (execCcDecrypt 9 0 0 0 0 0 0 0
      { withBuffers [[]] with params := { Config.defaults with zeroLengthChecks := false } }) = some 0 := by decide +kernel

/-- V15. -/
theorem test_createkey : bytesAfter (execCcCreatekey 0 0 0 0 0x03020100 0x07060504 (keyed (withBuffers [leBytes 32 0]) key80 0)) 0 0 32 =
    some (leBytes 32 0x46a6d1fde2b8db08a50dfde337b633a87194b24a27405081cc815f908ba0d58a) := by decide +kernel

/-! ### Poly1305 -/

/-- V3 and V20. -/
theorem test_pSign : bytesAfter (execPSign 0 0 34 1 0 2 0 (withBuffers [v3Msg, v3Key, leBytes 16 0])) 2 0 16 =
    some (leBytes 16 0xa927010caf8b2bc2c6365130c11d06a8) := by decide +kernel
theorem test_pSign_empty : bytesAfter (execPSign 0 0 0 1 0 2 0 (withBuffers [v3Msg, v3Key, leBytes 16 0])) 2 0 16 =
    some (leBytes 16 0x1bf54941aff6bf4afdb20dfb8a800301) := by decide +kernel

/-- V25. -/
theorem test_pVerify : statusAfter (execPVerify 0 0 34 1 0 2 0
    (withBuffers [v3Msg, v3Key, leBytes 16 0xa927010caf8b2bc2c6365130c11d06a8])) = some 2 := by decide +kernel
theorem test_pVerify_tampered : statusAfter (execPVerify 0 0 34 1 0 2 0
    (withBuffers [v3Msg.set 0 0x42, v3Key, leBytes 16 0xa927010caf8b2bc2c6365130c11d06a8])) = some 0 := by decide +kernel

/-- V23: the three policies, over "header" and the bytes 00 .. 10. -/
def v23 (policy : AeadTail) (tag : List Byte) : State :=
  { withBuffers [leBytes 6 0x726564616568, seqBytes.take 17, v3Key, tag] with params := { Config.defaults with aeadTail := policy } }

theorem test_aSign :
    bytesAfter (execASign 0 0 6 1 0 17 2 0 3 0 (v23 .tailZero (leBytes 16 0))) 3 0 16 =
      some (leBytes 16 0x89ddbf79784c8cd0cddb20097b6a8162) ∧
    bytesAfter (execASign 0 0 6 1 0 17 2 0 3 0 (v23 .allOne (leBytes 16 0))) 3 0 16 =
      some (leBytes 16 0x87c89f2bb3576e871b2d7afccf374107) ∧
    bytesAfter (execASign 0 0 6 1 0 17 2 0 3 0 (v23 .allZero (leBytes 16 0))) 3 0 16 =
      some (leBytes 16 0x949572a7cc16a01a8089cc73096dfbf4) := by decide +kernel
theorem test_aVerify : statusAfter (execAVerify 0 0 6 1 0 17 2 0 3 0
    (v23 .tailZero (leBytes 16 0x89ddbf79784c8cd0cddb20097b6a8162))) = some 2 := by decide +kernel
theorem test_aVerify_other_policy : statusAfter (execAVerify 0 0 6 1 0 17 2 0 3 0
    (v23 .allOne (leBytes 16 0x89ddbf79784c8cd0cddb20097b6a8162))) = some 0 := by decide +kernel

/-! ### Field -/

def one : Limbs Int := ⟨1, 0, 0, 0, 0, 0, 0, 0, 0, 0⟩
def two : Limbs Int := ⟨2, 0, 0, 0, 0, 0, 0, 0, 0, 0⟩

/-- Decode(A) and Decode(B) of V30. -/
def decA : Limbs Int := ⟨(-9012136), (-13234584), 1255469, (-1708242), 24060911, (-7221705), 9432934, (-8563176), (-15788985), (-10636019)⟩
def decB : Limbs Int := ⟨23723580, 14886831, (-4975395), (-13672212), (-31538491), (-9641232), 8847236, (-8684828), (-8948943), (-15035166)⟩

/-- V32. -/
theorem test_fAdd : feAfter (execFAdd 2 0 1 (withRegs ⟨1, 2, 3, 4, 5, 6, 7, 8, 9, 10⟩ ⟨10, 9, 8, 7, 6, 5, 4, 3, 2, 1⟩)) 2 =
    some ⟨11, 11, 11, 11, 11, 11, 11, 11, 11, 11⟩ := by decide +kernel
theorem test_fAdd_overflow : faultsAfter (execFAdd 0 0 1 (withRegs ⟨2147483647, 0, 0, 0, 0, 0, 0, 0, 0, 0⟩ one)) =
    some [.arithOverflow] := by decide +kernel
theorem test_fSub : feAfter (execFSub 0 0 1 (withRegs one two)) 0 = some ⟨-1, 0, 0, 0, 0, 0, 0, 0, 0, 0⟩ := by decide +kernel

/-- V35 and V36. -/
theorem test_fMul : feAfter (execFMul 1 0 1 (withRegs decA decB)) 1 = some ⟨(-27455005), (-16148036), (-30420718), 1302894, (-11681880), (-1116178), (-9997604), 10412495, 16105083, 14323677⟩ := by
  decide +kernel
theorem test_fMul_overflow : faultsAfter (execFMul 0 0 1
    (withRegs ⟨0, 0, 0, 0, 0, 0, 0, 0, 0, 1073741824⟩ ⟨0, 0, 0, 0, 0, 0, 0, 0, 0, 1073741824⟩)) = some [.arithOverflow] := by
  decide +kernel
theorem test_fSqr : feAfter (execFSqr 0 0 (withRegs decA one)) 0 = some ⟨6662907, (-4392136), (-16138925), (-9055562), 32924918, 4339663, (-12706695), 16372634, (-27634086), (-10939107)⟩ := by
  decide +kernel
theorem test_fSqr_top : feAfter (execFSqr 0 1 (withRegs one ⟨0, 0, 0, 0, 0, 0, 0, 0, 0, 1⟩)) 0 =
    some ⟨0, 0, 0, 0, 0, 0, 0, 0, 38, 0⟩ := by decide +kernel

/-- V34. -/
theorem test_fMul121666_ref10 : feAfter (execFMul121666 1 0 (withRegs ⟨60110000, 137, 0, 0, 0, 0, 0, 0, 0, 0⟩ one)) 1 =
    some ⟨20587872, 16777219, 0, 0, 0, 0, 0, 0, 0, 0⟩ := by decide +kernel
theorem test_fMul121666_mulOrder : feAfter (execFMul121666 1 0 { withRegs ⟨60110000, 137, 0, 0, 0, 0, 0, 0, 0, 0⟩ one with
    params := { Config.defaults with mul121666Order := .mulOrder } }) 1 =
    some ⟨20587872, -16777213, 1, 0, 0, 0, 0, 0, 0, 0⟩ := by decide +kernel

/-- V38. -/
theorem test_fCswap : (nextOf (execFCswap 0 1 1 (withRegs ⟨0, 1, 2, 3, 4, 5, 6, 7, 8, 9⟩ (Limbs.const (-1))))).map
    (fun t => (t.feInts 0, t.feInts 1)) = some (Limbs.const (-1), ⟨0, 1, 2, 3, 4, 5, 6, 7, 8, 9⟩) := by decide +kernel
theorem test_fCswap_clear : (nextOf (execFCswap 0 1 0 (withRegs ⟨0, 1, 2, 3, 4, 5, 6, 7, 8, 9⟩ (Limbs.const (-1))))).map
    (fun t => (t.feInts 0, t.feInts 1)) = some (⟨0, 1, 2, 3, 4, 5, 6, 7, 8, 9⟩, Limbs.const (-1)) := by decide +kernel

/-- V33: the carry orders differ; V30: A, whose top bit is dropped. -/
theorem test_fDecode_orders :
    feAfter (execFDecode 4 0 0 (withBuffers [leBytes 32 0x3fffffe000000])) 4 = some ⟨-33554432, 16777216, 0, 0, 0, 0, 0, 0, 0, 0⟩ ∧
    feAfter (execFDecode 4 0 0 { withBuffers [leBytes 32 0x3fffffe000000] with
      params := { Config.defaults with decodeOrder := .sequential } }) 4 =
      some ⟨-33554432, -16777216, 1, 0, 0, 0, 0, 0, 0, 0⟩ := by decide +kernel
theorem test_fDecode : feAfter (execFDecode 4 0 0 (withBuffers [leBytes 32 0xd76d4330f1446beab0c11fdecb91ce375bc8fbbcbde5c0994164d8399f767c45])) 4 = some decA := by
  decide +kernel

/-- V31: A with its top bit cleared; p - 1. -/
theorem test_fEncode : bytesAfter (execFEncode 0 0 0 { withRegs decA one with buf := [(0, Buffer.zeros 32)] }) 0 0 32 =
    some (leBytes 32 0x576d4330f1446beab0c11fdecb91ce375bc8fbbcbde5c0994164d8399f767c45) := by decide +kernel
theorem test_fEncode_minus_one : bytesAfter (execFEncode 0 0 0
    { withRegs ⟨-1, 0, 0, 0, 0, 0, 0, 0, 0, 0⟩ one with buf := [(0, Buffer.zeros 32)] }) 0 0 32 =
    some (leBytes 32 0x7fffffffffffffffffffffffffffffffffffffffffffffffffffffffffffffec) := by decide +kernel

/-! ### Steps -/

/-- The first steps of a run: the agenda's moves from a fresh instance. -/
def afterMoves (ms : List Move) : Host.Outcome State Fault Refusal := core.run ms.length { State.reset with agenda := ms }

/-- V55: a second action before the core's step. -/
theorem test_busy_hazard : faultsAfter (afterMoves [.host (.issue [0x38, 9, 0]), .host (.wrCtr 5)]) = some [.hostHazard] := by
  decide +kernel

/-- V53: an encode of an unwritten register into a null buffer is an error, not a fault; the host then reads the status. -/
theorem test_priority : (nextOf (afterMoves [.host (.issue [0x38, 9, 0]), .core, .host .rdStatus])).map (fun t => t.reply) =
    some (.word 0x10) := by decide +kernel

/-- V54: `fa` is read first, PEND stays full and BUSY stays 1, and the next step answers the fault (R270). -/
theorem test_fault_keeps_pend : (nextOf (afterMoves [.host (.issue [0x00021030]), .core])).map
    (fun t => (t.fault, t.pend, t.status.word)) = some ([.unwrittenRead (.fe 1)], some [0x00021030], 1) := by decide +kernel
theorem test_fault_stops : (match afterMoves [.host (.issue [0x00021030]), .core, .host .rdStatus] with
    | .fault f => some f
    | .next _ => none
    | .refused _ => none) = some (.unwrittenRead (.fe 1)) := by decide +kernel

/-- V52: an illegal frame. -/
theorem test_illegal_frame : statusAfter (step (State.reset.withFetchWord 32 0x00100030)) = some 0x20 := by decide +kernel

/-- The word of an opcode-table row runs as the first instruction after reset; every slot is absent (V56). -/
theorem test_fetch_word : statusAfter (step (State.reset.withFetchWord 32 0x10)) = some 0x10 := by decide +kernel

/-! ### F_INV, by the equations of its multiplications (R231) -/

theorem sq_one : sqLimbs one = some one := by decide +kernel
theorem mul_one_one : mulLimbs one one = some one := by decide +kernel
theorem sq_zero : sqLimbs (Limbs.const 0) = some (Limbs.const 0) := by decide +kernel
theorem mul_zero_zero : mulLimbs (Limbs.const 0) (Limbs.const 0) = some (Limbs.const 0) := by decide +kernel
theorem sqTimes_fixed (f : Limbs Int) (h : sqLimbs f = some f) (n : Nat) : sqTimes n f = some f := by
  induction n with
  | zero => rfl
  | succ n ih => simp [sqTimes, h, ih]
theorem inv_fixed (f : Limbs Int) (h : sqLimbs f = some f) (m : mulLimbs f f = some f) : invLimbs f = some f := by
  unfold invLimbs
  simp only [h, m, sqTimes_fixed f h, bind, Option.bind]

/-- R233: the inverse of 0 is 0; and the inverse of 1 is 1. -/
theorem test_fInv_zero : invLimbs (Limbs.const 0) = some (Limbs.const 0) := inv_fixed _ sq_zero mul_zero_zero
theorem test_fInv_one : invLimbs one = some one := inv_fixed _ sq_one mul_one_one

/-! ### Witnesses: for each obligation with hypotheses, a state and operands that meet all of them together, one for each clause -/

/-- A running machine: buffers of 64, 64 and 32 bytes in slots 0 to 2, `KEY`, `CTR`, `FE[0]` and `FE[1]` written. -/
def ready : State :=
  keyed { withRegs decA decB with buf := [(0, ⟨64, [(0, 7), (63, 9)]⟩), (1, Buffer.zeros 64), (2, Buffer.zeros 32)] } seqKey 1

/-- The same with a frame pending. -/
def waiting (frame : List Word) : State := { ready with pend := some frame, status := ready.status.issued }

/-- The same with moves to come. -/
def withAgenda (s : State) (ms : List Move) : State := { s with agenda := ms }

theorem exec_answers (i : Instr) (s : State) : ∃ t, exec i s = .next t := exec_total s i
theorem fits (r : Region) (h : ready.regionOk r = true) : ¬ ready.RegionBad r := (ready.regionGood_iff r).2 h
theorem apart_slots {r q : Region} (h : r.h.toNat ≠ q.h.toNat) : RegionsDisjoint r q := by
  rintro x a ⟨⟨hr, _⟩, hq, _⟩
  exact h (hr.symm.trans hq)
theorem apart_ends {r q : Region} (h : s32 r.off + r.n ≤ s32 q.off ∨ s32 q.off + q.n ≤ s32 r.off) : RegionsDisjoint r q := by
  rintro x a ⟨⟨_, hr, hr'⟩, _, hq, hq'⟩
  omega
theorem misfits (r : Region) (h : ready.regionOk r = false) : ready.RegionBad r := (ready.regionBad_iff r).2 h

theorem witness_DecodeOfEncodeIsIdentity : (Instr.fCswap 15 0 1).wf 16 = true ∧ (Instr.fAdd 0 0 0).wf 1 = true := by decide
theorem witness_EncodeOfDecodeIsIdentity : decode 16 [0x00110036] = .ok (.fCswap 0 1 1) := by decide

theorem witness_IllegalFramesEndWithIllegalCommand :
    Opcode.ofCode ((0x00000003#32).extractLsb' 0 8) = none ∧
    Opcode.ofCode ((0x00100030#32).extractLsb' 0 8) = some .fAdd ∧
    0x00100030#32 &&& Opcode.fAdd.format.mask ≠ Opcode.fAdd.code.zeroExtend 32 ∧
    0x00080030#32 &&& Opcode.fAdd.format.mask = Opcode.fAdd.code.zeroExtend 32 ∧
    (∃ j ∈ Opcode.fAdd.format.indices 0x00080030#32, 8 ≤ j.val) ∧
    (∀ j ∈ Opcode.fAdd.format.indices 0x00080030#32, j.val < 9) ∧
    [0#32].length ≠ Opcode.fAdd.nargs ∧ ([] : List Word).length = Opcode.fAdd.nargs := by decide
theorem witness_IllegalFramesEndWithIllegalCommand_step :
    (waiting [3]).pend = some [3] ∧ decode (waiting [3]).params.nfe [3] = .error .reservedOpcode := ⟨rfl, by decide⟩

/-- The edges of the reserved ranges, and the opcodes beside them. -/
theorem witness_ReservedOpcodesHaveNoEffect :
    (∀ c ∈ [0x00#8, 0x03#8, 0x0F#8, 0x15#8, 0x1F#8, 0x24#8, 0x2F#8, 0x39#8, 0xFF#8], Opcode.ofCode c = none) ∧
    (∀ c ∈ [0x01#8, 0x02#8, 0x10#8, 0x14#8, 0x20#8, 0x23#8, 0x30#8, 0x38#8], Opcode.ofCode c ≠ none) := by decide
theorem witness_ReservedOpcodesHaveNoEffect_step : (waiting [0x39, 5]).pend = some (0x39 :: [5]) := rfl

theorem witness_OpcodeFixesFrameLength :
    decode 16 (0x00010230 :: []) = .ok (.fAdd 2 0 1) ∧
    decode 16 (0x23 :: [1, 2, 3, 4, 5, 6, 7, 8, 9, 10]) = .ok (.aVerify 1 2 3 4 5 6 7 8 9 10) := by decide

theorem witness_StepRunsDecodedCommand :
    (waiting [0x00010230]).Running ∧ (waiting [0x00010230]).pend = some [0x00010230] ∧
    decode (waiting [0x00010230]).params.nfe [0x00010230] = .ok (.fAdd 2 0 1) ∧ (waiting [0x00010230]).agenda = [] ∧
    (withAgenda (waiting [0x00010230]) [.core, .host .rdStatus]).agenda = .core :: [.host .rdStatus] :=
  ⟨⟨rfl, rfl⟩, rfl, by decide, rfl, rfl⟩

theorem witness_ResetMeetsInvariant : Config.defaults.Legal ∧
    ({ Config.defaults with nfe := 1, nbuf := 1 } : Params).Legal := by decide

theorem ready_inv : ready.Inv := by
  unfold State.Inv
  decide +kernel
theorem witness_EveryStepKeepsInvariant : ready.Inv ∧ ∃ t, step ready = .next t := ⟨ready_inv, ready, rfl⟩

theorem witness_FaultsAndRefusalsAreFinal :
    ({ ready with fault := [.hostHazard] } : State).fault ≠ [] ∧
    ({ waiting [3] with refused := true } : State).fault = [] ∧
    ({ waiting [3] with refused := true } : State).refused = true ∧
    (∃ t, exec (.fAdd 2 0 1) ready = .next t) ∧ (∃ t, hostStep .rdStatus ready = .next t) :=
  ⟨by decide, rfl, rfl, exec_answers _ _, _, rfl⟩

theorem witness_NoStepClearsWrittenMark : (∃ t, step ready = .next t) ∧ ready.marked .key = true ∧
    ready.marked .ctr = true ∧ ready.marked (.fe 1) = true := ⟨⟨ready, rfl⟩, rfl, rfl, by decide⟩
theorem witness_NoStepChangesParameters : ∃ t, step ready = .next t := ⟨ready, rfl⟩
theorem witness_EveryCommandEndsInOneOfFourOutcomes : (waiting [3]).Running ∧ (waiting [3]).pend = some [3] := ⟨⟨rfl, rfl⟩, rfl⟩

/-- A handle at NBUF, an absent slot, a negative length, a negative offset, an end one byte beyond the buffer. -/
theorem witness_BadRegionIsInvalidArgument :
    ⟨8, 0, 32⟩ ∈ (Instr.ccSetkey 8 0).regions ∧ ready.RegionBad ⟨8, 0, 32⟩ ∧
    ⟨3, 0, 32⟩ ∈ (Instr.ccSetkey 3 0).regions ∧ ready.RegionBad ⟨3, 0, 32⟩ ∧
    ⟨0, 0, -1⟩ ∈ (Instr.pSign 0 0 0xFFFFFFFF 0 0 0 0).regions ∧ ready.RegionBad ⟨0, 0, -1⟩ ∧
    ⟨0, 0xFFFFFFFF, 32⟩ ∈ (Instr.ccSetkey 0 0xFFFFFFFF).regions ∧ ready.RegionBad ⟨0, 0xFFFFFFFF, 32⟩ ∧
    ⟨2, 1, 32⟩ ∈ (Instr.ccSetkey 2 1).regions ∧ ready.RegionBad ⟨2, 1, 32⟩ ∧
    (Instr.ccSetkey 2 1).earlyNoop ready.params = false :=
  ⟨by decide, misfits _ (by decide), by decide, misfits _ (by decide), by decide, misfits _ (by decide),
    by decide, misfits _ (by decide), by decide, misfits _ (by decide), by decide⟩

/-- The second register of F_ADD, and CTR after KEY. -/
theorem witness_UnwrittenReadIsRecorded :
    ready.fault = [] ∧ (∀ q ∈ (Instr.fAdd 2 0 3).regions, ¬ ready.RegionBad q) ∧ (Instr.fAdd 2 0 3).overlaps = false ∧
    (Instr.fAdd 2 0 3).readRegs = [.fe 0] ++ .fe 3 :: [] ∧ (∀ q ∈ [Reg.fe 0], ready.marked q = true) ∧
    ready.marked (.fe 3) = false ∧
    (Instr.ccEncrypt 0 0 1 0 64 0 0 0).readRegs = [.key] ++ .ctr :: [] ∧
    (Instr.ccEncrypt 0 0 1 0 64 0 0 0).overlaps = false ∧
    ({ ready with ctr := ⟨0, false⟩ } : State).marked .ctr = false ∧
    (∀ q ∈ [Reg.key], ({ ready with ctr := ⟨0, false⟩ } : State).marked q = true) := by
  refine ⟨rfl, by simp [Instr.regions], rfl, rfl, by decide, by decide, by decide, by decide, rfl, by decide⟩

theorem witness_WidthOverflowIsRecorded_add : (∃ j, ¬ InI32 (((withRegs ⟨0, 0, 0, 0, 0, 0, 0, 0, 0, 2147483647⟩ ⟨0, 0, 0, 0, 0, 0, 0, 0, 0, 1⟩).feInts 0).get j +
    ((withRegs ⟨0, 0, 0, 0, 0, 0, 0, 0, 0, 2147483647⟩ ⟨0, 0, 0, 0, 0, 0, 0, 0, 0, 1⟩).feInts 1).get j)) := by
  refine ⟨9, ?_⟩
  unfold InI32
  decide +kernel
theorem witness_WidthOverflowIsRecorded_sub : (∃ j, ¬ InI32 (((withRegs ⟨-2147483648, 0, 0, 0, 0, 0, 0, 0, 0, 0⟩ one).feInts 0).get j -
    ((withRegs ⟨-2147483648, 0, 0, 0, 0, 0, 0, 0, 0, 0⟩ one).feInts 1).get j)) := by
  refine ⟨0, ?_⟩
  unfold InI32
  decide +kernel
/-- `19 * 113025456 = 2^31 + 16`, `2 * 2^30 = 2^31`, `38 * 56512728 = 2^31 + 16`. -/
theorem witness_WidthOverflowIsRecorded_prescale :
    ¬ InI32 (19 * ((withRegs one ⟨0, 113025456, 0, 0, 0, 0, 0, 0, 0, 0⟩).feInts 1).get 1) ∧
    ¬ InI32 (2 * ((withRegs ⟨0, 1073741824, 0, 0, 0, 0, 0, 0, 0, 0⟩ one).feInts 0).get 1) ∧
    ¬ InI32 (19 * ((withRegs ⟨0, 0, 0, 0, 0, 0, 0, 0, 113025456, 0⟩ one).feInts 0).get 8) ∧
    ¬ InI32 (38 * ((withRegs ⟨0, 0, 0, 0, 0, 0, 0, 0, 0, 56512728⟩ one).feInts 0).get 9) := by
  unfold InI32
  decide +kernel
/-- Limbs 9 and 0: `19 * 113025456` is beyond i32; `19 * 113025455 = 2^31 - 3` is not, but `+ 2^24` is; and
`(19000000 + 2^24) / 2^25 = 1` carries `2^31 - 1` beyond it. The region is a whole buffer. -/
theorem witness_WidthOverflowIsRecorded_encode :
    (¬ InI32 (19 * ((withRegs ⟨0, 0, 0, 0, 0, 0, 0, 0, 0, 113025456⟩ one).feInts 0).l9)) ∧
    (InI32 (19 * ((withRegs ⟨0, 0, 0, 0, 0, 0, 0, 0, 0, 113025455⟩ one).feInts 0).l9) ∧
      ¬ InI32 (19 * ((withRegs ⟨0, 0, 0, 0, 0, 0, 0, 0, 0, 113025455⟩ one).feInts 0).l9 + 2 ^ 24)) ∧
    (InI32 (19 * ((withRegs ⟨2147483647, 0, 0, 0, 0, 0, 0, 0, 0, 1000000⟩ one).feInts 0).l9 + 2 ^ 24) ∧
      ¬ InI32 (((withRegs ⟨2147483647, 0, 0, 0, 0, 0, 0, 0, 0, 1000000⟩ one).feInts 0).l0 +
        (19 * ((withRegs ⟨2147483647, 0, 0, 0, 0, 0, 0, 0, 0, 1000000⟩ one).feInts 0).l9 + 2 ^ 24) / 2 ^ 25)) ∧
    ¬ ready.RegionBad ⟨2, 0, 32⟩ := by
  refine ⟨?_, ?_, ?_, fits _ (by decide)⟩ <;> unfold InI32 <;> decide +kernel
theorem witness_WidthOverflowIsRecorded_marks (f g : Limbs Int) : (withRegs f g).fault = [] ∧
    ((withRegs f g).feReg 0).written = true ∧ ((withRegs f g).feReg 1).written = true := ⟨rfl, rfl, rfl⟩

theorem witness_PartialOverlapIsRefused :
    ¬ ready.RegionBad ⟨0, 0, s32 8⟩ ∧ ¬ ready.RegionBad ⟨0, 7, s32 8⟩ ∧ 0 < s32 8 ∧
    s32 0 ≠ s32 7 ∧ s32 0 < s32 7 + s32 8 ∧ s32 7 < s32 0 + s32 8 :=
  ⟨fits _ (by decide), fits _ (by decide), by decide, by decide, by decide, by decide⟩

theorem witness_BusyHazardIsRecorded :
    (withAgenda (waiting [3]) [.host .rdCtr]).Running ∧
    (withAgenda (waiting [3]) [.host .rdCtr]).agenda = .host .rdCtr :: [] ∧
    (withAgenda (waiting [3]) [.host .rdCtr]).pend ≠ none ∧ HostAction.rdCtr ≠ .rdStatus ∧
    (withAgenda (waiting [3]) [.host .rdCtr]).hostMay .rdCtr = true :=
  ⟨⟨rfl, rfl⟩, rfl, by decide, by decide, rfl⟩

theorem witness_StatusReadReturnsTheTabledWord : (withAgenda (waiting [3]) [.host .rdStatus]).Running ∧
    (withAgenda (waiting [3]) [.host .rdStatus]).agenda = .host .rdStatus :: [] := ⟨⟨rfl, rfl⟩, rfl⟩
theorem witness_IssueFillsTheLatch : (withAgenda ready [.host (.issue [])]).Running ∧
    (withAgenda ready [.host (.issue [])]).agenda = .host (.issue []) :: [] ∧ (withAgenda ready [.host (.issue [])]).pend = none :=
  ⟨⟨rfl, rfl⟩, rfl, rfl⟩

/-- The last register written, and read while unmarked; and one that is marked. -/
theorem witness_HostFieldAccess (v : Limbs Word) :
    (withAgenda ready [.host (.wrFe 15 v)]).Running ∧ (withAgenda ready [.host (.wrFe 15 v)]).pend = none ∧
    (15 : FeIdx).val < (withAgenda ready [.host (.wrFe 15 v)]).params.nfe ∧
    (withAgenda ready [.host (.wrFe 15 v)]).agenda = .host (.wrFe (15 : FeIdx).val v) :: [] ∧
    (withAgenda ready [.host (.rdFe 15)]).agenda = .host (.rdFe (15 : FeIdx).val) :: [] ∧
    ((withAgenda ready [.host (.rdFe 15)]).feReg 15).written = false ∧
    (withAgenda ready [.host (.rdFe 1)]).agenda = .host (.rdFe (1 : FeIdx).val) :: [] ∧
    ((withAgenda ready [.host (.rdFe 1)]).feReg 1).written = true :=
  ⟨⟨rfl, rfl⟩, rfl, Nat.lt_succ_self 15, rfl, rfl, by decide, rfl, by decide⟩

theorem witness_HostCounterAccess (v : Word) :
    (withAgenda ready [.host (.wrCtr v)]).Running ∧ (withAgenda ready [.host (.wrCtr v)]).pend = none ∧
    (withAgenda ready [.host (.wrCtr v)]).agenda = .host (.wrCtr v) :: [] ∧
    (withAgenda ready [.host .rdCtr]).agenda = .host .rdCtr :: [] ∧ (withAgenda ready [.host .rdCtr]).ctr.written = true ∧
    (withAgenda State.reset [.host .rdCtr]).Running ∧ (withAgenda State.reset [.host .rdCtr]).pend = none ∧
    (withAgenda State.reset [.host .rdCtr]).ctr.written = false :=
  ⟨⟨rfl, rfl⟩, rfl, rfl, rfl, rfl, ⟨rfl, rfl⟩, rfl, rfl⟩

/-- The last slot, the greatest length, an access that ends with its buffer. -/
theorem witness_HostBufferAccess :
    (withAgenda ready [.host (.bufAlloc 7 2147483647)]).Running ∧
    (withAgenda ready [.host (.bufAlloc 7 2147483647)]).pend = none ∧
    7 < (withAgenda ready [.host (.bufAlloc 7 2147483647)]).params.nbuf ∧ 2147483647 ≤ 2147483647 ∧
    (withAgenda ready [.host (.bufFree 7)]).agenda = .host (.bufFree 7) :: [] ∧
    (withAgenda ready [.host (.bufWrite 2 31 [5])]).agenda = .host (.bufWrite 2 31 [5]) :: [] ∧
    (withAgenda ready [.host (.bufWrite 2 31 [5])]).buf.lenAt 2 = some 32 ∧ 31 + [(5 : Byte)].length ≤ 32 ∧
    (withAgenda ready [.host (.bufRead 0 62 2)]).agenda = .host (.bufRead 0 62 2) :: [] ∧
    (withAgenda ready [.host (.bufRead 0 62 2)]).buf.lenAt 0 = some 64 ∧ 62 + 2 ≤ 64 :=
  ⟨⟨rfl, rfl⟩, rfl, by decide, by decide, rfl, rfl, by decide, by decide, rfl, by decide, by decide⟩

/-- R285: bytes are stored and read in order, not reversed. -/
theorem test_host_buffer_order :
    bytesAfter (step (withAgenda ready [.host (.bufWrite 2 30 [5, 6])])) 2 29 3 = some [0, 5, 6] ∧
    (nextOf (step (withAgenda ready [.host (.bufRead 0 62 2)]))).map (fun t => t.reply) = some (.bytes [0, 9]) := by
  decide +kernel

theorem witness_HostPreconditionFailureHasNoMove :
    (withAgenda ready [.host (.rdFe 16)]).Running ∧ (withAgenda ready [.host (.rdFe 16)]).params.nfe ≤ 16 ∧
    (withAgenda ready [.host (.bufAlloc 8 0)]).params.nbuf ≤ 8 ∧ (2147483647 : Int) < 2147483648 ∧
    (withAgenda ready [.host (.bufRead 3 0 0)]).buf.lenAt 3 = none ∧
    (withAgenda ready [.host (.bufWrite 2 31 [5, 6])]).buf.lenAt 2 = some 32 ∧
    ((32 : Nat) : Int) < 31 + (([5, 6] : List Byte).length : Int) :=
  ⟨⟨rfl, rfl⟩, by decide, by decide, by decide, by decide, by decide, by decide⟩

theorem witness_HostActionsDoNotRevealKey : ∃ t, hostStep (.rdFe 0) ready = .next t := ⟨_, rfl⟩
theorem witness_OtherCommandsDoNotUseKey :
    (Instr.pSign 0 0 64 1 0 2 0).readsKey = false ∧ (Instr.pSign 0 0 64 1 0 2 0).setsKey = false ∧
    ∃ t, exec (.pSign 0 0 64 1 0 2 0) ready = .next t := ⟨rfl, rfl, exec_answers _ _⟩

/-- A register, no store, a store, KEY, CTR, the scratch: one command for each clause of the frame. -/
theorem witness_CommandsWriteOnlyWhatTheyMay :
    (∀ i : Instr, ∃ t, exec i ready = .next t) ∧ (3 : FeIdx) ∉ (Instr.fAdd 2 0 1).writesFe ∧
    (Instr.fAdd 2 0 1).setsKey = false ∧ (Instr.fAdd 2 0 1).isStream = false ∧ (Instr.fAdd 2 0 1).stores = none ∧
    (Instr.fEncode 0 2 0).stores = some ⟨2, 0, 32⟩ ∧ (Instr.fAdd 2 0 1).readsKey = false ∧
    ready.params.counterWriteback = false :=
  ⟨fun i => exec_answers i _, by decide, rfl, rfl, rfl, rfl, rfl, rfl⟩
theorem witness_CommandsKeepBufferLengths : ∃ t, exec (.fEncode 0 2 0) ready = .next t := exec_answers _ _

/-- A CC_SETKEY over other bytes changes KEY; H_WRCTR and a stream command with COUNTER_WRITEBACK change CTR. -/
theorem witness_KeyAndCounterWriters :
    (nextOf (step (waiting [0x10, 2, 0]))).map (fun t => decide (t.key ≠ ready.key)) = some true ∧
    (nextOf (step (withAgenda ready [.host (.wrCtr 5)]))).map (fun t => decide (t.ctr ≠ ready.ctr)) = some true ∧
    (nextOf (step { waiting [0x12, 2, 0, 2, 0, 1, 0, 0, 0] with
      params := { Config.defaults with counterWriteback := true } })).map (fun t => decide (t.ctr ≠ ready.ctr)) = some true := by
  decide +kernel

theorem witness_ResultIsZeroUnlessComparing :
    ready.Running ∧ (Instr.fAdd 2 0 1).givesResult = false ∧ (Instr.keyEq 9 0 0 0).givesResult = true ∧
    (nextOf (exec (.fAdd 2 0 1) ready)).map (fun t => (t.fault, t.refused)) = some ([], false) ∧
    (nextOf (exec (.keyEq 9 0 0 0) ready)).map (fun t => (t.fault, t.refused, decide (t.status.err ≠ .ok))) =
      some ([], false, true) := by
  refine ⟨⟨rfl, rfl⟩, rfl, rfl, ?_⟩
  decide +kernel

theorem witness_FieldCommandsHaveNoHiddenState :
    (Instr.fMul 2 0 1).isFieldArith = true ∧ ready.fault = [] ∧ (ready.writeFe 5 (reg one)).fault = [] ∧
    ready.params = (ready.writeFe 5 (reg one)).params ∧
    ∀ j : FeIdx, .fe j ∈ (Instr.fMul 2 0 1).readRegs → ready.feReg j = (ready.writeFe 5 (reg one)).feReg j := by
  refine ⟨rfl, rfl, rfl, rfl, ?_⟩
  decide +kernel

theorem witness_KeyEqComparesRegions : ¬ ready.RegionBad ⟨0, 32, 32⟩ ∧ ¬ ready.RegionBad ⟨2, 0, 32⟩ ∧ ready.RegionBad ⟨2, 1, 32⟩ :=
  ⟨fits _ (by decide), fits _ (by decide), misfits _ (by decide)⟩
theorem witness_MacEqComparesRegions : ¬ ready.RegionBad ⟨0, 48, 16⟩ ∧ ¬ ready.RegionBad ⟨2, 0, 16⟩ ∧ ready.RegionBad ⟨0, 49, 16⟩ :=
  ⟨fits _ (by decide), fits _ (by decide), misfits _ (by decide)⟩
theorem witness_SetKeyLoadsLittleEndianWords : ¬ ready.RegionBad ⟨0, 32, 32⟩ ∧ ready.RegionBad ⟨0, 33, 32⟩ :=
  ⟨fits _ (by decide), misfits _ (by decide)⟩
theorem witness_BlockCommandsWriteKeystream : ready.key.written = true ∧ ¬ ready.RegionBad ⟨0, 0, 64⟩ ∧ ¬ ready.RegionBad ⟨2, 0, 32⟩ :=
  ⟨rfl, fits _ (by decide), fits _ (by decide)⟩

/-- In place over the whole buffer, and between the two halves of one buffer. -/
theorem witness_StreamCommandsXorKeystream :
    ¬ ready.RegionBad ⟨0, 0, s32 64⟩ ∧ 0 < s32 64 ∧ ((0 : Word) = 0 ∧ (0 : Word) = 0) ∧
    ¬ ready.RegionBad ⟨0, 0, s32 32⟩ ∧ ¬ ready.RegionBad ⟨0, 32, s32 32⟩ ∧
    RegionsDisjoint ⟨0, 0, s32 32⟩ ⟨0, 32, s32 32⟩ ∧ ready.key.written = true ∧ ready.ctr.written = true := by
  exact ⟨fits _ (by decide), by decide, ⟨rfl, rfl⟩, fits _ (by decide), fits _ (by decide), apart_ends (by decide), rfl, rfl⟩

theorem witness_ZeroLengthStreamIsNoop : s32 0 = 0 ∧ ¬ ready.RegionBad ⟨0, 64, 0⟩ ∧ ¬ ready.RegionBad ⟨2, 32, 0⟩ ∧
    ({ Config.defaults with zeroLengthChecks := false } : Params).zeroLengthChecks = false :=
  ⟨rfl, fits _ (by decide), fits _ (by decide), rfl⟩

/-- From slot 0 to slot 1 and back over slot 0. -/
theorem witness_DecryptAfterEncryptRestoresBytes :
    ¬ ready.RegionBad ⟨0, 0, s32 64⟩ ∧ ¬ ready.RegionBad ⟨1, 0, s32 64⟩ ∧
    RegionsDisjoint ⟨0, 0, s32 64⟩ ⟨1, 0, s32 64⟩ ∧ RegionsDisjoint ⟨1, 0, s32 64⟩ ⟨0, 0, s32 64⟩ ∧
    (0 < s32 64 → ready.key.written = true ∧ ready.ctr.written = true) := by
  exact ⟨fits _ (by decide), fits _ (by decide), apart_slots (by decide), apart_slots (by decide), fun _ => ⟨rfl, rfl⟩⟩

theorem witness_ClampClearsTheTabledBits : (127 : Nat) < 128 := by decide

/-- For PolySignWritesTag, PolyVerifyComparesTag, AeadSignWritesTag, AeadVerifyComparesTag: a whole buffer, an empty message at a
buffer's end, a key and a tag; and a tag one byte beyond its buffer. -/
theorem witness_PolyAndAeadRegions : ¬ ready.RegionBad ⟨0, 0, s32 64⟩ ∧ ¬ ready.RegionBad ⟨1, 64, s32 0⟩ ∧ ¬ ready.RegionBad ⟨2, 0, 32⟩ ∧
    ¬ ready.RegionBad ⟨1, 0, 16⟩ ∧ ready.RegionBad ⟨2, 17, 16⟩ :=
  ⟨fits _ (by decide), fits _ (by decide), fits _ (by decide), fits _ (by decide), misfits _ (by decide)⟩
theorem witness_SignedTagVerifies : RegionsDisjoint ⟨0, 0, s32 64⟩ ⟨1, 0, 16⟩ ∧ RegionsDisjoint ⟨1, 64, s32 0⟩ ⟨1, 0, 16⟩ ∧
    RegionsDisjoint ⟨2, 0, 32⟩ ⟨1, 0, 16⟩ := by
  exact ⟨apart_slots (by decide), apart_ends (by decide), apart_slots (by decide)⟩
theorem witness_PolyEvalIsPolynomial : v3Key.length = 32 := by decide +kernel

theorem witness_CarriesKeepTheValue :
    (carry decA 0).isSome = true ∧ (0 : LimbIdx) ≠ 9 ∧ (carry decA 9).isSome = true ∧ (chain decA mulChain).isSome = true := by
  decide +kernel

theorem witness_AddAndSubAreLimbwise : (ready.feReg 0).written = true ∧ (ready.feReg 1).written = true ∧
    (∀ j, InI32 ((ready.feInts 0).get j + (ready.feInts 1).get j)) ∧
    (∀ j, InI32 ((ready.feInts 0).get j - (ready.feInts 1).get j)) := by
  unfold InI32
  decide +kernel

/-- Limbs at the bound of B(3.3), which also meets the hypothesis of F_INV, and at that of B(2.2). -/
def atBound (num : Int) : Limbs Int := Limbs.ofFun fun j => num * 2 ^ (limbWidth j - 1) / 10
theorem witness_MulAndSqrMultiply :
    ((withRegs (atBound 33) (atBound 33)).feInts 0).Within 33 10 ∧ ((withRegs (atBound 33) (atBound 33)).feInts 1).Within 33 10 := by
  unfold Limbs.Within
  decide +kernel
theorem ones_val : ((withRegs one one).feInts 0) = one := by decide +kernel
theorem one_inverted : exec (.fInv 2 0) (withRegs one one) = .next (((withRegs one one).writeFe 2 one.toWords).complete false) :=
  fieldUnary_good (s := withRegs one one) (op := invLimbs) (fd := 2) (fa := 0) (h := one) rfl
    (by rw [ones_val]; exact inv_fixed one sq_one mul_one_one)
theorem one_squared : exec (.fSqr 2 0) (withRegs one one) = .next (((withRegs one one).writeFe 2 one.toWords).complete false) :=
  fieldUnary_good (s := withRegs one one) (op := sqLimbs) (fd := 2) (fa := 0) (h := one) rfl (by rw [ones_val]; exact sq_one)
theorem one_multiplied : exec (.fMul 2 0 0) (withRegs one one) =
    .next (((withRegs one one).writeFe 2 one.toWords).complete false) :=
  fieldBinary_good (s := withRegs one one) (op := mulLimbs) (fd := 2) (fa := 0) (fb := 0) (h := one) rfl rfl
    (by rw [ones_val]; exact mul_one_one)
/-- The second part of MulAndSqrMultiply: no fault before or after. -/
theorem witness_MulAndSqrMultiply_values : (withRegs one one).fault = [] ∧
    (∃ t, exec (.fMul 2 0 0) (withRegs one one) = .next t ∧ t.fault = []) ∧
    (∃ t, exec (.fSqr 2 0) (withRegs one one) = .next t ∧ t.fault = []) :=
  ⟨rfl, ⟨_, one_multiplied, rfl⟩, _, one_squared, rfl⟩
theorem witness_SquareEqualsMultiply : (withRegs one one).fault = [] ∧ ∃ t u, exec (.fSqr 2 0) (withRegs one one) = .next t ∧
    exec (.fMul 2 0 0) (withRegs one one) = .next u ∧ t.fault = [] ∧ u.fault = [] :=
  ⟨rfl, _, _, one_squared, one_multiplied, rfl, rfl⟩
theorem witness_Mul121666AlwaysCompletes : (ready.feReg 0).written = true ∧ ((withRegs (atBound 22) one).feInts 0).Within 22 10 := by
  unfold Limbs.Within
  decide +kernel
theorem witness_InvRaisesToPMinusTwo : (ready.feReg 0).written = true ∧ (ready.feInts 0).Within 33 10 ∧
    ((withRegs (Limbs.const 0) one).feReg 0).limbs = Limbs.const 0#32 := by
  unfold Limbs.Within
  decide +kernel
theorem witness_CswapSwapsExactlyWhenSet : (ready.feReg 0).written = true ∧ (ready.feReg 1).written = true := ⟨rfl, rfl⟩
theorem witness_DecodeLoadsTheValue : ¬ ready.RegionBad ⟨0, 32, 32⟩ := fits _ (by decide)
theorem witness_EncodeStoresCanonicalValue : ¬ ready.RegionBad ⟨2, 0, 32⟩ ∧ (ready.feReg 0).written = true ∧ (ready.feInts 0).Within 22 10 := by
  refine ⟨fits _ (by decide), rfl, ?_⟩
  unfold Limbs.Within
  decide +kernel
theorem witness_EncodeAfterDecodeIsCanonical : ¬ ready.RegionBad ⟨0, 0, 32⟩ ∧ ¬ ready.RegionBad ⟨0, 16, 32⟩ ∧
    leValue (ready.memRead 0 0 32) < 2 ^ 255 - 19 := by
  refine ⟨fits _ (by decide), fits _ (by decide), ?_⟩
  decide +kernel

theorem witness_InverseTimesOperandIsOne :
    (withRegs one one).fault = [] ∧ (∃ t, exec (.fInv 2 0) (withRegs one one) = .next t ∧ t.fault = []) ∧
    ¬ ((withRegs one one).feInts 0).val ≡ 0 [ZMOD (2 ^ 255 - 19)] := by
  refine ⟨rfl, ⟨_, one_inverted, rfl⟩, ?_⟩
  rw [ones_val]
  decide +kernel
theorem witness_DecodeAfterEncodeKeepsElement : ¬ ready.RegionBad ⟨2, 0, 32⟩ ∧ (ready.feReg 0).written = true ∧
    (ready.feInts 0).Within 22 10 := witness_EncodeStoresCanonicalValue

end Sys2Proof.Tests
end

section
/-! The state after reset (10_state.md R45). -/

namespace Sys2Proof.Machine

/-- Every slot of the empty table is absent (R60). -/
@[simp] theorem Memory.slot_nil (h : Nat) : Memory.slot [] h = none := rfl

/-- The word of an idle status without result or error is 0 (R35, R36). -/
@[simp] theorem Status.word_clear : Status.word ⟨false, false, .ok⟩ = 0#32 := by decide

/-- No register is marked after reset (R37, R45). -/
@[simp] theorem State.resetWith_marked (p : Params) (r : Reg) : (State.resetWith p).marked r = false := by
  cases r with
  | fe i => simp [State.marked]
  | key => rfl
  | ctr => rfl

end Sys2Proof.Machine

namespace Sys2Proof
open Sys2Proof.Machine

/-- Settles O8, one conjunct per row of R45's table that has a value. -/
theorem resetStateIsAsTabled : Obligations.ResetStateIsAsTabled := by
  intro p
  have marksClear : ∀ r : Reg, (State.resetWith p).marked r = false := State.resetWith_marked p
  have statusZero : (State.resetWith p).status.word = 0#32 := Status.word_clear
  have slotsAbsent : ∀ h : Nat, (State.resetWith p).buf.slot h = none := Memory.slot_nil
  exact ⟨marksClear, statusZero, rfl, slotsAbsent, rfl, rfl⟩

end Sys2Proof
end

section
/-! A failed region check ends the command (20_memory.md R66), said once for everything that starts with its region checks. -/

namespace Sys2Proof.Machine

variable (s : State)

/-- Whatever would follow the region checks, one bad region among them is `raise InvalidArgument` (R66). -/
theorem State.settle_checkRegions_bad {rs : List Region} {r : Region} {rest : Unit → Except Stop State}
    (hr : r ∈ rs) (hb : s.regionOk r = false) :
    s.settle (s.checkRegions rs >>= rest) = .next (s.raiseError .invalidArgument) := by
  rw [State.checkRegions_bad (s := s) hr hb]
  rfl

/-- A stream command with a bad region, unless it is the zero-length form that checks nothing (R142). -/
theorem streamCommand_bad {sh soff dh doff len : Word} {nonce : Nonce} {r : Region}
    (hr : r ∈ ([⟨sh, soff, s32 len⟩, ⟨dh, doff, s32 len⟩] : List Region)) (hb : s.regionOk r = false)
    (hz : (s32 len == 0 && !s.params.zeroLengthChecks) = false) :
    streamCommand sh soff dh doff len nonce s = .next (s.raiseError .invalidArgument) := by
  have checks : ¬ (s32 len = 0 ∧ s.params.zeroLengthChecks = false) := by simpa using hz
  unfold streamCommand
  rw [if_neg checks]
  exact s.settle_checkRegions_bad hr hb

/-- Every command checks its regions before anything else: a bad one is `raise InvalidArgument`, whatever else is wrong. -/
theorem exec_bad_region {i : Instr} {r : Region} (hr : r ∈ i.regions) (hb : s.regionOk r = false)
    (hz : i.earlyNoop s.params = false) : exec i s = .next (s.raiseError .invalidArgument) := by
  cases i with
  | keyEq | macEq | ccSetkey | ccBlock | ccCreatekey | pSign | pVerify | aSign | aVerify | fDecode | fEncode =>
    exact s.settle_checkRegions_bad hr hb
  | ccEncrypt | ccDecrypt => exact streamCommand_bad s hr hb hz
  | fAdd | fSub | fMul | fSqr | fMul121666 | fInv | fCswap => exact absurd hr List.not_mem_nil

end Sys2Proof.Machine

namespace Sys2Proof
open Sys2Proof.Machine

/-- Settles O15: RegionBad is the failure of the model's region check, and every command makes its checks first. -/
theorem badRegionIsInvalidArgument : Obligations.BadRegionIsInvalidArgument := by
  intro i s r hr hbad hz
  have checkFails : s.regionOk r = false := (s.regionBad_iff r).1 hbad
  exact exec_bad_region s hr checkFails hz

end Sys2Proof
end

section
/-! The decode check (30_encoding.md R97), said once: one equation per condition in the rule's order, and the inversion of an
accepted frame. -/

namespace Sys2Proof

/-! ### The opcode map (R95, R98) -/

/-- NARGS is at most 10, so a frame is at most 11 words (R99). -/
theorem Opcode.nargs_le_ten (o : Opcode) : o.nargs ≤ 10 := by cases o <;> decide

/-- The opcode values without a command are those R98 lists. -/
theorem Opcode.ofCode_eq_none_iff (c : BitVec 8) : Opcode.ofCode c = none ↔
    c.toNat = 0 ∨ (3 ≤ c.toNat ∧ c.toNat ≤ 0x0F) ∨ (0x15 ≤ c.toNat ∧ c.toNat ≤ 0x1F) ∨
      (0x24 ≤ c.toNat ∧ c.toNat ≤ 0x2F) ∨ 0x39 ≤ c.toNat := by
  have noRow : Opcode.ofCode c = none ↔ ∀ o ∈ Opcode.all, o.code.toNat ≠ c.toNat := by
    simp [Opcode.ofCode, BitVec.toNat_inj]
  rw [noRow]
  simp only [Opcode.all, List.forall_mem_cons, Opcode.code, BitVec.toNat_ofNat, List.not_mem_nil, false_imp_iff,
    implies_true, and_true]
  omega

/-- The `opc` field is the command word's lowest byte (R91). -/
theorem fieldOpc_toNat (w0 : Word) : (fieldOpc w0).toNat = w0.toNat % 256 := by simp [fieldOpc]

variable {nfe : Nat} {w0 : Word} {args : List Word} {o : Opcode}

/-! ### The argument words (R97 condition 5) -/

/-- As many argument words as NARGS make a command. -/
theorem assemble_ok (w0 : Word) (hlen : args.length = o.nargs) : ∃ i, assemble o w0 args = .ok i := by
  obtain ⟨arg, rfl⟩ : ∃ arg : Fin o.nargs → Word, args = List.ofFn arg :=
    hlen ▸ ⟨args.get, (List.ofFn_get args).symm⟩
  cases o <;> exact ⟨_, rfl⟩

/-- Any other number of argument words is the wrong length. -/
theorem assemble_wrongLength (w0 : Word) (hlen : args.length ≠ o.nargs) : assemble o w0 args = .error .wrongLength := by
  cases o
  all_goals
    simp only [assemble]
    split
    · exact (hlen rfl).elim
    · rfl

/-! ### The conditions in order -/

/-- The first condition: there is no command word. -/
theorem decode_nil (nfe : Nat) : decode nfe [] = .error .emptyFrame := rfl

/-- The second: the opcode is reserved. -/
theorem decode_reserved (ho : Opcode.ofCode (fieldOpc w0) = none) : decode nfe (w0 :: args) = .error .reservedOpcode := by
  simp only [decode, ho]

/-- The third: a bit of the mask does not match. -/
theorem decode_maskMismatch (ho : Opcode.ofCode (fieldOpc w0) = some o) (hm : w0 &&& o.format.mask ≠ o.code.zeroExtend 32) :
    decode nfe (w0 :: args) = .error .maskMismatch := by
  simp only [decode, ho, if_pos hm]

/-- The fourth: an index in use is not below NFE. -/
theorem decode_indexOutOfRange (ho : Opcode.ofCode (fieldOpc w0) = some o)
    (hm : w0 &&& o.format.mask = o.code.zeroExtend 32) (hi : ∃ j ∈ o.format.indices w0, nfe ≤ j.val) :
    decode nfe (w0 :: args) = .error .indexOutOfRange := by
  have someOut : ((o.format.indices w0).any fun j => decide (nfe ≤ j.val)) = true := by simpa using hi
  simp only [decode, ho, if_neg (not_not_intro hm), if_pos someOut]

/-- Past the opcode, the mask and the indices, only the number of argument words is left to check. -/
theorem decode_assemble (ho : Opcode.ofCode (fieldOpc w0) = some o) (hm : w0 &&& o.format.mask = o.code.zeroExtend 32)
    (hi : ∀ j ∈ o.format.indices w0, j.val < nfe) : decode nfe (w0 :: args) = assemble o w0 args := by
  have noneOut : ¬ ((o.format.indices w0).any fun j => decide (nfe ≤ j.val)) = true := by simpa using hi
  simp only [decode, ho, if_neg (not_not_intro hm), if_neg noneOut]

/-- An accepted frame meets none of the conditions. -/
theorem decode_ok_inv {i : Instr} (h : decode nfe (w0 :: args) = .ok i) :
    ∃ o, Opcode.ofCode (fieldOpc w0) = some o ∧ w0 &&& o.format.mask = o.code.zeroExtend 32 ∧
      (∀ j ∈ o.format.indices w0, j.val < nfe) ∧ args.length = o.nargs ∧ assemble o w0 args = .ok i := by
  cases ho : Opcode.ofCode (fieldOpc w0) with
  | none => cases (decode_reserved ho).symm.trans h
  | some o =>
    have hm : w0 &&& o.format.mask = o.code.zeroExtend 32 := by
      by_contra hm
      cases (decode_maskMismatch ho hm).symm.trans h
    have hi : ∀ j ∈ o.format.indices w0, j.val < nfe := by
      by_contra! hi
      cases (decode_indexOutOfRange ho hm hi).symm.trans h
    have hasm : assemble o w0 args = .ok i := (decode_assemble ho hm hi).symm.trans h
    have hlen : args.length = o.nargs := by
      by_contra hlen
      cases (assemble_wrongLength w0 hlen).symm.trans hasm
    exact ⟨o, rfl, hm, hi, hlen, hasm⟩

end Sys2Proof

namespace Sys2Proof.Machine

/-- An illegal frame ends the core's step with `raise IllegalCommand` (R97). -/
theorem coreStep_illegal {s : State} {frame : List Word} {e : DecodeError} (hp : s.pend = some frame)
    (he : decode s.params.nfe frame = .error e) : coreStep s = .next (s.raiseError .illegalCommand) := by
  simp only [coreStep, hp, he]

end Sys2Proof.Machine
end

section
/-! The encoding family (30_encoding.md R97 to R99). -/

namespace Sys2Proof
open Sys2Proof.Machine

/-- Settles O4, one lemma of the decode check per condition. -/
theorem illegalFramesEndWithIllegalCommand : Obligations.IllegalFramesEndWithIllegalCommand := by
  refine ⟨decode_nil, fun nfe w0 args => ⟨decode_reserved, fun o ho => ⟨?_, ?_, ?_, ?_⟩⟩, ?_⟩
  · exact decode_maskMismatch ho
  · exact decode_indexOutOfRange ho
  · intro hm hi hlen
    exact (decode_assemble ho hm hi).trans (assemble_wrongLength w0 hlen)
  · intro hm hi hlen
    rw [decode_assemble ho hm hi]
    exact assemble_ok w0 hlen
  · intro s frame e hp he
    exact coreStep_illegal hp he

/-- Settles O5: a reserved opcode is the second condition of R97, whatever its arguments. -/
theorem reservedOpcodesHaveNoEffect : Obligations.ReservedOpcodesHaveNoEffect := by
  intro w0 opc reserved
  have tabled : Opcode.ofCode (fieldOpc w0) = none ↔ reserved := by
    simpa only [fieldOpc_toNat] using Opcode.ofCode_eq_none_iff (fieldOpc w0)
  exact ⟨tabled, fun hr s args hp => coreStep_illegal hp (decode_reserved (tabled.2 hr))⟩

/-- Settles O6: an accepted frame has NARGS argument words, and NARGS is at most 10. -/
theorem opcodeFixesFrameLength : Obligations.OpcodeFixesFrameLength := by
  intro nfe w0 args i h
  obtain ⟨o, ho, -, -, hlen, -⟩ := decode_ok_inv h
  have atMost : o.nargs ≤ 10 := o.nargs_le_ten
  rw [List.length_cons, hlen]
  exact ⟨o, ho, rfl, by omega, by omega⟩

end Sys2Proof
end

section
/-! What KEY_EQ and MAC_EQ share (40_value_types.md R115 to R117): a frame of format N, and byte equality of two regions. -/

namespace Sys2Proof

/-- An opcode widened to a word stands in that word's `opc` field (R91). -/
theorem fieldOpc_zeroExtend (c : BitVec 8) : fieldOpc (c.zeroExtend 32) = c := by
  ext i hi
  simp [fieldOpc, hi]
  omega

/-- A frame of format N (R93) is its opcode's word and the argument words, whatever NFE is. -/
theorem decode_formatN {o : Opcode} (hf : o.format = .n) (nfe : Nat) (args : List Word) :
    decode nfe (o.code.zeroExtend 32 :: args) = assemble o (o.code.zeroExtend 32) args := by
  have tabled : Opcode.ofCode (fieldOpc (o.code.zeroExtend 32)) = some o := by
    rw [fieldOpc_zeroExtend, Opcode.ofCode_code]
  have wholeWord : o.code.zeroExtend 32 &&& o.format.mask = o.code.zeroExtend 32 := by
    rw [hf]
    exact BitVec.and_allOnes
  have noIndex : ∀ j ∈ o.format.indices (o.code.zeroExtend 32), j.val < nfe := by simp [hf, Format.indices]
  exact decode_assemble tabled wholeWord noIndex

end Sys2Proof

namespace Sys2Proof.Machine

/-- The accumulated difference of two strings of one length is 0 exactly where it began at 0 and the strings are equal. -/
theorem foldl_or_xor_eq_zero_iff {a b : List Byte} (d : Byte) (hl : a.length = b.length) :
    (List.zipWith (fun x y => x ^^^ y) a b).foldl (fun d x => d ||| x) d = 0#8 ↔ d = 0#8 ∧ a = b := by
  induction a generalizing b d with
  | nil => simp [List.length_eq_zero_iff.1 hl.symm]
  | cons x xs ih =>
    cases b with
    | nil => cases hl
    | cons y ys =>
      have tails : xs.length = ys.length := Nat.succ.inj hl
      rw [List.zipWith_cons_cons, List.foldl_cons, ih _ tails, BitVec.or_eq_zero_iff, BitVec.xor_eq_zero_iff,
        List.cons.injEq, and_assoc]

/-- The constant-time comparison of R115 decides equality of strings of one length. -/
theorem ctEq_eq_decide {a b : List Byte} (hl : a.length = b.length) : ctEq a b = decide (a = b) := by
  rw [Bool.eq_iff_iff, decide_eq_true_iff, ctEq, beq_iff_eq, foldl_or_xor_eq_zero_iff 0#8 hl]
  exact and_iff_right rfl

/-- Where both regions are good, the comparison completes with RESULT saying whether their bytes are equal (R115). -/
theorem equalRegions_decides {s : State} {n : Nat} {h1 off1 h2 off2 : Word}
    (ha : ¬ s.RegionBad ⟨h1, off1, n⟩) (hb : ¬ s.RegionBad ⟨h2, off2, n⟩) :
    equalRegions n h1 off1 h2 off2 s =
      .next (s.complete (decide (s.memRead h1 off1 n = s.memRead h2 off2 n))) := by
  rw [State.regionGood_iff] at ha hb
  have sameLength : (s.readRegion ⟨h1, off1, n⟩).length = (s.readRegion ⟨h2, off2, n⟩).length :=
    (s.readRegion_length ha).trans (s.readRegion_length hb).symm
  rw [equalRegions_good s ha hb, ctEq_eq_decide sameLength]
  rfl

end Sys2Proof.Machine
end

section
/-! The value-type family (40_value_types.md R117). -/

namespace Sys2Proof
open Sys2Proof.Machine

/-- Settles O34, one clause each from the decode check of a frame of format N, the comparison of two good regions, and the
region checks that come before anything else. -/
theorem macEqComparesRegions : Obligations.MacEqComparesRegions := by
  intro s h1 off1 h2 off2
  refine ⟨fun nfe => ?_, fun ha hb => ?_, fun hbad => ?_⟩
  · exact decode_formatN (o := .macEq) rfl nfe [h1, off1, h2, off2]
  · exact equalRegions_decides (n := 16) ha hb
  · have ends (r : Region) (hr : r ∈ (Instr.macEq h1 off1 h2 off2).regions) (hb : s.RegionBad r) :=
      badRegionIsInvalidArgument (.macEq h1 off1 h2 off2) s r hr hb rfl
    exact hbad.elim (ends _ List.mem_cons_self) (ends _ (List.mem_cons_of_mem _ List.mem_cons_self))

end Sys2Proof
end

section
/-! CC_SETKEY (41_chacha20.md R140): the key words of a byte string, and the command on a good region. -/

namespace Sys2Proof.Machine

/-- `n` bytes hold a value below `256 ^ n`. -/
theorem leAt_lt (b : List Byte) (i n : Nat) : leAt b i n < 256 ^ n :=
  calc leAt b i n < 256 ^ ((b.drop i).take n).length := leValue_lt _
    _ ≤ 256 ^ n := Nat.pow_le_pow_right (by decide) (List.length_take_le n _)

/-- Four bytes fit a word, so `LE32` loses nothing (R14). -/
@[simp] theorem le32_toNat (b : List Byte) (i : Nat) : (le32 b i).toNat = leAt b i 4 :=
  (BitVec.toNat_ofNat _ _).trans (Nat.mod_eq_of_lt (leAt_lt b i 4))

/-- Word `i` of the key is read at byte `4 i` (R110). -/
theorem keyWords_eq_ofFn (b : List Byte) : keyWords b = Vector.ofFn fun i : Fin 8 => le32 b (4 * i) := rfl

/-- The words of a key are its bytes' little-endian values, four bytes to a word (R110). -/
theorem keyWords_getElem_toNat (b : List Byte) {i : Nat} (hi : i < 8) : (keyWords b)[i].toNat = leAt b (4 * i) 4 := by
  simp only [keyWords_eq_ofFn, Vector.getElem_ofFn, le32_toNat]

/-- Where the region is good, its bytes become the key and the command completes (R140). -/
theorem execCcSetkey_good (s : State) {kh koff : Word} (hr : s.regionOk ⟨kh, koff, 32⟩ = true) :
    execCcSetkey kh koff s = .next ((s.writeKey (keyWords (s.readRegion ⟨kh, koff, 32⟩))).complete false) := by
  have hc : s.checkRegions [⟨kh, koff, 32⟩] = .ok () := s.checkRegions_ok (List.forall_mem_singleton.2 hr)
  unfold execCcSetkey
  rw [hc]
  rfl

end Sys2Proof.Machine
end

section
/-! The ChaCha20 family (41_chacha20.md R140). -/

namespace Sys2Proof
open Sys2Proof.Machine

/-- Settles O35, one clause each from the decode check of a frame of format N, the load of a good region, and the region check
that comes before anything else. -/
theorem setKeyLoadsLittleEndianWords : Obligations.SetKeyLoadsLittleEndianWords := by
  intro s kh koff
  refine ⟨fun nfe => ?_, fun hgood => ?_, fun hbad => ?_⟩
  · exact decode_formatN (o := .ccSetkey) rfl nfe [kh, koff]
  · have loads := execCcSetkey_good s ((s.regionGood_iff _).1 hgood)
    exact ⟨_, fun i hi => keyWords_getElem_toNat _ hi, loads⟩
  · exact badRegionIsInvalidArgument (.ccSetkey kh koff) s _ List.mem_cons_self hbad rfl

end Sys2Proof
end

section
/-! The tag as a number (42_poly1305.md R160 to R163): the evaluation of R162 is the polynomial of the block numbers, and a tag's
little-endian value is the tag number. -/

namespace Sys2Proof.Machine

/-- A further block number is added and the sum multiplied by `r` (R162). -/
theorem polyEval_concat (r : Nat) (ns : List Nat) (n : Nat) :
    polyEval r (ns ++ [n]) = ((polyEval r ns + n) * r) % p1305 :=
  List.foldl_append

/-- The polynomial grows by a block number as the evaluation does: every power of `r` rises by one. -/
theorem polySum_concat (r : Nat) (ns : List Nat) (n : Nat) : polySum r (ns ++ [n]) = (polySum r ns + n) * r := by
  have raised : ∀ i ∈ List.range ns.length, (ns ++ [n]).getD i 0 * r ^ (ns.length + 1 - i) =
      ns.getD i 0 * r ^ (ns.length - i) * r := by
    intro i hi
    have hi : i < ns.length := List.mem_range.1 hi
    rw [List.getD_append _ _ _ _ hi, Nat.succ_sub hi.le, Nat.pow_succ, Nat.mul_assoc]
  have last : (ns ++ [n]).getD ns.length 0 * r ^ (ns.length + 1 - ns.length) = n * r := by simp
  rw [polySum, List.length_append, List.length_singleton, List.range_succ, List.map_append, List.sum_append,
    List.map_congr_left raised, List.sum_map_mul_right, List.map_singleton, List.sum_singleton, last, Nat.add_mul]
  rfl

/-- Reducing after every block is reducing once at the end (R162). -/
theorem polyEval_eq_polySum_mod (r : Nat) (ns : List Nat) : polyEval r ns = polySum r ns % p1305 := by
  induction ns using List.reverseRecOn with
  | nil => rfl
  | append_singleton ns n ih =>
    rw [polyEval_concat, polySum_concat, ih]
    exact ((Nat.mod_modEq _ _).add_right n).mul_right r

/-- The little-endian value of a tag is the number R162 gives it. -/
theorem leValue_polyTag (key : List Byte) (ns : List Nat) : leValue (polyTag key ns) = tagNumber key ns := by
  rw [polyTag, leValue_leBytes, polyEval_eq_polySum_mod]
  exact Nat.mod_mod _ _

/-- The chunks' block numbers are those read off the message at every sixteenth byte (R163). -/
theorem chunks16_map_plainNumber (m : List Byte) : (chunks16 m).map plainNumber = plainNumbersOf m := by
  have number (i : Nat) : plainNumber ((m.drop (16 * i)).take 16) =
      leAt m (16 * i) 16 + 2 ^ (8 * min 16 (m.length - 16 * i)) := by
    rw [plainNumber, List.length_take, List.length_drop, leAt]
  rw [chunks16, List.map_map]
  exact List.map_congr_left fun i _ => number i

/-- The value of a message's tag (R164). -/
theorem leValue_polySign (key m : List Byte) : leValue (polySign key m) = tagNumber key (plainNumbersOf m) := by
  rw [polySign, leValue_polyTag, chunks16_map_plainNumber]

/-- The comparison of a computed tag with 16 given bytes decides whether their value is the tag's number (R115, R169). -/
theorem ctEq_polyTag (key : List Byte) (ns : List Nat) {tag : List Byte} (hl : tag.length = 16) :
    ctEq (polyTag key ns) tag = decide (leValue tag = tagNumber key ns) := by
  have sameLength : (polyTag key ns).length = tag.length := (polyTag_length key ns).trans hl.symm
  rw [ctEq_eq_decide sameLength, decide_eq_decide, ← leValue_polyTag]
  exact ⟨fun e => e ▸ rfl, fun e => leValue_injective sameLength e.symm⟩

end Sys2Proof.Machine
end

section
/-! Commands on good regions: the checks pass, and a region's bytes are written and nothing beside them (20_memory.md R66);
then P_SIGN and P_VERIFY (42_poly1305.md R170, R171). -/

namespace Sys2Proof.Machine

variable (s : State)

/-- Where every region is good, what follows the region checks decides how the command ends (R66). -/
theorem State.settle_checkRegions_good {rs : List Region} {rest : Unit → Except Stop State}
    (hr : ∀ r ∈ rs, ¬ s.RegionBad r) : s.settle (s.checkRegions rs >>= rest) = s.settle (rest ()) := by
  rw [State.checkRegions_ok (s := s) fun r hm => (s.regionGood_iff r).1 (hr r hm)]
  rfl

/-- A write that fills a good region leaves every byte outside it. -/
theorem State.memWrite_unchangedOutside {r : Region} {v : List Byte} (hr : ¬ s.RegionBad r) (hv : v.length = r.n.toNat) :
    UnchangedOutside s (s.memWrite r.h r.off v) r := fun _ _ outside =>
  s.byteAt_memWrite_other ((s.regionGood_iff r).1 hr) hv outside

variable {mh moff mlen kh koff th toff : Word}

/-- P_SIGN on good regions stores the tag of the bytes that stood in the regions before the write (R170). -/
theorem execPSign_good (hr : ∀ r ∈ (Instr.pSign mh moff mlen kh koff th toff).regions, ¬ s.RegionBad r) :
    execPSign mh moff mlen kh koff th toff s =
      .next ((s.memWrite th toff (polySign (s.memRead kh koff 32) (s.memRead mh moff (s32 mlen).toNat))).complete false) :=
  s.settle_checkRegions_good hr

/-- P_VERIFY on good regions completes with RESULT saying whether the given tag has the message's tag number (R171). -/
theorem execPVerify_good (hr : ∀ r ∈ (Instr.pVerify mh moff mlen kh koff th toff).regions, ¬ s.RegionBad r) :
    execPVerify mh moff mlen kh koff th toff s = .next (s.complete (decide (leValue (s.memRead th toff 16) =
      tagNumber (s.memRead kh koff 32) (plainNumbersOf (s.memRead mh moff (s32 mlen).toNat))))) := by
  have ht : ¬ s.RegionBad ⟨th, toff, 16⟩ := hr _ (by simp [Instr.regions])
  have tagLength : (s.memRead th toff 16).length = 16 := s.readRegion_length ((s.regionGood_iff _).1 ht)
  rw [← chunks16_map_plainNumber, ← ctEq_polyTag _ _ tagLength]
  exact s.settle_checkRegions_good hr

end Sys2Proof.Machine
end

section
/-! The Poly1305 family (42_poly1305.md R170, R171). -/

namespace Sys2Proof
open Sys2Proof.Machine

/-- Settles O42, one clause each from the decode check of a frame of format N, the tag written to a good region, and the region
checks that come before anything else. -/
theorem polySignWritesTag : Obligations.PolySignWritesTag := by
  intro s mh moff mlen kh koff th toff
  refine ⟨fun nfe => ?_, fun hm hk ht => ?_, fun hbad => ?_⟩
  · exact decode_formatN (o := .pSign) rfl nfe [mh, moff, mlen, kh, koff, th, toff]
  · have tagLength := polyTag_length (s.memRead kh koff 32) ((chunks16 (s.memRead mh moff (s32 mlen).toNat)).map plainNumber)
    refine ⟨_, execPSign_good s (by simp [Instr.regions, hm, hk, ht]), ?_, ?_, rfl⟩
    · have stored := s.memRead_memWrite (r := ⟨th, toff, 16⟩) ((s.regionGood_iff _).1 ht) tagLength
      exact (congrArg leValue stored).trans (leValue_polySign _ _)
    · exact s.memWrite_unchangedOutside ht tagLength
  · obtain ⟨r, hr, hb⟩ : ∃ r ∈ (Instr.pSign mh moff mlen kh koff th toff).regions, s.RegionBad r := by
      simpa [Instr.regions] using hbad
    exact badRegionIsInvalidArgument _ s r hr hb rfl

/-- Settles O43, one clause each from the decode check of a frame of format N, the comparison with a good region's tag, and the
region checks that come before anything else. -/
theorem polyVerifyComparesTag : Obligations.PolyVerifyComparesTag := by
  intro s mh moff mlen kh koff th toff
  refine ⟨fun nfe => ?_, fun hm hk ht => ?_, fun hbad => ?_⟩
  · exact decode_formatN (o := .pVerify) rfl nfe [mh, moff, mlen, kh, koff, th, toff]
  · exact execPVerify_good s (by simp [Instr.regions, hm, hk, ht])
  · obtain ⟨r, hr, hb⟩ : ∃ r ∈ (Instr.pVerify mh moff mlen kh koff th toff).regions, s.RegionBad r := by
      simpa [Instr.regions] using hbad
    exact badRegionIsInvalidArgument _ s r hr hb rfl

end Sys2Proof
end

section
/-! Encoding and decoding are inverse (30_encoding.md R91 to R97): the mask of a format fixes exactly the bits that no operand
field of the format holds, so a command word passes its mask exactly when it is put together again from its fields. -/

namespace Sys2Proof

/-- Bit `i` of W0 lies in an operand field that the format uses (R91, R93). -/
def Format.operandBit (f : Format) (i : Nat) : Bool :=
  match f with
  | .n => false
  | .r3 => decide (8 ≤ i ∧ i < 20)
  | .r2 => decide (8 ≤ i ∧ i < 16)
  | .s => decide (12 ≤ i ∧ i < 21)
  | .rd => decide (8 ≤ i ∧ i < 12)
  | .ra => decide (12 ≤ i ∧ i < 16)

/-- The command word of an opcode with the operand fields of `w0` that the format uses, every other field 0 (R93). -/
def Format.word (f : Format) (c : BitVec 8) (w0 : Word) : Word :=
  match f with
  | .n => commandWord c 0 0 0 0
  | .r3 => commandWord c (fieldFd w0) (fieldFa w0) (fieldFb w0) 0
  | .r2 => commandWord c (fieldFd w0) (fieldFa w0) 0 0
  | .s => commandWord c 0 (fieldFa w0) (fieldFb w0) (fieldBit w0)
  | .rd => commandWord c (fieldFd w0) 0 0 0
  | .ra => commandWord c 0 (fieldFa w0) 0 0

/-- A format's mask holds exactly the bits outside its operand fields. -/
theorem Format.getLsbD_mask (f : Format) {i : Nat} (hi : i < 32) : f.mask.getLsbD i = !f.operandBit i := by
  have bits : ∀ i : Fin 32, f.mask.getLsbD i.val = !f.operandBit i.val := by cases f <;> decide
  exact bits ⟨i, hi⟩

/-- The operand fields lie above the opcode. -/
theorem Format.operandBit_ge {f : Format} {i : Nat} (h : f.operandBit i = true) : 8 ≤ i := by
  cases f <;> simp [Format.operandBit] at h <;> omega

theorem testBit_fieldFd (w0 : Word) (i : Nat) : (fieldFd w0).val.testBit i = (decide (i < 4) && w0.getLsbD (8 + i)) :=
  BitVec.getLsbD_extractLsb' ..

theorem testBit_fieldFa (w0 : Word) (i : Nat) : (fieldFa w0).val.testBit i = (decide (i < 4) && w0.getLsbD (12 + i)) :=
  BitVec.getLsbD_extractLsb' ..

theorem testBit_fieldFb (w0 : Word) (i : Nat) : (fieldFb w0).val.testBit i = (decide (i < 4) && w0.getLsbD (16 + i)) :=
  BitVec.getLsbD_extractLsb' ..

theorem getLsbD_fieldBit (w0 : Word) (i : Nat) : (fieldBit w0).getLsbD i = (decide (i < 1) && w0.getLsbD (20 + i)) :=
  BitVec.getLsbD_extractLsb' ..

/-- Bit by bit, the word of a format is `w0` in the operand fields and the opcode everywhere else. -/
theorem Format.getLsbD_word (f : Format) (c : BitVec 8) (w0 : Word) {i : Nat} (hi : i < 32) :
    (f.word c w0).getLsbD i = if f.operandBit i then w0.getLsbD i else c.getLsbD i := by
  have opcodeOnly : 8 ≤ i → c.getLsbD i = false := BitVec.getLsbD_of_ge c i
  cases f
  all_goals
    simp only [Format.word, Format.operandBit, getLsbD_commandWord _ _ _ _ _ hi, testBit_fieldFd, testBit_fieldFa,
      testBit_fieldFb, getLsbD_fieldBit, Fin.val_zero, Nat.zero_testBit, decide_eq_true_eq]
    grind

/-- A command word passes the mask of its format exactly when it is the word of its own fields (R93, R97 condition 3). -/
theorem Format.word_eq_iff (f : Format) (c : BitVec 8) (w0 : Word) :
    f.word c w0 = w0 ↔ w0 &&& f.mask = c.zeroExtend 32 := by
  have perBit {i : Nat} (hi : i < 32) :
      (f.word c w0).getLsbD i = w0.getLsbD i ↔ (w0 &&& f.mask).getLsbD i = (c.zeroExtend 32).getLsbD i := by
    rw [f.getLsbD_word c w0 hi, BitVec.getLsbD_and, f.getLsbD_mask hi, BitVec.getLsbD_setWidth]
    cases hb : f.operandBit i with
    | false => simp [hi, eq_comm]
    | true => simp [BitVec.getLsbD_of_ge c i (Format.operandBit_ge hb)]
  constructor
  · exact fun h => BitVec.eq_of_getLsbD_eq fun i hi => (perBit hi).1 (congrArg (·.getLsbD i) h)
  · exact fun h => BitVec.eq_of_getLsbD_eq fun i hi => (perBit hi).2 (congrArg (·.getLsbD i) h)

/-! ### The frame of a command -/

/-- The row of the opcode map that a command belongs to (R95). -/
def Instr.opcode : Instr → Opcode
  | .keyEq .. => .keyEq
  | .macEq .. => .macEq
  | .ccSetkey .. => .ccSetkey
  | .ccBlock .. => .ccBlock
  | .ccEncrypt .. => .ccEncrypt
  | .ccDecrypt .. => .ccDecrypt
  | .ccCreatekey .. => .ccCreatekey
  | .pSign .. => .pSign
  | .pVerify .. => .pVerify
  | .aSign .. => .aSign
  | .aVerify .. => .aVerify
  | .fAdd .. => .fAdd
  | .fSub .. => .fSub
  | .fMul .. => .fMul
  | .fSqr .. => .fSqr
  | .fMul121666 .. => .fMul121666
  | .fInv .. => .fInv
  | .fCswap .. => .fCswap
  | .fDecode .. => .fDecode
  | .fEncode .. => .fEncode

/-- The command word of a command's frame. -/
def Instr.word (i : Instr) : Word := (encode i).headD 0

/-- The argument words of a command's frame. -/
def Instr.args (i : Instr) : List Word := (encode i).tail

theorem encode_eq_word_cons (i : Instr) : encode i = i.word :: i.args := by cases i <;> rfl

/-- The command word names the command's row of the map. -/
theorem Instr.fieldOpc_word (i : Instr) : fieldOpc i.word = i.opcode.code := by
  cases i <;> exact fieldOpc_commandWord ..

/-- The command word is the word of its own fields, whatever the format leaves unused being 0. -/
theorem Instr.formatWord_word (i : Instr) : i.opcode.format.word i.opcode.code i.word = i.word := by
  cases i
  all_goals
    simp [Instr.word, encode, Instr.opcode, Opcode.format, Opcode.code, Format.word, fieldFd_commandWord,
      fieldFa_commandWord, fieldFb_commandWord, fieldBit_commandWord]

/-- The index fields the decoder checks are the registers the command names. -/
theorem Instr.formatIndices_word (i : Instr) : i.opcode.format.indices i.word = i.indices := by
  cases i
  all_goals
    simp [Instr.word, encode, Instr.opcode, Opcode.format, Format.indices, Instr.indices, fieldFd_commandWord,
      fieldFa_commandWord, fieldFb_commandWord]

/-- The command put together from the frame's words is the command. -/
theorem Instr.assemble_word (i : Instr) : assemble i.opcode i.word i.args = .ok i := by
  cases i
  all_goals
    simp [Instr.word, Instr.args, encode, Instr.opcode, assemble, fieldFd_commandWord, fieldFa_commandWord,
      fieldFb_commandWord, fieldBit_commandWord]

/-- A command put together from a command word and argument words is encoded by the word of its fields and those arguments,
and names the registers of the index fields. -/
theorem encode_of_assemble {o : Opcode} {w0 : Word} {args : List Word} {i : Instr} (h : assemble o w0 args = .ok i) :
    encode i = o.format.word o.code w0 :: args ∧ i.indices = o.format.indices w0 := by
  cases o
  all_goals
    simp only [assemble] at h
    split at h
    · cases h
      exact ⟨rfl, rfl⟩
    · cases h

end Sys2Proof
end

section
/-! The encoding family (30_encoding.md R91 to R97, R100). -/

namespace Sys2Proof
open Sys2Proof.Machine

/-- Settles O1: the frame of a command meets none of the conditions of R97, and its words give the command back. -/
theorem decodeOfEncodeIsIdentity : Obligations.DecodeOfEncodeIsIdentity := by
  intro nfe i hwf
  have tabled : Opcode.ofCode (fieldOpc i.word) = some i.opcode := by rw [i.fieldOpc_word, Opcode.ofCode_code]
  have maskMatches : i.word &&& i.opcode.format.mask = i.opcode.code.zeroExtend 32 :=
    (Format.word_eq_iff ..).1 i.formatWord_word
  have inRange : ∀ j ∈ i.opcode.format.indices i.word, j.val < nfe := by
    rw [i.formatIndices_word]
    simpa [Instr.wf] using hwf
  rw [encode_eq_word_cons, decode_assemble tabled maskMatches inRange]
  exact i.assemble_word

/-- Settles O2: an accepted command word is put together again from its fields, because it passed its mask. -/
theorem encodeOfDecodeIsIdentity : Obligations.EncodeOfDecodeIsIdentity := by
  intro nfe frame i h
  cases frame with
  | nil => cases (decode_nil nfe).symm.trans h
  | cons w0 args =>
    obtain ⟨o, ho, hm, hi, -, hasm⟩ := decode_ok_inv h
    obtain ⟨hframe, hindices⟩ := encode_of_assemble hasm
    constructor
    · rw [hframe, (Format.word_eq_iff ..).2 hm]
    · simpa [Instr.wf, hindices] using hi

/-- Settles O3: each frame is the encoding of its command. -/
theorem specFramesDecode : Obligations.SpecFramesDecode := by
  have decodes (i : Instr) (hwf : i.wf 16 = true) : decode 16 (encode i) = .ok i := decodeOfEncodeIsIdentity 16 i hwf
  exact ⟨decodes (.fAdd 2 0 1) rfl, decodes (.ccSetkey 0 0) rfl, decodes (.ccBlock 0 0 1 0x09000000 0x4a000000 0) rfl,
    decodes (.macEq 0 0 0 1) rfl, decodes (.fCswap 0 1 1) rfl, decodes (.fEncode 3 1 0) rfl,
    decodes (.aSign 2 0 12 4 0 114 1 0 5 0) rfl⟩

end Sys2Proof
end

section
/-! What a step keeps, drawn once from the ways a command ends (60_exceptions.md R261) and from what a host action keeps. -/

namespace Sys2Proof

/-- A command writes only registers that it names. -/
theorem Instr.writesFe_subset_indices (i : Instr) : ∀ j ∈ i.writesFe, j ∈ i.indices := by
  cases i <;> simp [Instr.writesFe, Instr.indices]

/-- The one command that sets KEY (R32). -/
theorem Instr.eq_ccSetkey_of_setsKey {i : Instr} (h : i.setsKey = true) : ∃ kh koff, i = .ccSetkey kh koff := by
  cases i with
  | ccSetkey kh koff => exact ⟨kh, koff, rfl⟩
  | _ => cases h

end Sys2Proof

namespace Sys2Proof.Machine

variable {s t : State} {i : Instr}

/-! ### A command from `s` to `t` -/

/-- A command's next state is one of the ends of R261. -/
theorem exec_next_ends (h : exec i s = .next t) : Ends i s t := by
  obtain ⟨u, hu, ends⟩ := exec_ends s i
  cases hu.symm.trans h
  exact ends

/-- A command that does not succeed leaves what its stop leaves. -/
theorem Ends.stopped_or_succeeded (h : Ends i s t) : (∃ e, t = s.stopped e) ∨ Succeeded i s t := by
  cases h with
  | error => exact .inl ⟨.error .invalidArgument, rfl⟩
  | refuse => exact .inl ⟨.refuse, rfl⟩
  | unwritten r => exact .inl ⟨.fault (.unwrittenRead r), rfl⟩
  | overflow => exact .inl ⟨.fault .arithOverflow, rfl⟩
  | success t h => exact .inr h

/-- A recorded fault stays recorded (R42). -/
theorem State.mem_addFault {f g : Fault} (h : f ∈ s.fault) : f ∈ (s.addFault g).fault := by
  rw [State.addFault_fault]
  split
  · exact h
  · exact List.mem_append_left _ h

/-- A fault of a running state is the only one recorded (R270). -/
theorem State.addFault_eq {f : Fault} (hf : s.fault = []) : s.addFault f = { s with fault := [f] } := by
  simp [State.addFault, hf]

/-- A stop removes no fault and clears no refusal (R42). -/
theorem State.stopped_final (e : Stop) :
    (∀ f ∈ s.fault, f ∈ (s.stopped e).fault) ∧ (s.refused = true → (s.stopped e).refused = true) := by
  cases e with
  | error e => exact ⟨fun _ h => h, id⟩
  | fault g => exact ⟨fun _ h => State.mem_addFault h, id⟩
  | refuse => exact ⟨fun _ h => h, fun _ => rfl⟩

/-- A stop writes no mark. -/
theorem State.stopped_marked (e : Stop) (r : Reg) : (s.stopped e).marked r = s.marked r := by
  rw [s.stopped_keeps e]
  cases r <;> rfl

/-- A command that succeeds clears no mark (R37). -/
theorem Succeeded.marked (h : Succeeded i s t) {r : Reg} (hr : s.marked r = true) : t.marked r = true := by
  cases r with
  | fe j =>
    by_cases hj : j ∈ i.writesFe
    · exact h.feMark j hj
    · exact (congrArg FeReg.written (h.fe j hj)).trans hr
  | key =>
    cases hk : i.setsKey with
    | false => exact (congrArg KeyReg.written (h.key hk)).trans hr
    | true => exact h.keyMark hk
  | ctr =>
    rcases h.ctr with kept | ⟨-, -, written⟩
    · exact (congrArg CtrReg.written kept).trans hr
    · exact written

theorem Ends.params (h : Ends i s t) : t.params = s.params := by
  rcases h.stopped_or_succeeded with ⟨e, rfl⟩ | ok
  · rw [s.stopped_keeps e]
  · exact ok.params

theorem Ends.final (h : Ends i s t) : (∀ f ∈ s.fault, f ∈ t.fault) ∧ (s.refused = true → t.refused = true) := by
  rcases h.stopped_or_succeeded with ⟨e, rfl⟩ | ok
  · exact State.stopped_final e
  · exact ⟨fun f hf => ok.fault ▸ hf, fun hr => ok.refused.trans hr⟩

theorem Ends.marked (h : Ends i s t) {r : Reg} (hr : s.marked r = true) : t.marked r = true := by
  rcases h.stopped_or_succeeded with ⟨e, rfl⟩ | ok
  · exact (State.stopped_marked e r).trans hr
  · exact ok.marked hr

/-- KEY is changed by CC_SETKEY alone (R32). -/
theorem Ends.key (h : Ends i s t) (hk : i.setsKey = false) : t.key = s.key := by
  rcases h.stopped_or_succeeded with ⟨e, rfl⟩ | ok
  · rw [s.stopped_keeps e]
  · exact ok.key hk

/-- CTR is changed by write-back alone (R34). -/
theorem Ends.ctr (h : Ends i s t) : t.ctr = s.ctr ∨ (i.isStream = true ∧ s.params.counterWriteback = true) := by
  rcases h.stopped_or_succeeded with ⟨e, rfl⟩ | ok
  · rw [s.stopped_keeps e]
    exact .inl rfl
  · exact ok.ctr.imp_right fun ⟨stream, writeback, _⟩ => ⟨stream, writeback⟩

/-- Memory is as before, or a checked region has been filled (R65). -/
theorem Ends.buf (h : Ends i s t) : t.buf = s.buf ∨ ∃ r v, i.stores = some r ∧ s.regionOk r = true ∧
    v.length = r.n.toNat ∧ t.buf = (s.memWrite r.h r.off v).buf := by
  rcases h.stopped_or_succeeded with ⟨e, rfl⟩ | ok
  · rw [s.stopped_keeps e]
    exact .inl rfl
  · exact ok.buf

/-! ### The host's access to registers (R282, R283) -/

theorem hostRdFe_marked {n : Nat} {j : FeIdx} (hn : s.hostFe n = some j) (hw : (s.feReg j).written = true) :
    hostRdFe n s = .next (s.answer (.limbs (s.feReg j).limbs)) := by
  simp only [hostRdFe, hn, State.readFe_marked (s := s) hw]
  rfl

theorem hostRdFe_unmarked {n : Nat} {j : FeIdx} (hn : s.hostFe n = some j) (hw : (s.feReg j).written = false) :
    hostRdFe n s = .next (s.addFault (.unwrittenRead (.fe j))) := by
  simp only [hostRdFe, hn, State.readFe_unmarked (s := s) hw]
  rfl

theorem hostWrFe_named {n : Nat} {j : FeIdx} (hn : s.hostFe n = some j) (v : Limbs Word) :
    hostWrFe n v s = .next ((s.writeFe j v).answer .nothing) := by
  simp only [hostWrFe, hn]

theorem hostRdCtr_marked (hw : s.ctr.written = true) : hostRdCtr s = .next (s.answer (.word s.ctr.value)) := by
  simp only [hostRdCtr, State.readCtr_marked (s := s) hw]
  rfl

theorem hostRdCtr_unmarked (hw : s.ctr.written = false) :
    hostRdCtr s = .next (s.addFault (.unwrittenRead .ctr)) := by
  simp only [hostRdCtr, State.readCtr_unmarked (s := s) hw]
  rfl

/-! ### A step from `s` to `t` -/

/-- What a turn of the core does: nothing without a frame, `raise IllegalCommand` on an illegal frame, else the command (R281). -/
theorem coreStep_next (h : coreStep s = .next t) : (s.pend = none ∧ t = s) ∨
    ∃ frame, s.pend = some frame ∧ (t = s.raiseError .illegalCommand ∨
      ∃ i, decode s.params.nfe frame = .ok i ∧ Ends i s t) := by
  cases hp : s.pend with
  | none =>
    simp only [coreStep, hp] at h
    cases h
    exact .inl ⟨rfl, rfl⟩
  | some frame =>
    refine .inr ⟨frame, rfl, ?_⟩
    cases hd : decode s.params.nfe frame with
    | error e => cases (coreStep_illegal hp hd).symm.trans h; exact .inl rfl
    | ok i =>
      simp only [coreStep, hp, hd] at h
      exact .inr ⟨i, rfl, exec_next_ends h⟩

/-- A property of states that the agenda has no part in is kept by a step where the host's actions and the core keep it. -/
theorem step_keeps {P : State → Prop} (agenda : ∀ s rest, P s → P { s with agenda := rest })
    (host : ∀ a s t, s.Running → P s → hostStep a s = .next t → P t)
    (core : ∀ s t, s.Running → P s → coreStep s = .next t → P t) (hs : P s) (h : step s = .next t) : P t := by
  obtain ⟨running, ⟨rest, a, -, hstep⟩ | ⟨rest, -, hstep⟩⟩ := step_next h
  · exact host a { s with agenda := rest } t running (agenda s rest hs) hstep
  · exact core { s with agenda := rest } t running (agenda s rest hs) hstep

/-- A step on the core's turn, where the machine can move. -/
theorem step_core (h : s.Running) {rest : List Move} (ha : s.agenda = .core :: rest) :
    step s = coreStep { s with agenda := rest } := by
  obtain ⟨noFault, notRefused⟩ := h
  simp [step, machineStep, moveStep, noFault, notRefused, ha]

/-- With nothing left on the agenda, the turn is the core's. -/
theorem step_core_of_nil (h : s.Running) (ha : s.agenda = []) : step s = coreStep s := by
  obtain ⟨noFault, notRefused⟩ := h
  simp [step, machineStep, moveStep, noFault, notRefused, ha]

/-- A pending frame that decodes is run (R281). -/
theorem coreStep_runs {frame : List Word} (hp : s.pend = some frame) (hd : decode s.params.nfe frame = .ok i) :
    coreStep s = exec i s := by
  simp only [coreStep, hp, hd]

end Sys2Proof.Machine
end

section
/-! The invariant of the machine (10_state.md R31, R35, R39, R42; 20_memory.md R60): every operation that a step is made of
keeps it. -/

namespace Sys2Proof.Machine

variable {s t : State}

/-- A running state may record one fault. -/
theorem State.Inv.addFault (hi : s.Inv) (hf : s.fault = []) (f : Fault) : (s.addFault f).Inv := by
  obtain ⟨legal, wf, handles, busy, -, refused, marks⟩ := hi
  rw [State.addFault_eq hf]
  exact ⟨legal, wf, handles, busy, le_rfl, refused, marks⟩

/-- Only the error's four effects: the invariant holds after `raise E` (R262). -/
theorem State.Inv.raiseError (hi : s.Inv) (hr : s.refused = false) (e : Err) : (s.raiseError e).Inv := by
  obtain ⟨legal, wf, handles, -, faults, -, marks⟩ := hi
  exact ⟨legal, wf, handles, rfl, faults, fun refused => absurd (hr.symm.trans refused) Bool.false_ne_true, marks⟩

theorem State.Inv.refuse (hi : s.Inv) (hp : s.pend.isSome = true) : s.refuse.Inv := by
  obtain ⟨legal, wf, handles, busy, faults, -, marks⟩ := hi
  exact ⟨legal, wf, handles, busy, faults, fun _ => hp, marks⟩

/-- The table with one slot below NBUF replaced by a canonical buffer. -/
theorem State.Inv.put {b : Buffer} {h : Nat} (hi : s.Inv) (hh : h < s.params.nbuf) (hb : b.wf = true) :
    State.Inv { s with buf := s.buf.put h b } := by
  obtain ⟨legal, wf, handles, rest⟩ := hi
  refine ⟨legal, Memory.put_wf wf h hb, fun e he => ?_, rest⟩
  rcases mem_insertKey he with rfl | he
  · exact hh
  · exact handles e he

theorem State.Inv.drop (hi : s.Inv) (h : Nat) : State.Inv { s with buf := s.buf.drop h } := by
  obtain ⟨legal, wf, handles, rest⟩ := hi
  exact ⟨legal, Memory.drop_wf wf h, fun e he => handles e (mem_eraseKey he), rest⟩

/-- A write keeps every buffer canonical and adds no slot. -/
theorem State.Inv.write (hi : s.Inv) (h off : Nat) (v : List Byte) :
    State.Inv { s with buf := s.buf.write h off v } := by
  obtain ⟨legal, wf, handles, rest⟩ := hi
  refine ⟨legal, Memory.write_wf wf h off v, fun e he => ?_, rest⟩
  obtain ⟨d, hd, same⟩ := Memory.write_handles he
  exact same ▸ handles d hd

/-- A register below NFE may be written. -/
theorem State.Inv.writeFe {i : FeIdx} (hi : s.Inv) (hn : i.val < s.params.nfe) (v : Limbs Word) : (s.writeFe i v).Inv := by
  obtain ⟨legal, wf, handles, busy, faults, refused, marks⟩ := hi
  refine ⟨legal, wf, handles, busy, faults, refused, fun j hj => ?_⟩
  have other : j ≠ i := by
    rintro rfl
    exact absurd hn (not_lt.2 hj)
  rw [State.feReg_writeFe_other _ other]
  exact marks j hj

/-- The register a host action names is below NFE (R282). -/
theorem State.hostFe_lt {n : Nat} {j : FeIdx} (h : s.hostFe n = some j) : j.val < s.params.nfe := by
  unfold State.hostFe at h
  split at h
  · split at h
    · cases h
      assumption
    · cases h
  · cases h

/-- A host action keeps the invariant. -/
theorem hostStep_keeps_inv {a : HostAction} (running : s.Running) (hi : s.Inv) (h : hostStep a s = .next t) : t.Inv := by
  obtain ⟨noFault, notRefused⟩ := running
  unfold hostStep at h
  split at h
  · cases h
  rename_i may
  split at h
  · cases h
    exact hi.addFault noFault _
  replace may : s.hostMay a = true := by simpa using may
  cases a with
  | issue frame =>
    cases h
    obtain ⟨legal, wf, handles, -, faults, -, marks⟩ := hi
    exact ⟨legal, wf, handles, rfl, faults, fun _ => rfl, marks⟩
  | rdStatus | bufRead =>
    cases h
    exact hi
  | rdFe n =>
    obtain ⟨j, named⟩ : ∃ j, s.hostFe n = some j := Option.isSome_iff_exists.1 may
    cases hw : (s.feReg j).written with
    | true => cases (hostRdFe_marked named hw).symm.trans h; exact hi
    | false => cases (hostRdFe_unmarked named hw).symm.trans h; exact hi.addFault noFault _
  | wrFe n v =>
    obtain ⟨j, named⟩ : ∃ j, s.hostFe n = some j := Option.isSome_iff_exists.1 may
    cases (hostWrFe_named named v).symm.trans h
    exact hi.writeFe (State.hostFe_lt named) v
  | rdCtr =>
    cases hw : s.ctr.written with
    | true => cases (hostRdCtr_marked hw).symm.trans h; exact hi
    | false => cases (hostRdCtr_unmarked hw).symm.trans h; exact hi.addFault noFault _
  | wrCtr v =>
    cases h
    exact hi
  | bufAlloc x n =>
    cases h
    simp only [State.hostMay, Bool.and_eq_true, decide_eq_true_eq] at may
    exact hi.put (by omega) (Buffer.zeros_wf (by unfold maxBufferLen; omega))
  | bufFree x =>
    cases h
    exact hi.drop x
  | bufWrite x off bytes =>
    cases h
    exact hi.write x off.toNat bytes

/-- A well-formed command keeps the invariant. -/
theorem Ends.keeps_inv {i : Instr} (h : Ends i s t) (running : s.Running) (hi : s.Inv) (hp : s.pend.isSome = true)
    (hwf : i.wf s.params.nfe = true) : t.Inv := by
  obtain ⟨noFault, notRefused⟩ := running
  cases h with
  | error => exact hi.raiseError notRefused _
  | refuse => exact hi.refuse hp
  | unwritten => exact hi.addFault noFault _
  | overflow => exact hi.addFault noFault _
  | success t ok =>
    obtain ⟨b, status, -⟩ := ok.status
    have wfBuf : t.buf.wf = true ∧ ∀ e ∈ t.buf, e.1 < s.params.nbuf := by
      rcases ok.buf with kept | ⟨r, v, -, -, -, filled⟩
      · exact kept ▸ ⟨hi.2.1, hi.2.2.1⟩
      · have := hi.write r.h.toNat (s32 r.off).toNat v
        exact filled ▸ ⟨this.2.1, this.2.2.1⟩
    obtain ⟨legal, -, -, -, -, -, marks⟩ := hi
    refine ⟨ok.params ▸ legal, wfBuf.1, ok.params ▸ wfBuf.2, ?_, ?_, ?_, fun j hj => ?_⟩
    · rw [status, ok.pend]; rfl
    · simp [ok.fault, noFault]
    · simp [ok.refused, notRefused]
    · rw [ok.params] at hj
      have below : ∀ j ∈ i.indices, j.val < s.params.nfe := by simpa [Instr.wf] using hwf
      have notWritten : j ∉ i.writesFe := fun hw => absurd (below j (i.writesFe_subset_indices j hw)) (not_lt.2 hj)
      rw [ok.fe j notWritten]
      exact marks j hj

/-- A turn of the core keeps the invariant: an accepted frame is a well-formed command. -/
theorem coreStep_keeps_inv (running : s.Running) (hi : s.Inv) (h : coreStep s = .next t) : t.Inv := by
  rcases coreStep_next h with ⟨-, rfl⟩ | ⟨frame, hp, rfl | ⟨i, hd, ends⟩⟩
  · exact hi
  · exact hi.raiseError running.2 _
  · exact ends.keeps_inv running hi (hp ▸ rfl) (encodeOfDecodeIsIdentity _ _ _ hd).2

end Sys2Proof.Machine
end

section
/-! The steps and invariant family (00_scope.md R9; 10_state.md R37, R38, R42 to R45; 60_exceptions.md R260, R261, R281). -/

namespace Sys2Proof
open Sys2Proof.Machine

/-- Settles O10: the host's actions and the core each keep the invariant, and the agenda has no part in it. -/
theorem everyStepKeepsInvariant : Obligations.EveryStepKeepsInvariant := fun _ _ hi h =>
  step_keeps (P := State.Inv) (fun _ _ hi => hi) (fun _ _ _ running hi => hostStep_keeps_inv running hi)
    (fun _ _ running hi => coreStep_keeps_inv running hi) hi h

/-- Settles O11: a stopped state's step tests FAULT and REFUSED first, and no command or host action takes either back. -/
theorem faultsAndRefusalsAreFinal : Obligations.FaultsAndRefusalsAreFinal := by
  refine ⟨fun s hf => ?_, fun s hf hr => ?_, fun s t i h => ?_, fun s t a h => ?_⟩
  · obtain ⟨f, rest, hfault⟩ := List.exists_cons_of_ne_nil hf
    exact ⟨f, by simp [hfault], by simp only [step, machineStep, hfault]⟩
  · simp only [step, machineStep, hf, hr, if_true]
  · exact (exec_next_ends h).final
  · obtain ⟨-, -, -, faults, refused, -⟩ := hostStep_keeps h
    exact ⟨faults, refused⟩

/-- Settles O12: neither a host action nor a turn of the core clears a mark. -/
theorem noStepClearsWrittenMark : Obligations.NoStepClearsWrittenMark := by
  intro s t r h hr
  refine step_keeps (P := fun s => s.marked r = true) (fun s rest hr => ?_) (fun a s t _ hr h => ?_)
    (fun s t _ hr h => ?_) hr h
  · cases r <;> exact hr
  · obtain ⟨-, -, -, -, -, marks⟩ := hostStep_keeps h
    exact marks r hr
  · rcases coreStep_next h with ⟨-, rfl⟩ | ⟨-, -, rfl | ⟨i, -, ends⟩⟩
    · exact hr
    · exact (State.stopped_marked (.error .illegalCommand) r).trans hr
    · exact ends.marked hr

/-- Settles O13: neither a host action nor a turn of the core changes the parameters. -/
theorem noStepChangesParameters : Obligations.NoStepChangesParameters := by
  intro s t h
  refine step_keeps (P := fun u => u.params = s.params) (fun _ _ hp => hp) (fun a u t _ hp h => ?_)
    (fun u t _ hp h => ?_) rfl h
  · exact (hostStep_keeps h).1.trans hp
  · rcases coreStep_next h with ⟨-, rfl⟩ | ⟨-, -, rfl | ⟨i, -, ends⟩⟩
    · exact hp
    · exact hp
    · exact ends.params.trans hp

/-- Settles O14: an illegal frame is the error IllegalCommand, and a command ends in one of the ways of R261. -/
theorem everyCommandEndsInOneOfFourOutcomes : Obligations.EveryCommandEndsInOneOfFourOutcomes := by
  intro s frame running hp
  obtain ⟨noFault, notRefused⟩ := running
  cases hd : decode s.params.nfe frame with
  | error e => exact .inr (.inl ⟨.illegalCommand, by decide, coreStep_illegal hp hd⟩)
  | ok i =>
    obtain ⟨t, runs, ends⟩ := exec_ends s i
    rw [coreStep_runs hp hd, runs]
    cases ends with
    | error => exact .inr (.inl ⟨.invalidArgument, by decide, rfl⟩)
    | refuse => exact .inr (.inr (.inr rfl))
    | unwritten r _ unmarked =>
      exact .inr (.inr (.inl ⟨_, .inr ⟨r, rfl, unmarked⟩, congrArg _ (State.addFault_eq noFault)⟩))
    | overflow => exact .inr (.inr (.inl ⟨_, .inl rfl, congrArg _ (State.addFault_eq noFault)⟩))
    | success t ok =>
      obtain ⟨b, status, -⟩ := ok.status
      exact .inl ⟨t, rfl, ok.pend, by rw [status], by rw [status], ok.fault.trans noFault, ok.refused.trans notRefused⟩

/-- Settles O28, one clause of the frame from what each end of a command keeps. -/
theorem commandsWriteOnlyWhatTheyMay : Obligations.CommandsWriteOnlyWhatTheyMay := by
  intro i s t h
  have ends := exec_next_ends h
  have rest : t.agenda = s.agenda ∧ t.reply = s.reply ∧ (∀ j : FeIdx, j ∉ i.writesFe → t.feReg j = s.feReg j) ∧
      (i.readsKey = false → t.work = s.work ∧ t.blk = s.blk ∧ t.fresh = s.fresh) := by
    rcases ends.stopped_or_succeeded with ⟨e, rfl⟩ | ok
    · rw [s.stopped_keeps e]
      exact ⟨rfl, rfl, fun _ _ => rfl, fun _ => ⟨rfl, rfl, rfl⟩⟩
    · exact ⟨ok.agenda, ok.reply, ok.fe, ok.scratch⟩
  obtain ⟨agenda, reply, fe, scratch⟩ := rest
  refine ⟨ends.params, agenda, reply, fe, ends.key, fun hc => ?_, fun hs => ?_, fun r hs => ?_, scratch⟩
  · rcases ends.ctr with kept | ⟨stream, writeback⟩
    · exact kept
    · simp [stream, writeback] at hc
  · rcases ends.buf with kept | ⟨r, v, stores, -⟩
    · exact kept
    · cases hs.symm.trans stores
  · rcases ends.buf with kept | ⟨q, v, stores, good, fits, filled⟩
    · exact fun x a _ => by rw [kept]
    · cases hs.symm.trans stores
      intro x a outside
      rw [filled]
      exact s.memWrite_unchangedOutside ((s.regionGood_iff r).2 good) fits x a outside

/-- Settles O29: a command writes at most bytes of present buffers. -/
theorem commandsKeepBufferLengths : Obligations.CommandsKeepBufferLengths := by
  intro i s t x h
  rcases (exec_next_ends h).buf with kept | ⟨r, v, -, -, -, filled⟩
  · rw [kept]
  · rw [filled]
    exact s.lenAt_memWrite r.h r.off v x

/-- Settles O30: a host action leaves KEY and changes CTR by H_WRCTR alone, and of a turn of the core only the command can change
either. -/
theorem keyAndCounterWriters : Obligations.KeyAndCounterWriters := by
  intro s t h
  obtain ⟨-, ⟨rest, a, turn, hstep⟩ | ⟨rest, turn, hstep⟩⟩ := step_next h
  · obtain ⟨-, key, ctr, -⟩ := hostStep_keeps hstep
    refine ⟨fun changed => absurd key changed, fun changed => .inl ?_⟩
    obtain ⟨v, rfl⟩ := ctr.resolve_left changed
    exact ⟨v, rest, turn⟩
  · have coresTurn : s.agenda = [] ∨ ∃ rest, s.agenda = .core :: rest := turn.imp And.left fun h => ⟨rest, h⟩
    rcases coreStep_next hstep with ⟨-, rfl⟩ | ⟨frame, hp, rfl | ⟨i, hd, ends⟩⟩
    · exact ⟨fun changed => absurd rfl changed, fun changed => absurd rfl changed⟩
    · exact ⟨fun changed => absurd rfl changed, fun changed => absurd rfl changed⟩
    · refine ⟨fun changed => ⟨coresTurn, ?_⟩, fun changed => .inr ⟨coresTurn, ?_⟩⟩
      · have sets : i.setsKey = true := by
          by_contra hk
          exact changed (ends.key (by simpa using hk))
        obtain ⟨kh, koff, rfl⟩ := Instr.eq_ccSetkey_of_setsKey sets
        exact ⟨frame, kh, koff, hp, hd⟩
      · obtain ⟨stream, writeback⟩ := ends.ctr.resolve_left changed
        exact ⟨writeback, frame, i, hp, hd, stream⟩

/-- Settles O31: of the ends that leave a running state, an error writes RESULT = 0 and success gives the command's own. -/
theorem resultIsZeroUnlessComparing : Obligations.ResultIsZeroUnlessComparing := by
  intro i s t running h after
  obtain ⟨noFault, notRefused⟩ := running
  obtain ⟨noFault', notRefused'⟩ := after
  cases exec_next_ends h with
  | error => exact ⟨fun _ => rfl, fun _ => rfl⟩
  | refuse => cases notRefused'
  | unwritten | overflow => simp [noFault] at noFault'
  | success t ok =>
    obtain ⟨b, status, comparing⟩ := ok.status
    rw [status]
    refine ⟨fun hres => ?_, fun herr => absurd rfl herr⟩
    by_contra hb
    simp [comparing (by simpa using hb)] at hres

/-- Settles O7, one equation of the step for each form of the core's turn. -/
theorem stepRunsDecodedCommand : Obligations.StepRunsDecodedCommand := by
  intro s running
  refine ⟨step_core_of_nil running, fun _ => step_core running, fun frame i hp hd => ⟨fun ha => ?_, fun rest ha => ?_⟩⟩
  · exact (step_core_of_nil running ha).trans (coreStep_runs hp hd)
  · exact (step_core running ha).trans (coreStep_runs (s := { s with agenda := rest }) hp hd)

/-- Settles O9: with no buffer, no frame, no fault and no mark, each part of the invariant is about nothing. -/
theorem resetMeetsInvariant : Obligations.ResetMeetsInvariant := by
  refine ⟨rfl, fun p legal => ⟨⟨legal, rfl, ?_, rfl, Nat.zero_le 1, ?_, fun i _ => ?_⟩, rfl, rfl, rfl, rfl⟩⟩
  · exact fun e he => absurd he List.not_mem_nil
  · exact fun refused => absurd refused Bool.false_ne_true
  · rw [State.resetWith_feReg]

end Sys2Proof
end

section
/-! The host's actions (60_exceptions.md section 5): which answer one gets, and what the buffer actions do to memory. -/

namespace Sys2Proof.Machine

variable {s : State} {a : HostAction}

/-! ### Which answer (R282, R284, R285) -/

theorem hostStep_refused (h : s.hostMay a = false) : hostStep a s = .refused .hostPrecondition := if_pos h

theorem hostStep_hazard (may : s.hostMay a = true) (pending : s.pend ≠ none) (ha : a ≠ .rdStatus) :
    hostStep a s = .next (s.addFault .hostHazard) := by
  unfold hostStep
  rw [if_neg (by simp [may]), if_pos ⟨Option.isSome_iff_ne_none.2 pending, ha⟩]

theorem hostStep_effect (may : s.hostMay a = true) (quiet : s.pend = none ∨ a = .rdStatus) :
    hostStep a s = hostEffect a s := by
  unfold hostStep
  rw [if_neg (by simp [may]), if_neg (by rcases quiet with h | h <;> simp [h])]

/-- A permitted host action on an idle machine takes effect. -/
theorem step_hostEffect {rest : List Move} (running : s.Running) (turn : s.agenda = .host a :: rest)
    (may : s.hostMay a = true) (quiet : s.pend = none ∨ a = .rdStatus) :
    step s = hostEffect a { s with agenda := rest } := by
  rw [step_host running turn]
  cases a <;> exact hostStep_effect may quiet

/-! ### Host preconditions -/

/-- A register at or above NFE cannot be named (R282). -/
theorem State.hostFe_eq_none {n : Nat} (h : s.params.nfe ≤ n) : s.hostFe n = none := by
  unfold State.hostFe
  split
  · exact if_neg (not_lt.2 h)
  · rfl

theorem State.hostFe_of_lt {i : FeIdx} (h : i.val < s.params.nfe) : s.hostFe i.val = some i := by
  unfold State.hostFe
  rw [dif_pos i.isLt, if_pos h]

/-- What a range of a host action must meet (R285). -/
theorem State.hostRange_iff {h : Nat} {off n : Int} : s.hostRange h off n = true ↔
    ∃ len, h < s.params.nbuf ∧ s.buf.lenAt h = some len ∧ 0 ≤ off ∧ 0 ≤ n ∧ off + n ≤ (len : Int) := by
  unfold State.hostRange State.hostSlot Memory.lenAt
  by_cases hn : h < s.params.nbuf
  · cases s.buf.slot h <;> simp [hn, and_assoc]
  · simp [hn]

/-- The failures of a range that I9 lists. -/
theorem State.hostRange_eq_false {h : Nat} {off n : Int} (bad : s.params.nbuf ≤ h ∨ s.buf.lenAt h = none ∨ off < 0 ∨ n < 0 ∨
    ∃ len, s.buf.lenAt h = some len ∧ (len : Int) < off + n) : s.hostRange h off n = false := by
  by_contra good
  obtain ⟨len, below, present, offset, length, fits⟩ := State.hostRange_iff.1 (by simpa using good)
  rcases bad with bad | bad | bad | bad | ⟨len', bad, beyond⟩
  · omega
  · cases present.symm.trans bad
  · omega
  · omega
  · cases present.symm.trans bad
    omega

/-! ### KEY (R32) -/

theorem hostMay_withKeyWords (s : State) (a : HostAction) (k : Vector Word 8) :
    (s.withKeyWords k).hostMay a = s.hostMay a := by cases a <;> rfl

/-- An action's effect beside KEY: it reads no word of KEY and leaves every word. -/
theorem hostEffect_withKeyWords {t : State} (k : Vector Word 8) (h : hostEffect a s = .next t) :
    hostEffect a (s.withKeyWords k) = .next (t.withKeyWords k) := by
  cases a with
  | issue | rdStatus | wrCtr | bufAlloc | bufFree | bufWrite | bufRead =>
    cases h
    rfl
  | rdFe n =>
    cases hn : s.hostFe n with
    | none => simp only [hostEffect, hostRdFe, hn] at h; cases h
    | some j =>
      cases hw : (s.feReg j).written with
      | true => cases (hostRdFe_marked hn hw).symm.trans h; exact hostRdFe_marked hn hw
      | false => cases (hostRdFe_unmarked hn hw).symm.trans h; exact hostRdFe_unmarked hn hw
  | wrFe n v =>
    cases hn : s.hostFe n with
    | none => simp only [hostEffect, hostWrFe, hn] at h; cases h
    | some j => cases (hostWrFe_named hn v).symm.trans h; exact hostWrFe_named (s := s.withKeyWords k) hn v
  | rdCtr =>
    cases hw : s.ctr.written with
    | true => cases (hostRdCtr_marked hw).symm.trans h; exact hostRdCtr_marked hw
    | false => cases (hostRdCtr_unmarked hw).symm.trans h; exact hostRdCtr_unmarked hw

/-! ### Memory (R285) -/

theorem Memory.lenAt_eq_some {m : Memory} {h len : Nat} (present : m.lenAt h = some len) :
    ∃ b, m.slot h = some b ∧ b.len = len := by
  unfold Memory.lenAt at present
  split at present
  · cases present
  · rename_i b hb
    exact ⟨b, hb, Option.some.inj present⟩

theorem Memory.lenAt_of_slot {m : Memory} {h : Nat} {b : Buffer} (hb : m.slot h = some b) : m.lenAt h = some b.len := by
  simp only [Memory.lenAt, hb]

theorem Memory.lenAt_of_absent {m : Memory} {h : Nat} (hb : m.slot h = none) : m.lenAt h = none := by
  simp only [Memory.lenAt, hb]

/-- An offset within a present buffer holds a byte. -/
theorem Memory.byteAt_of_lt {m : Memory} {h a : Nat} {b : Buffer} (hb : m.slot h = some b) (ha : a < b.len) :
    m.byteAt h a = some (b.byte a) := by
  simp only [Memory.byteAt, hb, if_pos ha]

/-- A byte is its slot's. -/
theorem Memory.byteAt_congr {m m' : Memory} {h : Nat} (same : m.slot h = m'.slot h) (a : Nat) : m.byteAt h a = m'.byteAt h a := by
  simp only [Memory.byteAt, same]

/-- A freshly allocated byte is zero (R285). -/
theorem Buffer.byte_zeros (n a : Nat) : (Buffer.zeros n).byte a = 0#8 := rfl

/-- A byte of a string just written is read back at its offset. -/
theorem Memory.byteAt_write {m : Memory} {h off : Nat} {b : Buffer} {v : List Byte} (hb : m.slot h = some b)
    (fits : off + v.length ≤ b.len) {i : Nat} (hi : i < v.length) : (m.write h off v).byteAt h (off + i) = v[i]? := by
  have slot : (m.write h off v).slot h = some (b.write off v) := by simp [Memory.slot_write, hb]
  rw [Memory.byteAt_of_lt slot (by rw [Buffer.write_len]; omega), Buffer.byte_write b off v _ fits, dif_pos (by omega)]
  simp [hi]

/-- A read of a range gives its bytes in order. -/
theorem Memory.getElem?_read {m : Memory} {h off n : Nat} {b : Buffer} (hb : m.slot h = some b) (fits : off + n ≤ b.len)
    {i : Nat} (hi : i < n) : (m.read h off n)[i]? = m.byteAt h (off + i) := by
  rw [Memory.byteAt_of_lt hb (by omega)]
  simp [Memory.read, hb, Buffer.read, hi]

end Sys2Proof.Machine
end

section
/-! The host interface family (60_exceptions.md section 5; 10_state.md R32, R35, R36). -/

namespace Sys2Proof
open Sys2Proof.Machine

/-- Settles O19: the busy hazard of R284 from a running state records its name alone. -/
theorem busyHazardIsRecorded : Obligations.BusyHazardIsRecorded := by
  intro s a rest running turn pending ha may
  have permitted : State.hostMay { s with agenda := rest } a = true := by cases a <;> exact may
  rw [step_host running turn, hostStep_hazard permitted pending ha, State.addFault_eq (s := { s with agenda := rest }) running.1]

/-- Settles O20: H_RDSTATUS is no hazard, and hands back the status word. -/
theorem statusReadReturnsTheTabledWord : Obligations.StatusReadReturnsTheTabledWord := by
  intro s rest running turn
  refine ⟨s.status.word, step_hostEffect running turn rfl (.inr rfl), ?_⟩
  obtain ⟨busy, result, err⟩ := s.status
  cases busy <;> cases result <;> cases err <;> rfl

/-- Settles O21: with PEND empty the issue takes effect. -/
theorem issueFillsTheLatch : Obligations.IssueFillsTheLatch := fun _ _ _ running turn idle =>
  step_hostEffect running turn rfl (.inl idle)

/-- Settles O22: a register below NFE can be named, and its mark decides what a read does. -/
theorem hostFieldAccess : Obligations.HostFieldAccess := by
  intro s i rest running idle hi
  have named : State.hostFe { s with agenda := rest } i.val = some i := State.hostFe_of_lt hi
  have may : (s.hostFe i.val).isSome = true := Option.isSome_iff_exists.2 ⟨i, State.hostFe_of_lt hi⟩
  refine ⟨fun v turn => ?_, fun turn hw => ?_, fun turn hw => ?_⟩
  · rw [step_hostEffect running turn may (.inl idle)]
    exact hostWrFe_named named v
  · rw [step_hostEffect running turn may (.inl idle)]
    exact hostRdFe_marked named hw
  · rw [step_hostEffect running turn may (.inl idle)]
    exact (hostRdFe_unmarked named hw).trans (congrArg _ (State.addFault_eq running.1))

/-- Settles O23: CTR can always be named, and its mark decides what a read does. -/
theorem hostCounterAccess : Obligations.HostCounterAccess := by
  intro s rest running idle
  have noFault : State.fault { s with agenda := rest } = [] := running.1
  refine ⟨fun v turn => ?_, fun turn hw => ?_, fun turn hw => ?_⟩
  · exact step_hostEffect running turn rfl (.inl idle)
  · rw [step_hostEffect running turn rfl (.inl idle)]
    exact hostRdCtr_marked hw
  · rw [step_hostEffect running turn rfl (.inl idle)]
    exact (hostRdCtr_unmarked (s := { s with agenda := rest }) hw).trans (congrArg _ (State.addFault_eq noFault))

/-- Settles O24, one clause from the laws of the buffer table for each action. -/
theorem hostBufferAccess : Obligations.HostBufferAccess := by
  intro s h rest running idle hh
  refine ⟨fun n hn turn => ?_, fun turn => ?_, fun off len bytes present fits turn => ?_,
    fun off n len present fits turn => ?_⟩
  · have may : s.hostMay (.bufAlloc h n) = true := by simp [State.hostMay, hh]; omega
    have slot := s.buf.slot_put_self h (Buffer.zeros n)
    refine ⟨_, step_hostEffect running turn may (.inl idle), rfl, ?_, fun a ha => ?_, fun x a hx => ?_⟩
    · exact Memory.lenAt_of_slot slot
    · exact Memory.byteAt_of_lt slot ha
    · exact Memory.byteAt_congr (Memory.slot_put_other _ _ hx) a
  · have may : s.hostMay (.bufFree h) = true := by simp [State.hostMay, hh]
    refine ⟨_, step_hostEffect running turn may (.inl idle), rfl, ?_, fun x a hx => ?_⟩
    · exact Memory.lenAt_of_absent (s.buf.slot_drop_self h)
    · exact Memory.byteAt_congr (Memory.slot_drop_other _ hx) a
  · obtain ⟨b, hb, rfl⟩ := Memory.lenAt_eq_some present
    have may : s.hostMay (.bufWrite h off bytes) = true := State.hostRange_iff.2 ⟨_, hh, present, by omega, by omega, by omega⟩
    refine ⟨_, step_hostEffect running turn may (.inl idle), rfl, ?_, fun i hi => ?_, fun x a outside => ?_⟩
    · exact (s.buf.lenAt_write h off bytes h).trans present
    · exact Memory.byteAt_write hb fits hi
    · exact s.buf.byteAt_write_other bytes hb fits outside
  · obtain ⟨b, hb, rfl⟩ := Memory.lenAt_eq_some present
    have may : s.hostMay (.bufRead h off n) = true := State.hostRange_iff.2 ⟨_, hh, present, by omega, by omega, by omega⟩
    refine ⟨_, step_hostEffect running turn may (.inl idle), ?_, fun i hi => Memory.getElem?_read hb fits hi⟩
    simp [Memory.read, hb]

/-- Settles O25: each failure makes the host's precondition false. -/
theorem hostPreconditionFailureHasNoMove : Obligations.HostPreconditionFailureHasNoMove := by
  intro s a rest running turn failure
  have mayNot : s.hostMay a = false := by
    rcases failure with ⟨i, hi, rfl | ⟨v, rfl⟩⟩ | ⟨h, n, bad, rfl⟩ | ⟨h, bad, rfl⟩ | ⟨h, off, bytes, bad, rfl⟩ |
      ⟨h, off, n, bad, rfl⟩
    · simp [State.hostMay, State.hostFe_eq_none hi]
    · simp [State.hostMay, State.hostFe_eq_none hi]
    · simp [State.hostMay]; omega
    · simp [State.hostMay, bad]
    · exact State.hostRange_eq_false (by tauto)
    · exact State.hostRange_eq_false bad
  rw [step_host running turn]
  refine hostStep_refused ?_
  cases a <;> exact mayNot

/-- Settles O26: no action reads KEY, and what each writes is beside KEY. -/
theorem hostActionsDoNotRevealKey : Obligations.HostActionsDoNotRevealKey := by
  intro a s t k h
  have sameMay := hostMay_withKeyWords s a k
  cases may : s.hostMay a with
  | false => cases (hostStep_refused may).symm.trans h
  | true =>
    by_cases quiet : s.pend = none ∨ a = .rdStatus
    · rw [hostStep_effect (sameMay.trans may) quiet]
      exact hostEffect_withKeyWords k ((hostStep_effect may quiet).symm.trans h)
    · obtain ⟨pending, ha⟩ := not_or.1 quiet
      cases (hostStep_hazard may pending ha).symm.trans h
      exact hostStep_hazard (sameMay.trans may) pending ha

end Sys2Proof
end

section
/-! The ways a command stops short of success: the first unmarked register it reads (10_state.md R37, 60_exceptions.md R264), a
failed width check (43_field_arith.md R194), and a partial overlap (20_memory.md R70). -/

namespace Sys2Proof.Machine

variable {s : State}

/-! ### The first unmarked register (R37, R264) -/

/-- Of one register to be read, the first unmarked one is it. -/
theorem firstUnmarked_singleton {a r : Reg} {before after : List Reg} (h : [a] = before ++ r :: after) : r = a := by
  have mem : r ∈ [a] := h ▸ List.mem_append_right _ List.mem_cons_self
  exact List.mem_singleton.1 mem

/-- Of two registers read in turn, the first unmarked one is the first, or the second where the first is marked. -/
theorem firstUnmarked_pair {a b r : Reg} {before after : List Reg} (h : [a, b] = before ++ r :: after)
    (marks : ∀ q ∈ before, s.marked q = true) : r = a ∨ (r = b ∧ s.marked a = true) := by
  cases before with
  | nil => exact .inl (List.cons.inj h).1.symm
  | cons q before =>
    obtain ⟨rfl, tail⟩ := List.cons.inj h
    exact .inr ⟨firstUnmarked_singleton tail, marks a List.mem_cons_self⟩

theorem fieldUnary_firstUnmarked (op : Limbs Int → Option (Limbs Int)) (fd : FeIdx) {fa : FeIdx} {r : Reg}
    {before after : List Reg} (h : [.fe fa] = before ++ r :: after) (hr : s.marked r = false) :
    fieldUnary op fd fa s = .next (s.addFault (.unwrittenRead r)) := by
  obtain rfl := firstUnmarked_singleton h
  exact fieldUnary_unwritten s hr

theorem fieldBinary_firstUnmarked (op : Limbs Int → Limbs Int → Option (Limbs Int)) (fd : FeIdx) {fa fb : FeIdx} {r : Reg}
    {before after : List Reg} (h : [.fe fa, .fe fb] = before ++ r :: after) (marks : ∀ q ∈ before, s.marked q = true)
    (hr : s.marked r = false) : fieldBinary op fd fa fb s = .next (s.addFault (.unwrittenRead r)) := by
  rcases firstUnmarked_pair h marks with rfl | ⟨rfl, ha⟩
  · exact fieldBinary_unwritten_first s hr
  · exact fieldBinary_unwritten_second s ha hr

theorem execFCswap_unwritten_first {fa fb : FeIdx} (bit : BitVec 1) (ha : (s.feReg fa).written = false) :
    execFCswap fa fb bit s = .next (s.addFault (.unwrittenRead (.fe fa))) := by
  unfold execFCswap
  rw [State.readFe_unmarked (s := s) ha]
  rfl

theorem execFCswap_unwritten_second {fa fb : FeIdx} (bit : BitVec 1) (ha : (s.feReg fa).written = true)
    (hb : (s.feReg fb).written = false) : execFCswap fa fb bit s = .next (s.addFault (.unwrittenRead (.fe fb))) := by
  unfold execFCswap
  rw [State.readFe_marked (s := s) ha, State.readFe_unmarked (s := s) hb]
  rfl

/-- F_CSWAP reads its registers as a command with two sources does. -/
theorem execFCswap_firstUnmarked {fa fb : FeIdx} (bit : BitVec 1) {r : Reg} {before after : List Reg}
    (h : [.fe fa, .fe fb] = before ++ r :: after) (marks : ∀ q ∈ before, s.marked q = true) (hr : s.marked r = false) :
    execFCswap fa fb bit s = .next (s.addFault (.unwrittenRead r)) := by
  rcases firstUnmarked_pair h marks with rfl | ⟨rfl, ha⟩
  · exact execFCswap_unwritten_first bit hr
  · exact execFCswap_unwritten_second bit ha hr

/-- CC_BLOCK and CC_CREATEKEY read KEY alone. -/
theorem blockPrefix_firstUnmarked {n : Nat} {dh doff ctr : Word} {nonce : Nonce} {r : Reg} {before after : List Reg}
    (good : s.regionOk ⟨dh, doff, n⟩ = true) (h : [.key] = before ++ r :: after) (hr : s.marked r = false) :
    blockPrefix n dh doff ctr nonce s = .next (s.addFault (.unwrittenRead r)) := by
  obtain rfl := firstUnmarked_singleton h
  exact blockPrefix_unwritten s good hr

/-- The stream commands read KEY and then CTR, and none for no bytes (R142, R264). -/
theorem streamCommand_firstUnmarked {sh soff dh doff len : Word} {nonce : Nonce} {r : Reg} {before after : List Reg}
    (hs : s.regionOk ⟨sh, soff, s32 len⟩ = true) (hd : s.regionOk ⟨dh, doff, s32 len⟩ = true)
    (ho : partialOverlap ⟨sh, soff, s32 len⟩ ⟨dh, doff, s32 len⟩ = false)
    (h : (if 0 < s32 len then [.key, .ctr] else []) = before ++ r :: after) (marks : ∀ q ∈ before, s.marked q = true)
    (hr : s.marked r = false) : streamCommand sh soff dh doff len nonce s = .next (s.addFault (.unwrittenRead r)) := by
  by_cases hn : 0 < s32 len
  · rw [if_pos hn] at h
    rw [streamCommand_checked s (by omega) hs hd, ho, if_neg Bool.false_ne_true, streamBody, if_pos hn]
    rcases firstUnmarked_pair h marks with rfl | ⟨rfl, hk⟩
    · rw [State.readKey_unmarked (s := s) hr]
      rfl
    · rw [State.readKey_marked (s := s) hk, State.readCtr_unmarked (s := s) hr]
      rfl
  · rw [if_neg hn] at h
    simp at h

/-- F_ENCODE reads its register once the region is known good. -/
theorem execFEncode_firstUnmarked {fa : FeIdx} {dh doff : Word} {r : Reg} {before after : List Reg}
    (good : ¬ s.RegionBad ⟨dh, doff, 32⟩) (h : [.fe fa] = before ++ r :: after) (hr : s.marked r = false) :
    execFEncode fa dh doff s = .next (s.addFault (.unwrittenRead r)) := by
  obtain rfl := firstUnmarked_singleton h
  refine (s.settle_checkRegions_good (List.forall_mem_singleton.2 good)).trans ?_
  rw [State.readFe_unmarked (s := s) hr]
  rfl

/-- The first unmarked register of any command whose regions are good and do not overlap in part. -/
theorem exec_firstUnmarked {i : Instr} {r : Reg} {before after : List Reg} (good : ∀ q ∈ i.regions, ¬ s.RegionBad q)
    (ho : i.overlaps = false) (h : i.readRegs = before ++ r :: after) (marks : ∀ q ∈ before, s.marked q = true)
    (hr : s.marked r = false) : exec i s = .next (s.addFault (.unwrittenRead r)) := by
  have ok (q : Region) (hq : q ∈ i.regions) : s.regionOk q = true := (s.regionGood_iff q).1 (good q hq)
  cases i with
  | keyEq | macEq | ccSetkey | pSign | pVerify | aSign | aVerify | fDecode => exact absurd h (by simp [Instr.readRegs])
  | ccBlock | ccCreatekey => exact blockPrefix_firstUnmarked (ok _ List.mem_cons_self) h hr
  | ccEncrypt | ccDecrypt =>
    exact streamCommand_firstUnmarked (ok _ List.mem_cons_self) (ok _ (List.mem_cons_of_mem _ List.mem_cons_self)) ho h marks hr
  | fAdd | fSub | fMul => exact fieldBinary_firstUnmarked _ _ h marks hr
  | fSqr | fMul121666 | fInv => exact fieldUnary_firstUnmarked _ _ h hr
  | fCswap => exact execFCswap_firstUnmarked _ h marks hr
  | fEncode => exact execFEncode_firstUnmarked (good _ List.mem_cons_self) h hr

/-! ### Failed width checks (R194, R271) -/

theorem chk32_eq_none {v : Int} (h : ¬ InI32 v) : chk32 v = none := if_neg h

/-- One limb that fails its check fails the vector's. -/
theorem Limbs.check_eq_none {f : Int → Option Int} {h : Limbs Int} {j : LimbIdx} (hj : f (h.get j) = none) :
    h.check f = none := by
  by_contra passes
  obtain ⟨k, hk⟩ := Option.ne_none_iff_exists'.1 passes
  cases hj.symm.trans (Limbs.check_eq_some.1 hk j)

/-- One value outside i32 fails the check of the list. -/
theorem allChk32_eq_none {vs : List Int} {v : Int} (hv : v ∈ vs) (h : ¬ InI32 v) : allChk32 vs = none := by
  induction vs with
  | nil => cases hv
  | cons w ws ih =>
    rcases List.mem_cons.1 hv with rfl | hv
    · simp [allChk32, chk32_eq_none h]
    · simp [allChk32, ih hv]

/-- A pre-scaled operand of F_MUL outside i32 (R204). -/
theorem mulLimbs_eq_none {f g : Limbs Int} {j : LimbIdx}
    (h : (j ≠ 0 ∧ ¬ InI32 (19 * g.get j)) ∨ (j.val % 2 = 1 ∧ ¬ InI32 (2 * f.get j))) : mulLimbs f g = none := by
  have prescale : prescaleMul f g = none := by
    rcases h with ⟨hj, h⟩ | ⟨hj, h⟩
    · exact allChk32_eq_none (by fin_cases j <;> simp_all [Limbs.get]) h
    · exact allChk32_eq_none (by fin_cases j <;> simp_all [Limbs.get]) h
  simp [mulLimbs, prescale]

/-- A pre-scaled operand of F_SQR outside i32 (R206). -/
theorem sqLimbs_eq_none {f : Limbs Int} {j : LimbIdx} (h : (j.val < 8 ∧ ¬ InI32 (2 * f.get j)) ∨
    ((j = 6 ∨ j = 8) ∧ ¬ InI32 (19 * f.get j)) ∨ ((j = 5 ∨ j = 7 ∨ j = 9) ∧ ¬ InI32 (38 * f.get j))) :
    sqLimbs f = none := by
  have prescale : prescaleSq f = none := by
    rcases h with ⟨hj, h⟩ | ⟨hj, h⟩ | ⟨hj, h⟩
    · exact allChk32_eq_none (by fin_cases j <;> simp_all [Limbs.get]) h
    · exact allChk32_eq_none (by rcases hj with rfl | rfl <;> simp [Limbs.get]) h
    · exact allChk32_eq_none (by rcases hj with rfl | rfl | rfl <;> simp [Limbs.get]) h
  simp [sqLimbs, prescale]

/-- F_INV begins with a squaring (R231). -/
theorem invLimbs_eq_none {z : Limbs Int} (h : sqLimbs z = none) : invLimbs z = none := by
  unfold invLimbs
  rw [h]
  rfl

/-- A first value of the quotient estimate outside i32 (R241). -/
theorem encodeLimbs_eq_none {h : Limbs Int} (bad : ¬ InI32 (19 * h.l9) ∨ ¬ InI32 (19 * h.l9 + 2 ^ 24) ∨
    ¬ InI32 (h.l0 + (19 * h.l9 + 2 ^ 24) / 2 ^ 25)) : encodeLimbs h = none := by
  have estimate : quotient h = none := by
    by_contra answers
    obtain ⟨q, hq⟩ := Option.ne_none_iff_exists'.1 answers
    simp only [quotient, limbIdxs, quotientFrom, bind, Option.bind_eq_some_iff] at hq
    obtain ⟨a, ha, b, hb, t, ht, -⟩ := hq
    obtain ⟨rfl, scaled⟩ := chk32_eq_some.1 ha
    obtain ⟨rfl, rounded⟩ := chk32_eq_some.1 hb
    obtain ⟨-, first⟩ := chk32_eq_some.1 ht
    exact bad.elim (· scaled) (Or.elim · (· rounded) (· first))
  simp [encodeLimbs, reduceLimbs, estimate]

/-- F_ENCODE of a register whose encoding fails a check, into a good region. -/
theorem execFEncode_overflow {fa : FeIdx} {dh doff : Word} (good : ¬ s.RegionBad ⟨dh, doff, 32⟩)
    (ha : (s.feReg fa).written = true) (h : encodeLimbs (s.feInts fa) = none) :
    execFEncode fa dh doff s = .next (s.addFault .arithOverflow) := by
  refine (s.settle_checkRegions_good (List.forall_mem_singleton.2 good)).trans ?_
  unfold State.feInts at h
  simp [State.readFe_marked (s := s) ha, bind, Except.bind, h, arith]

/-! ### Partial overlap (R70, R273) -/

/-- A stream command on good regions that overlap in part. -/
theorem streamCommand_refused {sh soff dh doff len : Word} {nonce : Nonce} (hn : 0 < s32 len)
    (hs : s.regionOk ⟨sh, soff, s32 len⟩ = true) (hd : s.regionOk ⟨dh, doff, s32 len⟩ = true)
    (ho : partialOverlap ⟨sh, soff, s32 len⟩ ⟨dh, doff, s32 len⟩ = true) :
    streamCommand sh soff dh doff len nonce s = .next s.refuse := by
  rw [streamCommand_checked s (by omega) hs hd, if_pos ho]
  rfl

end Sys2Proof.Machine
end

section
/-! The families of stops and of the field commands' determinism (60_exceptions.md R270 to R273; 43_field_arith.md R214). -/

namespace Sys2Proof
open Sys2Proof.Machine

/-- Settles O16: every command reads its registers in the order of R264, after its checks and before its arithmetic. -/
theorem unwrittenReadIsRecorded : Obligations.UnwrittenReadIsRecorded := by
  intro i s before after r noFault good ho h marks hr
  rw [exec_firstUnmarked good ho h marks hr, State.addFault_eq noFault]

/-- Settles O17: the value outside its range makes the command's limb function fail. -/
theorem widthOverflowIsRecorded : Obligations.WidthOverflowIsRecorded := by
  intro s fd fa fb noFault ha hb
  rw [← State.addFault_eq noFault]
  refine ⟨fun ⟨j, hj⟩ => ?_, fun ⟨j, hj⟩ => ?_, fun ⟨j, hj⟩ => ?_, fun ⟨j, hj⟩ => ⟨?_, ?_⟩, fun dh doff good hq => ?_⟩
  · exact fieldBinary_overflow s ha hb (Limbs.check_eq_none (j := j) (by rw [Limbs.get_zip]; exact chk32_eq_none hj))
  · exact fieldBinary_overflow s ha hb (Limbs.check_eq_none (j := j) (by rw [Limbs.get_zip]; exact chk32_eq_none hj))
  · exact fieldBinary_overflow s ha hb (mulLimbs_eq_none hj)
  · exact fieldUnary_overflow s ha (sqLimbs_eq_none hj)
  · exact fieldUnary_overflow s ha (invLimbs_eq_none (sqLimbs_eq_none hj))
  · exact execFEncode_overflow good ha (encodeLimbs_eq_none hq)

/-- Settles O18: the regions meet without being identical. -/
theorem partialOverlapIsRefused : Obligations.PartialOverlapIsRefused := by
  intro s h soff doff len n0 n1 n2 hs hd hn apart meet meet'
  rw [State.regionGood_iff] at hs hd
  have ho : partialOverlap ⟨h, soff, s32 len⟩ ⟨h, doff, s32 len⟩ = true := by
    simp [partialOverlap, regionsMeet, sameRegion, hn, apart, meet, meet']
  exact ⟨streamCommand_refused hn hs hd ho, streamCommand_refused hn hs hd ho,
    fun noFault => faultsAndRefusalsAreFinal.2.1 _ noFault rfl⟩

end Sys2Proof
end

section
/-! Commands that do not read KEY do the same whatever its words are (10_state.md R32, R43). -/

namespace Sys2Proof.Machine

variable {s t : State} (k : Vector Word 8)

/-- Whatever a command reads without KEY it reads alike, and what follows decides the end. -/
theorem State.settle_bind_withKeyWords {α : Type} {x : Except Stop α} {f f' : α → Except Stop State}
    (h : s.settle (x >>= f) = .next t)
    (next : ∀ a, s.settle (f a) = .next t → (s.withKeyWords k).settle (f' a) = .next (t.withKeyWords k)) :
    (s.withKeyWords k).settle (x >>= f') = .next (t.withKeyWords k) := by
  cases x with
  | ok a => exact next a h
  | error e => cases h; cases e <;> rfl

theorem fieldUnary_withKeyWords {op : Limbs Int → Option (Limbs Int)} {fd fa : FeIdx}
    (h : fieldUnary op fd fa s = .next t) : fieldUnary op fd fa (s.withKeyWords k) = .next (t.withKeyWords k) :=
  s.settle_bind_withKeyWords k h fun _ h => s.settle_bind_withKeyWords k h fun _ h => by cases h; rfl

theorem fieldBinary_withKeyWords {op : Limbs Int → Limbs Int → Option (Limbs Int)} {fd fa fb : FeIdx}
    (h : fieldBinary op fd fa fb s = .next t) : fieldBinary op fd fa fb (s.withKeyWords k) = .next (t.withKeyWords k) :=
  s.settle_bind_withKeyWords k h fun _ h => s.settle_bind_withKeyWords k h fun _ h =>
    s.settle_bind_withKeyWords k h fun _ h => by cases h; rfl

/-- The commands of R43 that neither read nor set KEY. -/
theorem exec_withKeyWords {i : Instr} (hr : i.readsKey = false) (hs : i.setsKey = false) (h : exec i s = .next t) :
    exec i (s.withKeyWords k) = .next (t.withKeyWords k) := by
  cases i with
  | ccBlock | ccEncrypt | ccDecrypt | ccCreatekey => cases hr
  | ccSetkey => cases hs
  | keyEq | macEq | pSign | pVerify | aSign | aVerify =>
    exact s.settle_bind_withKeyWords k h fun _ h => by cases h; rfl
  | fAdd | fSub | fMul => exact fieldBinary_withKeyWords k h
  | fSqr | fMul121666 | fInv => exact fieldUnary_withKeyWords k h
  | fCswap =>
    exact s.settle_bind_withKeyWords k h fun _ h => s.settle_bind_withKeyWords k h fun _ h => by cases h; rfl
  | fDecode =>
    exact s.settle_bind_withKeyWords k h fun _ h => s.settle_bind_withKeyWords k h fun _ h => by cases h; rfl
  | fEncode =>
    exact s.settle_bind_withKeyWords k h fun _ h => s.settle_bind_withKeyWords k h fun _ h =>
      s.settle_bind_withKeyWords k h fun _ h => by cases h; rfl

end Sys2Proof.Machine
end

section
/-! The conditional swap (43_field_arith.md R209), and that the field commands depend on the registers they read alone (R214). -/

namespace Sys2Proof.Machine

variable {s s' : State}

/-! ### F_CSWAP -/

/-- The masked difference is the whole difference where the flag is set, and none where it is clear. -/
theorem swapX_eq (bit : BitVec 1) (a b : Word) : swapX bit a b = if bit = 1#1 then a ^^^ b else 0#32 := by
  rcases BitVec.eq_zero_or_eq_one bit with rfl | rfl
  · simp [swapX, swapMask]
  · exact BitVec.and_allOnes

/-- The body of F_CSWAP exchanges its operands exactly where the flag is set (R209). -/
theorem cswapLimbs_eq (bit : BitVec 1) (f g : Limbs Word) : cswapLimbs bit f g = if bit = 1#1 then (g, f) else (f, g) := by
  by_cases hb : bit = 1#1
  · refine Prod.ext (Limbs.ext_get fun j => ?_) (Limbs.ext_get fun j => ?_) <;> simp [cswapLimbs, swapX_eq, hb]
  · refine Prod.ext (Limbs.ext_get fun j => ?_) (Limbs.ext_get fun j => ?_) <;> simp [cswapLimbs, swapX_eq, hb]

/-- F_CSWAP of marked registers writes both (R209). -/
theorem execFCswap_good {fa fb : FeIdx} (bit : BitVec 1) (ha : (s.feReg fa).written = true)
    (hb : (s.feReg fb).written = true) : execFCswap fa fb bit s = .next
      (((s.writeFe fa (cswapLimbs bit (s.feReg fa).limbs (s.feReg fb).limbs).1).writeFe fb
        (cswapLimbs bit (s.feReg fa).limbs (s.feReg fb).limbs).2).complete false) := by
  unfold execFCswap
  rw [State.readFe_marked (s := s) ha, State.readFe_marked (s := s) hb]
  rfl

/-- What two writes leave in each register: the later one decides where both name it. -/
theorem State.feReg_writeFe_pair (s : State) (i k j : FeIdx) (v w : Limbs Word) :
    ((s.writeFe i v).writeFe k w).feReg j = if j = k then ⟨w, true⟩ else if j = i then ⟨v, true⟩ else s.feReg j := by
  rw [State.feReg_writeFe, State.feReg_writeFe]

/-- A marked register is its limbs with the mark. -/
theorem State.feReg_of_marked {i : FeIdx} (h : (s.feReg i).written = true) : s.feReg i = ⟨(s.feReg i).limbs, true⟩ := by
  rw [← h]

/-! ### No hidden state (R214) -/

/-- Two answers are next states with the same faults, and without a fault the listed registers are the same in both. -/
def AnswerAlike (fds : List FeIdx) (r r' : Result) : Prop :=
  ∃ t t' : State, r = .next t ∧ r' = .next t' ∧ t.fault = t'.fault ∧ (t.fault = [] → ∀ j ∈ fds, t.feReg j = t'.feReg j)

theorem answerAlike_addFault (hs : s.fault = []) (hs' : s'.fault = []) (f : Fault) (fds : List FeIdx) :
    AnswerAlike fds (.next (s.addFault f)) (.next (s'.addFault f)) := by
  rw [State.addFault_eq hs, State.addFault_eq hs']
  exact ⟨_, _, rfl, rfl, rfl, fun none => absurd none (List.cons_ne_nil _ _)⟩

theorem answerAlike_writeFe (hs : s.fault = []) (hs' : s'.fault = []) (fd : FeIdx) (v : Limbs Word) :
    AnswerAlike [fd] (.next ((s.writeFe fd v).complete false)) (.next ((s'.writeFe fd v).complete false)) := by
  refine ⟨_, _, rfl, rfl, hs.trans hs'.symm, fun _ j hj => ?_⟩
  obtain rfl := List.mem_singleton.1 hj
  exact (s.feReg_writeFe_self j v).trans (s'.feReg_writeFe_self j v).symm

variable {fd fa fb : FeIdx} (hs : s.fault = []) (hs' : s'.fault = []) (ea : s.feReg fa = s'.feReg fa)
include hs hs' ea

theorem fieldUnary_alike (op : Limbs Int → Option (Limbs Int)) :
    AnswerAlike [fd] (fieldUnary op fd fa s) (fieldUnary op fd fa s') := by
  have ia : s.feInts fa = s'.feInts fa := by rw [State.feInts, State.feInts, ea]
  cases ha : (s.feReg fa).written with
  | false =>
    rw [fieldUnary_unwritten s ha, fieldUnary_unwritten s' (ea ▸ ha)]
    exact answerAlike_addFault hs hs' _ _
  | true =>
    cases ho : op (s.feInts fa) with
    | none =>
      rw [fieldUnary_overflow s ha ho, fieldUnary_overflow s' (ea ▸ ha) (ia ▸ ho)]
      exact answerAlike_addFault hs hs' _ _
    | some v =>
      rw [fieldUnary_good s ha ho, fieldUnary_good s' (ea ▸ ha) (ia ▸ ho)]
      exact answerAlike_writeFe hs hs' fd _

variable (eb : s.feReg fb = s'.feReg fb)
include eb

theorem fieldBinary_alike (op : Limbs Int → Limbs Int → Option (Limbs Int)) :
    AnswerAlike [fd] (fieldBinary op fd fa fb s) (fieldBinary op fd fa fb s') := by
  have ia : s.feInts fa = s'.feInts fa := by rw [State.feInts, State.feInts, ea]
  have ib : s.feInts fb = s'.feInts fb := by rw [State.feInts, State.feInts, eb]
  cases ha : (s.feReg fa).written with
  | false =>
    rw [fieldBinary_unwritten_first s ha, fieldBinary_unwritten_first s' (ea ▸ ha)]
    exact answerAlike_addFault hs hs' _ _
  | true =>
    cases hb : (s.feReg fb).written with
    | false =>
      rw [fieldBinary_unwritten_second s ha hb, fieldBinary_unwritten_second s' (ea ▸ ha) (eb ▸ hb)]
      exact answerAlike_addFault hs hs' _ _
    | true =>
      cases ho : op (s.feInts fa) (s.feInts fb) with
      | none =>
        rw [fieldBinary_overflow s ha hb ho, fieldBinary_overflow s' (ea ▸ ha) (eb ▸ hb) (ia ▸ ib ▸ ho)]
        exact answerAlike_addFault hs hs' _ _
      | some v =>
        rw [fieldBinary_good s ha hb ho, fieldBinary_good s' (ea ▸ ha) (eb ▸ hb) (ia ▸ ib ▸ ho)]
        exact answerAlike_writeFe hs hs' fd _

theorem execFCswap_alike (bit : BitVec 1) : AnswerAlike [fa, fb] (execFCswap fa fb bit s) (execFCswap fa fb bit s') := by
  cases ha : (s.feReg fa).written with
  | false =>
    rw [execFCswap_unwritten_first bit ha, execFCswap_unwritten_first bit (ea ▸ ha)]
    exact answerAlike_addFault hs hs' _ _
  | true =>
    cases hb : (s.feReg fb).written with
    | false =>
      rw [execFCswap_unwritten_second bit ha hb, execFCswap_unwritten_second bit (ea ▸ ha) (eb ▸ hb)]
      exact answerAlike_addFault hs hs' _ _
    | true =>
      rw [execFCswap_good bit ha hb, execFCswap_good bit (ea ▸ ha) (eb ▸ hb), ea, eb]
      refine ⟨_, _, rfl, rfl, hs.trans hs'.symm, fun _ j hj => ?_⟩
      refine (State.feReg_writeFe_pair s ..).trans (Eq.trans ?_ (State.feReg_writeFe_pair s' ..).symm)
      rcases List.mem_pair.1 hj with rfl | rfl <;> simp

end Sys2Proof.Machine
end

section
/-! The families of KEY's secrecy and of the field commands' registers (10_state.md R43; 43_field_arith.md R209, R213, R214). -/

namespace Sys2Proof
open Sys2Proof.Machine

/-- Settles O27. -/
theorem otherCommandsDoNotUseKey : Obligations.OtherCommandsDoNotUseKey := fun _ _ _ k hr hs h =>
  exec_withKeyWords k hr hs h

/-- Settles O32, by the three shapes of a field command: one source, two sources, and the swap. -/
theorem fieldCommandsHaveNoHiddenState : Obligations.FieldCommandsHaveNoHiddenState := by
  intro i s s' hi hs hs' hp agree
  show AnswerAlike i.writesFe (exec i s) (exec i s')
  cases i with
  | fAdd fd fa fb | fSub fd fa fb | fMul fd fa fb =>
    exact fieldBinary_alike hs hs' (agree fa List.mem_cons_self) (agree fb (by simp [Instr.readRegs])) _
  | fSqr fd fa | fInv fd fa => exact fieldUnary_alike hs hs' (agree fa List.mem_cons_self) _
  | fMul121666 fd fa =>
    have same := fieldUnary_alike (fd := fd) hs hs' (agree fa List.mem_cons_self) (mul121666Limbs s.params.mul121666Order)
    show AnswerAlike [fd] _ (fieldUnary (mul121666Limbs s'.params.mul121666Order) fd fa s')
    exact hp ▸ same
  | fCswap fa fb bit =>
    exact execFCswap_alike hs hs' (agree fa List.mem_cons_self) (agree fb (by simp [Instr.readRegs])) bit
  | _ => cases hi

/-- Settles O56: the two writes leave the exchanged pair, for one register named twice too. -/
theorem cswapSwapsExactlyWhenSet : Obligations.CswapSwapsExactlyWhenSet := by
  intro s fa fb bit ha hb
  have fa_eq := State.feReg_of_marked ha
  have fb_eq := State.feReg_of_marked hb
  refine ⟨_, execFCswap_good bit ha hb, ?_, ?_, fun j hfa hfb => ?_, rfl⟩
  · refine (State.feReg_writeFe_pair s ..).trans ?_
    rw [cswapLimbs_eq]
    by_cases same : fa = fb
    · subst same
      simp [← fa_eq]
    · by_cases set : bit = 1#1 <;> simp [same, set, ← fa_eq, ← fb_eq]
  · refine (State.feReg_writeFe_pair s ..).trans ?_
    rw [cswapLimbs_eq]
    by_cases set : bit = 1#1 <;> simp [set, ← fa_eq, ← fb_eq]
  · exact (State.feReg_writeFe_pair s ..).trans (by rw [if_neg hfb, if_neg hfa])

end Sys2Proof
end

section
/-! Reads of regions across states (20_memory.md R60 to R66): a region's bytes, its check, and the overlap rule of R70. -/

namespace Sys2Proof.Machine

variable {s t : State}

/-- A region check sees only the parameters and the buffers' lengths. -/
theorem State.regionBad_congr (hp : t.params = s.params) (hl : ∀ x, t.buf.lenAt x = s.buf.lenAt x) (r : Region) :
    t.RegionBad r ↔ s.RegionBad r := by
  simp only [State.RegionBad, hp, hl]

/-- A region that a command finds good is good after it (R60). -/
theorem regionBad_exec {i : Instr} (h : exec i s = .next t) (r : Region) : t.RegionBad r ↔ s.RegionBad r :=
  State.regionBad_congr (exec_next_ends h).params (fun x => commandsKeepBufferLengths i s t x h) r

/-- Where a good region lies. -/
theorem State.region_bounds {h off : Word} {n : Int} (good : ¬ s.RegionBad ⟨h, off, n⟩) :
    ∃ b, s.buf.slot h.toNat = some b ∧ 0 ≤ n ∧ 0 ≤ s32 off ∧ s32 off + n ≤ (b.len : Int) := by
  obtain ⟨b, -, slot, bounds⟩ := (s.regionOk_iff _).1 ((s.regionGood_iff _).1 good)
  exact ⟨b, slot, bounds⟩

/-- A read of a good region gives as many bytes as it is long. -/
theorem State.memRead_length {h off : Word} {n : Int} (good : ¬ s.RegionBad ⟨h, off, n⟩) :
    (s.memRead h off n.toNat).length = n.toNat :=
  s.readRegion_length ((s.regionGood_iff _).1 good)

/-- A write that fills a good region is read back whole. -/
theorem State.memRead_memWrite_good {h off : Word} {n : Int} {v : List Byte} (good : ¬ s.RegionBad ⟨h, off, n⟩)
    (hv : v.length = n.toNat) : (s.memWrite h off v).memRead h off n.toNat = v :=
  s.memRead_memWrite (r := ⟨h, off, n⟩) ((s.regionGood_iff _).1 good) hv

/-- Each byte of a good region, as a statement sees it. -/
theorem State.getElem?_memRead {h off : Word} {n : Int} (good : ¬ s.RegionBad ⟨h, off, n⟩) {k : Nat} (hk : k < n.toNat) :
    (s.memRead h off n.toNat)[k]? = s.buf.byteAt h.toNat ((s32 off).toNat + k) := by
  obtain ⟨b, slot, hn, hoff, fits⟩ := State.region_bounds good
  exact Memory.getElem?_read slot (by omega) hk

/-- A region that shares no byte with the one written reads as before. -/
theorem State.memRead_unchanged {h off : Word} {n : Int} {q : Region} (outside : UnchangedOutside s t q)
    (apart : RegionsDisjoint ⟨h, off, n⟩ q) (hs : ¬ s.RegionBad ⟨h, off, n⟩) (ht : ¬ t.RegionBad ⟨h, off, n⟩) :
    t.memRead h off n.toNat = s.memRead h off n.toNat := by
  obtain ⟨b, -, hn, hoff, -⟩ := State.region_bounds hs
  refine List.ext_getElem? fun k => ?_
  by_cases hk : k < n.toNat
  · rw [State.getElem?_memRead ht hk, State.getElem?_memRead hs hk]
    refine outside _ _ fun covered => apart _ _ ⟨⟨rfl, ?_, ?_⟩, covered⟩
    · push_cast; omega
    · push_cast; omega
  · rw [List.getElem?_eq_none (by rw [State.memRead_length ht]; omega),
      List.getElem?_eq_none (by rw [State.memRead_length hs]; omega)]

/-- Regions that are identical, or share no byte, do not overlap in part (R70). -/
theorem partialOverlap_eq_false {sh soff dh doff : Word} {n : Int} (hs : 0 ≤ s32 soff) (hd : 0 ≤ s32 doff)
    (h : sh = dh ∧ soff = doff ∨ RegionsDisjoint ⟨sh, soff, n⟩ ⟨dh, doff, n⟩) :
    partialOverlap ⟨sh, soff, n⟩ ⟨dh, doff, n⟩ = false := by
  rcases h with ⟨rfl, rfl⟩ | apart
  · simp [partialOverlap, sameRegion]
  · by_contra overlap
    have meet : regionsMeet ⟨sh, soff, n⟩ ⟨dh, doff, n⟩ = true := by
      simp only [partialOverlap, Bool.not_eq_false, Bool.and_eq_true] at overlap
      exact overlap.1
    simp only [regionsMeet, Bool.and_eq_true, beq_iff_eq, decide_eq_true_eq] at meet
    obtain ⟨⟨⟨⟨rfl, hn⟩, -⟩, before⟩, after⟩ := meet
    have common : ∃ a : Nat, s32 soff ≤ a ∧ s32 doff ≤ a ∧ (a : Int) < s32 soff + n ∧ (a : Int) < s32 doff + n :=
      ⟨(max (s32 soff) (s32 doff)).toNat, by omega, by omega, by omega, by omega⟩
    obtain ⟨a, h1, h2, h3, h4⟩ := common
    exact apart sh.toNat a ⟨⟨rfl, h1, h3⟩, rfl, h2, h4⟩

end Sys2Proof.Machine
end

section
/-! The block, the keystream and the stream transform, byte by byte (41_chacha20.md R134 to R136, R148). -/

namespace Sys2Proof.Machine

/-- Read at every fourth byte, a string of little-endian words gives the words back. -/
theorem leAt_flatMap_leBytes (ws : List Word) {i : Nat} (hi : i < ws.length) :
    leAt (ws.flatMap fun w => leBytes 4 w.toNat) (4 * i) 4 = ws[i].toNat := by
  induction ws generalizing i with
  | nil => cases hi
  | cons w ws ih =>
    cases i with
    | zero =>
      have first : ((w :: ws).flatMap fun w => leBytes 4 w.toNat).take 4 = leBytes 4 w.toNat :=
        List.take_left' (leBytes_length 4 w.toNat)
      rw [Nat.mul_zero, leAt, List.drop_zero, first, leValue_leBytes]
      exact Nat.mod_eq_of_lt w.isLt
    | succ i =>
      have skip : 4 * (i + 1) = (leBytes 4 w.toNat).length + 4 * i := by rw [leBytes_length]; omega
      rw [leAt, List.flatMap_cons, skip, List.drop_length_add_append]
      exact ih (Nat.lt_of_succ_lt_succ hi)

/-- Byte `k` of a sequence of 64-byte blocks is byte `k mod 64` of block `k / 64`. -/
theorem getElem?_flatMap_range (f : Nat → List Byte) (hf : ∀ j, (f j).length = 64) {n k : Nat} (hk : k < 64 * n) :
    ((List.range n).flatMap f)[k]? = (f (k / 64))[k % 64]? := by
  induction n with
  | zero => omega
  | succ n ih =>
    have length : ((List.range n).flatMap f).length = 64 * n := by simp [List.length_flatMap, hf, Nat.mul_comm]
    rw [List.range_succ, List.flatMap_append]
    by_cases hlast : k < 64 * n
    · rw [List.getElem?_append_left (by omega), ih hlast]
    · have last : k / 64 = n := by omega
      rw [List.getElem?_append_right (by omega), length, last, List.flatMap_singleton]
      congr 1
      omega

/-- Each byte of a stream's result is the source's XOR the keystream's (R135, R136). -/
theorem getElem?_streamXor (key : Vector Word 8) (c0 : Word) (nonce : Nonce) {src : List Byte} {k : Nat}
    (hk : k < src.length) : (streamXor key c0 nonce src)[k]? = some (src.getD k 0 ^^^
      (chachaBlock key (c0 + BitVec.ofNat 32 (k / 64)) nonce).getD (k % 64) 0) := by
  have covered : k < 64 * blockCount src.length := by unfold blockCount; omega
  have inBlock : k % 64 < (chachaBlock key (c0 + BitVec.ofNat 32 (k / 64)) nonce).length := by
    rw [chachaBlock_length]; omega
  have stream : (keystream key c0 nonce (blockCount src.length))[k]? =
      (chachaBlock key (c0 + BitVec.ofNat 32 (k / 64)) nonce)[k % 64]? :=
    getElem?_flatMap_range _ (fun _ => chachaBlock_length ..) covered
  simp [streamXor, List.getElem?_zipWith, stream, hk, inBlock]

/-- The stream transform undoes itself (R148). -/
theorem streamXor_streamXor (key : Vector Word 8) (c0 : Word) (nonce : Nonce) (src : List Byte) :
    streamXor key c0 nonce (streamXor key c0 nonce src) = src := by
  refine List.ext_getElem? fun k => ?_
  by_cases hk : k < src.length
  · have once := getElem?_streamXor key c0 nonce hk
    rw [getElem?_streamXor key c0 nonce (by rwa [streamXor_length]), List.getD_eq_getElem?_getD, once]
    simp [hk]
  · rw [List.getElem?_eq_none (by simp only [streamXor_length]; omega), List.getElem?_eq_none (by omega)]

end Sys2Proof.Machine
end

section
/-! The ChaCha20 commands on good regions (41_chacha20.md R141 to R147). -/

namespace Sys2Proof.Machine

variable {s : State}

/-- CC_BLOCK and CC_CREATEKEY, by how many bytes of the block they write. -/
theorem blockPrefix_writes {n : Nat} (hn : n ≤ 64) {dh doff : Word} (ctr : Word) (nonce : Nonce)
    (good : ¬ s.RegionBad ⟨dh, doff, n⟩) (hk : s.key.written = true) :
    ∃ t : State, blockPrefix n dh doff ctr nonce s = .next t ∧
      t.memRead dh doff n = (chachaBlock s.key.words ctr nonce).take n ∧ UnchangedOutside s t ⟨dh, doff, n⟩ ∧
      t = { s with
        buf := t.buf
        work := t.work
        blk := t.blk
        fresh := t.fresh
        status := ⟨false, false, .ok⟩
        pend := none } := by
  have length : ((chachaBlock s.key.words ctr nonce).take n).length = n := by simp [chachaBlock_length, hn]
  refine ⟨_, blockPrefix_good s ((s.regionGood_iff _).1 good) hk, ?_, ?_, rfl⟩
  · exact State.memRead_memWrite_good good length
  · exact s.memWrite_unchangedOutside good length

/-- What a stream command of at least one byte leaves, where it completes (R143 to R145). -/
def State.streamed (s : State) (sh soff dh doff len : Word) (nonce : Nonce) : State :=
  ((s.memWrite dh doff (streamXor s.key.words s.ctr.value nonce (s.memRead sh soff (s32 len).toNat))).advanceCtr
    s.ctr.value (s32 len).toNat).scrambleScratch.complete false

variable {sh soff dh doff len : Word} {nonce : Nonce}

/-- A stream command on good regions that are identical or share no byte (R143). -/
theorem streamCommand_streams (hs : ¬ s.RegionBad ⟨sh, soff, s32 len⟩) (hd : ¬ s.RegionBad ⟨dh, doff, s32 len⟩)
    (hn : 0 < s32 len) (apart : sh = dh ∧ soff = doff ∨ RegionsDisjoint ⟨sh, soff, s32 len⟩ ⟨dh, doff, s32 len⟩)
    (hk : s.key.written = true) (hc : s.ctr.written = true) :
    streamCommand sh soff dh doff len nonce s = .next (s.streamed sh soff dh doff len nonce) := by
  obtain ⟨-, -, -, hsoff, -⟩ := State.region_bounds hs
  obtain ⟨-, -, -, hdoff, -⟩ := State.region_bounds hd
  rw [streamCommand_checked s (by omega) ((s.regionGood_iff _).1 hs) ((s.regionGood_iff _).1 hd),
    partialOverlap_eq_false hsoff hdoff apart, if_neg Bool.false_ne_true, streamBody_nonempty s hn hk hc]
  rfl

/-- A stream command of no bytes on good regions, or with its checks off (R142). -/
theorem streamCommand_zero (hz : s32 len = 0) (ok : s.params.zeroLengthChecks = false ∨
    (¬ s.RegionBad ⟨sh, soff, 0⟩ ∧ ¬ s.RegionBad ⟨dh, doff, 0⟩)) :
    streamCommand sh soff dh doff len nonce s = .next (s.complete false) := by
  by_cases off : s.params.zeroLengthChecks = false
  · unfold streamCommand
    rw [if_pos ⟨hz, off⟩]
    rfl
  · obtain ⟨hs, hd⟩ := ok.resolve_left off
    rw [← hz] at hs hd
    have noOverlap : partialOverlap ⟨sh, soff, s32 len⟩ ⟨dh, doff, s32 len⟩ = false := by
      simp [partialOverlap, regionsMeet, hz]
    rw [streamCommand_checked s (fun h => off h.2) ((s.regionGood_iff _).1 hs) ((s.regionGood_iff _).1 hd), noOverlap,
      if_neg Bool.false_ne_true, streamBody, if_neg (by simp [hz])]
    rfl

/-- The destination then holds the source's bytes under the keystream. -/
theorem State.memRead_streamed (hs : ¬ s.RegionBad ⟨sh, soff, s32 len⟩) (hd : ¬ s.RegionBad ⟨dh, doff, s32 len⟩) :
    (s.streamed sh soff dh doff len nonce).memRead dh doff (s32 len).toNat =
      streamXor s.key.words s.ctr.value nonce (s.memRead sh soff (s32 len).toNat) := by
  have length := (streamXor_length s.key.words s.ctr.value nonce _).trans (State.memRead_length hs)
  have stored := State.memRead_memWrite_good hd length
  simpa only [State.memRead, State.streamed, State.complete_buf, State.scrambleScratch_buf, State.advanceCtr_buf] using stored

/-- Every byte outside the destination is as before. -/
theorem State.streamed_unchangedOutside (hs : ¬ s.RegionBad ⟨sh, soff, s32 len⟩)
    (hd : ¬ s.RegionBad ⟨dh, doff, s32 len⟩) :
    UnchangedOutside s (s.streamed sh soff dh doff len nonce) ⟨dh, doff, s32 len⟩ := by
  have length := (streamXor_length s.key.words s.ctr.value nonce _).trans (State.memRead_length hs)
  intro x a outside
  have kept := s.memWrite_unchangedOutside hd length x a outside
  simpa only [State.streamed, State.complete_buf, State.scrambleScratch_buf, State.advanceCtr_buf] using kept

/-- CTR after a stream command: advanced by the blocks used, where COUNTER_WRITEBACK is set (R145). -/
theorem State.streamed_ctr : (s.streamed sh soff dh doff len nonce).ctr = if s.params.counterWriteback then
    ⟨s.ctr.value + BitVec.ofNat 32 (((s32 len).toNat + 63) / 64), true⟩ else s.ctr := by
  simp only [State.streamed, State.complete_ctr, State.scrambleScratch_ctr, State.advanceCtr_ctr, State.memWrite_params,
    State.memWrite_ctr]
  rfl

/-- A stream command writes nothing but memory, CTR, the scratch, STATUS and PEND (R43). -/
theorem State.streamed_frame : s.streamed sh soff dh doff len nonce = { s with
    buf := (s.streamed sh soff dh doff len nonce).buf
    ctr := (s.streamed sh soff dh doff len nonce).ctr
    work := (s.streamed sh soff dh doff len nonce).work
    blk := (s.streamed sh soff dh doff len nonce).blk
    fresh := (s.streamed sh soff dh doff len nonce).fresh
    status := ⟨false, false, .ok⟩
    pend := none } := by
  unfold State.streamed State.advanceCtr
  split <;> rfl

/-- A region good before a stream command is good after it, whatever CTR then holds. -/
theorem State.streamed_regionBad (c : CtrReg) (r : Region) :
    State.RegionBad { s.streamed sh soff dh doff len nonce with ctr := c } r ↔ s.RegionBad r := by
  refine State.regionBad_congr ?_ (fun x => ?_) r
  · simp only [State.streamed, State.complete_params, State.scrambleScratch_params, State.advanceCtr_params,
      State.memWrite_params]
  · simp only [State.streamed, State.complete_buf, State.scrambleScratch_buf, State.advanceCtr_buf]
    exact s.lenAt_memWrite dh doff _ x

/-- A stream command leaves KEY. -/
theorem State.streamed_key : (s.streamed sh soff dh doff len nonce).key = s.key := by
  simp only [State.streamed, State.complete_key, State.scrambleScratch_key, State.advanceCtr_key, State.memWrite_key]

/-- A stream of bytes through two commands with the same KEY, nonce and CTR at the start comes back. -/
theorem streamCommand_roundTrip {eh eoff : Word} (hs : ¬ s.RegionBad ⟨sh, soff, s32 len⟩)
    (hd : ¬ s.RegionBad ⟨dh, doff, s32 len⟩) (he : ¬ s.RegionBad ⟨eh, eoff, s32 len⟩)
    (apart : sh = dh ∧ soff = doff ∨ RegionsDisjoint ⟨sh, soff, s32 len⟩ ⟨dh, doff, s32 len⟩)
    (apart' : dh = eh ∧ doff = eoff ∨ RegionsDisjoint ⟨dh, doff, s32 len⟩ ⟨eh, eoff, s32 len⟩)
    (marks : 0 < s32 len → s.key.written = true ∧ s.ctr.written = true) :
    ∃ t u : State, streamCommand sh soff dh doff len nonce s = .next t ∧
      streamCommand dh doff eh eoff len nonce { t with ctr := s.ctr } = .next u ∧
      u.memRead eh eoff (s32 len).toNat = s.memRead sh soff (s32 len).toNat := by
  obtain ⟨-, -, hlen, -⟩ := State.region_bounds hs
  rcases hlen.lt_or_eq with hn | hz
  · obtain ⟨hk, hc⟩ := marks hn
    have stillGood (r : Region) (good : ¬ s.RegionBad r) :
        ¬ State.RegionBad { s.streamed sh soff dh doff len nonce with ctr := s.ctr } r :=
      mt (State.streamed_regionBad s.ctr r).1 good
    have key : (s.streamed sh soff dh doff len nonce).key = s.key := State.streamed_key
    have runs := streamCommand_streams (nonce := nonce) (stillGood _ hd) (stillGood _ he) hn apart'
      (by simpa only [key] using hk) hc
    refine ⟨_, _, streamCommand_streams hs hd hn apart hk hc, runs, ?_⟩
    rw [State.memRead_streamed (stillGood _ hd) (stillGood _ he), key]
    exact (congrArg _ (State.memRead_streamed hs hd)).trans (streamXor_streamXor ..)
  · rw [← hz] at hs hd he
    have noBytes {x : State} {h off : Word} (good : ¬ x.RegionBad ⟨h, off, 0⟩) : x.memRead h off (0 : Int).toNat = [] :=
      List.length_eq_zero_iff.1 (State.memRead_length good)
    refine ⟨_, _, streamCommand_zero hz.symm (.inr ⟨hs, hd⟩), streamCommand_zero hz.symm (.inr ⟨hd, he⟩), ?_⟩
    rw [← hz, noBytes hs]
    exact noBytes he

end Sys2Proof.Machine
end

section
/-! The value-type and ChaCha20 families (40_value_types.md R115, R116; 41_chacha20.md R134 to R148). -/

namespace Sys2Proof
open Sys2Proof.Machine

/-- Settles O33, one clause each from the decode check of a frame of format N, the comparison of two good regions, and the
region checks that come before anything else. -/
theorem keyEqComparesRegions : Obligations.KeyEqComparesRegions := by
  intro s h1 off1 h2 off2
  refine ⟨fun nfe => ?_, fun ha hb => ?_, fun hbad => ?_⟩
  · exact decode_formatN (o := .keyEq) rfl nfe [h1, off1, h2, off2]
  · exact equalRegions_decides (n := 32) ha hb
  · obtain ⟨r, hr, hb⟩ : ∃ r ∈ (Instr.keyEq h1 off1 h2 off2).regions, s.RegionBad r := by
      simpa [Instr.regions] using hbad
    exact badRegionIsInvalidArgument _ s r hr hb rfl

/-- Settles O36: the block is its sixteen words, each little-endian. -/
theorem blockBytesAreLittleEndianSums : Obligations.BlockBytesAreLittleEndianSums := by
  intro key c nonce
  refine ⟨chachaBlock_length key c nonce, fun i => ?_⟩
  have sixteen : i.val < (chachaWords key c nonce).length := by simp [chachaWords]
  rw [chachaBlock, leAt_flatMap_leBytes _ sixteen]
  simp [chachaWords, add32, Nat.add_comm]

/-- Settles O37: both commands write a prefix of the block, CC_BLOCK the whole of it. -/
theorem blockCommandsWriteKeystream : Obligations.BlockCommandsWriteKeystream := by
  intro s dh doff ctr n0 n1 n2 hk
  refine ⟨fun good => ?_, fun good => ?_⟩
  · obtain ⟨t, runs, block, rest⟩ := blockPrefix_writes (n := 64) le_rfl ctr ⟨n0, n1, n2⟩ good hk
    exact ⟨t, runs, block.trans (List.take_of_length_le (chachaBlock_length ..).le), rest⟩
  · exact blockPrefix_writes (n := 32) (by decide) ctr ⟨n0, n1, n2⟩ good hk

/-- Settles O38: the two commands are one operation, and each byte it stores is a byte of the stream transform. -/
theorem streamCommandsXorKeystream : Obligations.StreamCommandsXorKeystream := by
  intro s sh soff dh doff len n0 n1 n2 hs hd hn apart hk hc
  have runs := streamCommand_streams (nonce := ⟨n0, n1, n2⟩) hs hd hn apart hk hc
  refine ⟨_, runs, runs, fun k hlt => ?_, State.streamed_unchangedOutside hs hd, State.streamed_ctr, State.streamed_frame⟩
  rw [State.memRead_streamed hs hd]
  exact getElem?_streamXor _ _ _ (by rwa [State.memRead_length hs])

/-- Settles O39: the two commands are one operation, which completes at once. -/
theorem zeroLengthStreamIsNoop : Obligations.ZeroLengthStreamIsNoop := fun _ _ _ _ _ _ _ _ _ hz ok =>
  ⟨streamCommand_zero hz ok, streamCommand_zero hz ok⟩

/-- Settles O40: XOR with one keystream twice. -/
theorem decryptAfterEncryptRestoresBytes : Obligations.DecryptAfterEncryptRestoresBytes :=
  ⟨streamXor_streamXor, fun _ _ _ _ _ _ _ _ _ _ _ hs hd he apart apart' marks =>
    streamCommand_roundTrip hs hd he apart apart' marks⟩

end Sys2Proof
end

section
/-! The AEAD block numbers and the AEAD commands on good regions (42_poly1305.md R166 to R168, R172, R173), and a tag that was
just written. -/

namespace Sys2Proof.Machine

/-- A chunk's block number under each tail policy: the terminator stands at 2^128, or nowhere (R166). -/
theorem aeadNumber_eq (policy : AeadTail) (c : List Byte) : aeadNumber policy c =
    leValue c + (if policy = .allOne ∨ (policy = .tailZero ∧ c.length = 16) then 2 ^ 128 else 0) := by
  cases policy with
  | tailZero => by_cases full : c.length = 16 <;> simp [aeadNumber, full]
  | allOne => rfl
  | allZero => rfl

/-- The chunks' block numbers are those read off the segment at every sixteenth byte (R166). -/
theorem aeadBlocks_eq (policy : AeadTail) (x : List Byte) : aeadBlocks policy x = aeadNumbersOf policy x := by
  have full (i : Nat) : ((x.drop (16 * i)).take 16).length = 16 ↔ 16 ≤ x.length - 16 * i := by
    rw [List.length_take, List.length_drop]
    omega
  rw [aeadBlocks, chunks16, List.map_map]
  refine List.map_congr_left fun i _ => ?_
  simp only [Function.comp_apply, aeadNumber_eq, full]
  rfl

/-- The value of the tag of two segments (R167). -/
theorem leValue_aeadSign (policy : AeadTail) (key ad ct : List Byte) :
    leValue (aeadSign policy key ad ct) = tagNumber key (aeadNumbersOf policy ad ++ aeadNumbersOf policy ct) := by
  rw [aeadSign, leValue_polyTag, aeadBlocks_eq, aeadBlocks_eq]

variable {s t : State} {ah aoff alen ch coff clen kh koff th toff : Word}

/-- A_SIGN on good regions stores the tag of the bytes that stood in the regions before the write (R172). -/
theorem execASign_good (hr : ∀ r ∈ (Instr.aSign ah aoff alen ch coff clen kh koff th toff).regions, ¬ s.RegionBad r) :
    execASign ah aoff alen ch coff clen kh koff th toff s = .next ((s.memWrite th toff (aeadSign s.params.aeadTail
      (s.memRead kh koff 32) (s.memRead ah aoff (s32 alen).toNat) (s.memRead ch coff (s32 clen).toNat))).complete false) :=
  s.settle_checkRegions_good hr

/-- A_VERIFY on good regions completes with RESULT saying whether the given tag has the tag number of the segments (R173). -/
theorem execAVerify_good (hr : ∀ r ∈ (Instr.aVerify ah aoff alen ch coff clen kh koff th toff).regions, ¬ s.RegionBad r) :
    execAVerify ah aoff alen ch coff clen kh koff th toff s = .next (s.complete (decide (leValue (s.memRead th toff 16) =
      tagNumber (s.memRead kh koff 32) (aeadNumbersOf s.params.aeadTail (s.memRead ah aoff (s32 alen).toNat) ++
        aeadNumbersOf s.params.aeadTail (s.memRead ch coff (s32 clen).toNat))))) := by
  have ht : ¬ s.RegionBad ⟨th, toff, 16⟩ := hr _ (by simp [Instr.regions])
  have tagLength : (s.memRead th toff 16).length = 16 := State.memRead_length ht
  rw [← aeadBlocks_eq, ← aeadBlocks_eq, ← ctEq_polyTag _ _ tagLength]
  exact s.settle_checkRegions_good hr

end Sys2Proof.Machine
end

section
/-! The Poly1305 and AEAD family (42_poly1305.md R160 to R173). -/

namespace Sys2Proof
open Sys2Proof.Machine

/-- Settles O41: a bit of r is the key's and the mask's, and the mask has 128 bits to look at. -/
theorem clampClearsTheTabledBits : Obligations.ClampClearsTheTabledBits := by
  intro key i hi
  have mask : ∀ i : Fin 128, clampMask.testBit i.val =
      (decide (i.val % 32 < 28) && !(decide (32 ≤ i.val) && decide (i.val % 32 < 2))) := by decide
  rw [polyR, Nat.testBit_and, mask ⟨i, hi⟩, Bool.and_assoc]

/-- Settles O47: the evaluation is the polynomial, and without a block only the pad is left. -/
theorem polyEvalIsPolynomial : Obligations.PolyEvalIsPolynomial := by
  refine ⟨polyEval_eq_polySum_mod, fun key hl => ?_⟩
  have length : (polyTag key []).length = (key.drop 16).length := by rw [polyTag_length, List.length_drop, hl]
  have wholePad : (key.drop 16).take 16 = key.drop 16 := List.take_of_length_le (by rw [List.length_drop, hl])
  have fits : leAt key 16 16 < 2 ^ 128 := leAt_lt key 16 16
  refine leValue_injective length ?_
  calc leValue (polyTag key []) = leAt key 16 16 % 2 ^ 128 := by simp [leValue_polyTag, tagNumber, polySum]
    _ = leAt key 16 16 := Nat.mod_eq_of_lt fits
    _ = leValue (key.drop 16) := by rw [leAt, wholePad]

/-- Settles O44: the tag of the two segments fills the good region. -/
theorem aeadSignWritesTag : Obligations.AeadSignWritesTag := by
  intro s ah aoff alen ch coff clen kh koff th toff ha hc hk ht
  have tagLength := polyTag_length (s.memRead kh koff 32) (aeadBlocks s.params.aeadTail
    (s.memRead ah aoff (s32 alen).toNat) ++ aeadBlocks s.params.aeadTail (s.memRead ch coff (s32 clen).toNat))
  refine ⟨_, execASign_good (by simp [Instr.regions, ha, hc, hk, ht]), ?_, ?_, rfl⟩
  · exact (congrArg leValue (State.memRead_memWrite_good ht tagLength)).trans (leValue_aeadSign ..)
  · exact s.memWrite_unchangedOutside ht tagLength

/-- Settles O45. -/
theorem aeadVerifyComparesTag : Obligations.AeadVerifyComparesTag := by
  intro s ah aoff alen ch coff clen kh koff th toff ha hc hk ht
  exact execAVerify_good (by simp [Instr.regions, ha, hc, hk, ht])

/-- Settles O46: the inputs read after the write as before it, so the tag number compared is the one that was stored. -/
theorem signedTagVerifies : Obligations.SignedTagVerifies := by
  intro s ah aoff alen ch coff clen kh koff th toff ha hc hk ht apartA apartC apartK
  constructor
  · obtain ⟨-, signs, -⟩ := polySignWritesTag s ah aoff alen kh koff th toff
    obtain ⟨t, runs, tag, outside, -⟩ := signs ha hk ht
    have good {r : Region} (h : ¬ s.RegionBad r) : ¬ t.RegionBad r := mt (regionBad_exec runs r).1 h
    have key : t.memRead kh koff 32 = s.memRead kh koff 32 := State.memRead_unchanged outside apartK hk (good hk)
    have msg := State.memRead_unchanged outside apartA ha (good ha)
    obtain ⟨-, verifies, -⟩ := polyVerifyComparesTag t ah aoff alen kh koff th toff
    have accepted := verifies (good ha) (good hk) (good ht)
    rw [tag, key, msg, decide_eq_true rfl] at accepted
    exact ⟨t, _, runs, accepted, rfl⟩
  · obtain ⟨t, runs, tag, outside, -⟩ :=
      aeadSignWritesTag s ah aoff alen ch coff clen kh koff th toff ha hc hk ht
    have good {r : Region} (h : ¬ s.RegionBad r) : ¬ t.RegionBad r := mt (regionBad_exec runs r).1 h
    have key : t.memRead kh koff 32 = s.memRead kh koff 32 := State.memRead_unchanged outside apartK hk (good hk)
    have ad := State.memRead_unchanged outside apartA ha (good ha)
    have ct := State.memRead_unchanged outside apartC hc (good hc)
    have verifies := aeadVerifyComparesTag t ah aoff alen ch coff clen kh koff th toff (good ha) (good hc) (good hk) (good ht)
    rw [tag, key, ad, ct, (exec_next_ends runs).params, decide_eq_true rfl] at verifies
    exact ⟨t, _, runs, verifies, rfl⟩

end Sys2Proof
end

section
/-! `2^255 - 19` is prime (43_field_arith.md R191), by Lucas certificates: for a prime `p`, a base of order `p - 1` and the prime
factors of `p - 1`, the large ones with certificates of their own. -/

namespace Sys2Proof.Machine

/-- `a ^ n mod m` by repeated squaring, for an exponent below `2 ^ fuel`. -/
def powMod (m : Nat) : Nat → Nat → Nat → Nat
  | 0, _, _ => 1 % m
  | fuel + 1, a, n => powMod m fuel (a * a % m) (n / 2) * a ^ (n % 2) % m

theorem powMod_eq (m : Nat) {fuel n : Nat} (a : Nat) (h : n < 2 ^ fuel) : powMod m fuel a n = a ^ n % m := by
  induction fuel generalizing a n with
  | zero => simp_all [powMod]
  | succ fuel ih =>
    have halves : (a * a) ^ (n / 2) * a ^ (n % 2) = a ^ n := by
      rw [← pow_two, ← pow_mul, ← pow_add, Nat.div_add_mod]
    rw [powMod, ih _ (by omega), Nat.mod_mul_mod, ← halves]
    exact ((Nat.mod_modEq (a * a) m).pow (n / 2)).mul_right _

/-- What Lucas' test of `p` to the base `a` computes, `p - 1` being the product of `qs`. -/
def lucasCheck (p a : Nat) (qs : List Nat) : Bool :=
  p < 2 ^ 256 && qs.prod == p - 1 && powMod p 256 a (p - 1) == 1 % p &&
    qs.all fun q => !(powMod p 256 a ((p - 1) / q) == 1 % p)

/-- Lucas' test, where the factors of `p - 1` are prime. -/
theorem prime_of_lucasCheck {p a : Nat} {qs : List Nat} (check : lucasCheck p a qs = true)
    (hprime : ∀ q ∈ qs, q.Prime) : p.Prime := by
  simp only [lucasCheck, Bool.and_eq_true, decide_eq_true_eq, beq_iff_eq, List.all_eq_true, Bool.not_eq_true',
    beq_eq_false_iff_ne] at check
  obtain ⟨⟨⟨small, hprod⟩, hone⟩, horder⟩ := check
  have power {n : Nat} (hn : n ≤ p - 1) : (a : ZMod p) ^ n = 1 ↔ powMod p 256 a n = 1 % p := by
    rw [powMod_eq p a (by omega), ← Nat.cast_pow, ← Nat.cast_one, ZMod.natCast_eq_natCast_iff]
    rfl
  refine lucas_primality p a ((power le_rfl).2 hone) fun q hq hdvd => ?_
  obtain ⟨r, hr, hqr⟩ := (Nat.Prime.prime hq).dvd_prod_iff.1 (hprod ▸ hdvd)
  rw [(Nat.prime_dvd_prime_iff_eq hq (hprime r hr)).1 hqr, Ne, power (Nat.div_le_self _ _)]
  exact horder r hr

theorem prime_2773320623 : Nat.Prime 2773320623 :=
  prime_of_lucasCheck (a := 5) (qs := [2, 2437, 569003]) (by decide +kernel) (by norm_num)

theorem prime_72106336199 : Nat.Prime 72106336199 :=
  prime_of_lucasCheck (a := 7) (qs := [2773320623, 2, 13]) (by decide +kernel)
    (List.forall_mem_cons.2 ⟨prime_2773320623, by norm_num⟩)

theorem prime_1919519569386763 : Nat.Prime 1919519569386763 :=
  prime_of_lucasCheck (a := 2) (qs := [2, 3, 7, 19, 47, 47, 127, 8574133]) (by decide +kernel) (by norm_num)

theorem prime_31757755568855353 : Nat.Prime 31757755568855353 :=
  prime_of_lucasCheck (a := 10) (qs := [2, 2, 2, 3, 31, 107, 223, 4153, 430751]) (by decide +kernel) (by norm_num)

theorem prime_75445702479781427272750846543864801 : Nat.Prime 75445702479781427272750846543864801 :=
  prime_of_lucasCheck (a := 7) (qs := [72106336199, 1919519569386763, 2, 2, 2, 2, 2, 3, 3, 5, 5, 75707]) (by decide +kernel)
    (List.forall_mem_cons.2 ⟨prime_72106336199, List.forall_mem_cons.2 ⟨prime_1919519569386763, by norm_num⟩⟩)

theorem prime_74058212732561358302231226437062788676166966415465897661863160754340907 :
    Nat.Prime 74058212732561358302231226437062788676166966415465897661863160754340907 :=
  prime_of_lucasCheck (a := 2)
    (qs := [31757755568855353, 75445702479781427272750846543864801, 2, 3, 353, 57467, 132049, 1923133]) (by decide +kernel)
    (List.forall_mem_cons.2 ⟨prime_31757755568855353,
      List.forall_mem_cons.2 ⟨prime_75445702479781427272750846543864801, by norm_num⟩⟩)

/-- The field's modulus is prime. -/
theorem prime_two_pow_255_sub_19 : Nat.Prime (2 ^ 255 - 19) :=
  prime_of_lucasCheck (a := 2)
    (qs := [74058212732561358302231226437062788676166966415465897661863160754340907, 2, 2, 3, 65147]) (by decide +kernel)
    (List.forall_mem_cons.2
      ⟨prime_74058212732561358302231226437062788676166966415465897661863160754340907, by norm_num⟩)

/-- Fermat's little theorem for the field's modulus, over the integers. -/
theorem pow_prime_sub_one_modEq {z : Int} (hz : ¬ z ≡ 0 [ZMOD (2 ^ 255 - 19)]) :
    z ^ (2 ^ 255 - 20) ≡ 1 [ZMOD (2 ^ 255 - 19)] := by
  have cast : ((2 ^ 255 - 19 : Nat) : Int) = 2 ^ 255 - 19 := by norm_num
  rw [← cast] at hz ⊢
  have coprime : IsCoprime z ((2 ^ 255 - 19 : Nat) : Int) :=
    ((Nat.prime_iff_prime_int.1 prime_two_pow_255_sub_19).coprime_iff_not_dvd.2 fun h => hz (Int.modEq_zero_iff_dvd.2 h)).symm
  exact Int.ModEq.pow_card_sub_one_eq_one prime_two_pow_255_sub_19 coprime

end Sys2Proof.Machine
end

section
/-! What limb vectors stand for (43_field_arith.md R191, R195, R198, R210): carries keep the value mod p, and product sums stand for
the product. -/

namespace Sys2Proof.Machine

/-! ### The value of a vector -/

/-- The sum over the limb numbers, as a finite sum. -/
theorem sum_limbIdxs (f : LimbIdx → Int) : (limbIdxs.map f).sum = ∑ j, f j := (Fin.sum_univ_def f).symm

theorem Limbs.val_eq_sum (h : Limbs Int) : h.val = ∑ j, h.get j * 2 ^ limbBase j := sum_limbIdxs _

/-- Replacing a limb changes the value by the limb's change, at its place. -/
theorem Limbs.val_put (h : Limbs Int) (i : LimbIdx) (v : Int) :
    (h.put i v).val = h.val + (v - h.get i) * 2 ^ limbBase i := by
  have change (j : LimbIdx) : (h.put i v).get j * 2 ^ limbBase j =
      h.get j * 2 ^ limbBase j + if j = i then (v - h.get i) * 2 ^ limbBase i else 0 := by
    rw [Limbs.get_put]
    split
    · rename_i same
      rw [same]
      ring
    · ring
  simp only [Limbs.val_eq_sum, change, Finset.sum_add_distrib, Finset.sum_ite_eq', Finset.mem_univ, if_true]

/-- Moving `c` units of limb `i`'s width into the next limb keeps the value, up to limb 9. -/
theorem Limbs.val_carried (h : Limbs Int) {i : LimbIdx} (hi : i ≠ 9) (c : Int) :
    ((h.put (i + 1) (h.get (i + 1) + c)).put i (h.get i - c * 2 ^ limbWidth i)).val = h.val := by
  have place : limbBase (i + 1) = limbWidth i + limbBase i := by revert i; decide
  have distinct : i ≠ i + 1 := by revert i; decide
  rw [Limbs.val_put, Limbs.val_put, Limbs.get_put, if_neg distinct, place, pow_add]
  ring

/-- Moving `c` units of limb 9's width into limb 0, times 19, changes the value by `c p` (R195). -/
theorem Limbs.val_carried_nine (h : Limbs Int) (c : Int) :
    ((h.put 0 (h.get 0 + 19 * c)).put 9 (h.get 9 - c * 2 ^ 25)).val = h.val - c * (2 ^ 255 - 19) := by
  rw [Limbs.val_put, Limbs.val_put, Limbs.get_put, if_neg (by decide), limbBase, limbBase]
  ring

theorem carry_val {h k : Limbs Int} {i : LimbIdx} (e : carry h i = some k) (hi : i ≠ 9) : k.val = h.val := by
  have moved := carry_eq_some e
  simp only [if_neg hi] at moved
  exact moved ▸ h.val_carried hi _

theorem carry_nine_val {h k : Limbs Int} (e : carry h 9 = some k) :
    k.val = h.val - (h.l9 + 2 ^ 24) / 2 ^ 25 * (2 ^ 255 - 19) := by
  have moved := carry_eq_some e
  exact moved ▸ h.val_carried_nine _

theorem carry_val_modEq {h k : Limbs Int} {i : LimbIdx} (e : carry h i = some k) : k.val ≡ h.val [ZMOD (2 ^ 255 - 19)] := by
  by_cases hi : i = 9
  · subst hi
    rw [carry_nine_val e]
    exact Int.modEq_iff_dvd.2 ⟨(h.l9 + 2 ^ 24) / 2 ^ 25, by ring⟩
  · rw [carry_val e hi]

theorem chain_val_modEq {h k : Limbs Int} {is : List LimbIdx} (e : chain h is = some k) :
    k.val ≡ h.val [ZMOD (2 ^ 255 - 19)] :=
  chain_induction (P := fun u => u.val ≡ h.val [ZMOD (2 ^ 255 - 19)]) (fun _ _ _ hc hu => (carry_val_modEq hc).trans hu) e
    (Int.ModEq.refl _)

/-! ### Product sums -/

/-- The factor of `f_i g_j` in its product sum puts it at the place of `i` times the place of `j`, mod p (R198). -/
theorem productFactor_modEq (i j : LimbIdx) :
    (if i ≤ i + j then 1 else 19) * dFactor i j * 2 ^ limbBase (i + j) ≡ 2 ^ limbBase i * 2 ^ limbBase j
      [ZMOD (2 ^ 255 - 19)] := by
  revert i j
  decide

/-- The pre-carry sums stand for the product (R191, R198). -/
theorem productSums_val_modEq (f g : Limbs Int) :
    (Limbs.ofFun (productSum f g)).val ≡ f.val * g.val [ZMOD (2 ^ 255 - 19)] := by
  have term (i j : LimbIdx) : (if i ≤ i + j then 1 else 19) * dFactor i j * (f.get i * g.get j) * 2 ^ limbBase (i + j) ≡
      f.get i * 2 ^ limbBase i * (g.get j * 2 ^ limbBase j) [ZMOD (2 ^ 255 - 19)] := by
    have := (productFactor_modEq i j).mul_left (f.get i * g.get j)
    convert this using 1 <;> ring
  calc (Limbs.ofFun (productSum f g)).val
      = ∑ k, ∑ i, (if i ≤ k then 1 else 19) * dFactor i (k - i) * (f.get i * g.get (k - i)) * 2 ^ limbBase k := by
        simp only [Limbs.val_eq_sum, Limbs.get_ofFun, productSum, sum_limbIdxs, Finset.sum_mul]
    _ = ∑ i, ∑ j, (if i ≤ i + j then 1 else 19) * dFactor i j * (f.get i * g.get j) * 2 ^ limbBase (i + j) := by
        rw [Finset.sum_comm]
        refine Finset.sum_congr rfl fun i _ => (Fintype.sum_equiv (Equiv.addLeft i) _ _ fun j => ?_).symm
        rw [Equiv.coe_addLeft, add_sub_cancel_left]
    _ ≡ ∑ i, ∑ j, f.get i * 2 ^ limbBase i * (g.get j * 2 ^ limbBase j) [ZMOD (2 ^ 255 - 19)] :=
        Int.ModEq.sum fun i _ => Int.ModEq.sum fun j _ => term i j
    _ = f.val * g.val := by rw [Limbs.val_eq_sum, Limbs.val_eq_sum, Finset.sum_mul_sum]

/-! ### What a completed product, square or scaling stands for -/

/-- A check that passes leaves the vector as it was. -/
theorem Limbs.check_chk64_eq {h k : Limbs Int} (e : h.check chk64 = some k) : k = h :=
  Limbs.ext_get fun j => (chk64_eq_some.1 (Limbs.check_eq_some.1 e j)).1.symm

/-- A chain followed by `finish`: the value kept mod p, and every limb in the i32 range. -/
theorem chain_finish {h v : Limbs Int} {is : List LimbIdx} (e : (do let k ← chain h is; finish k) = some v) :
    v.val ≡ h.val [ZMOD (2 ^ 255 - 19)] ∧ ∀ j, InI32 (v.get j) := by
  obtain ⟨k, hk, hv⟩ := Option.bind_eq_some_iff.1 e
  obtain ⟨rfl, inRange⟩ := finish_eq_some.1 hv
  exact ⟨chain_val_modEq hk, inRange⟩

/-- What F_MUL and F_SQR do after their pre-scaling (R203, R205). -/
def multiply (f g : Limbs Int) : Option (Limbs Int) := do
  let h ← productSums f g
  let h ← chain h mulChain
  finish h

theorem mulLimbs_eq (f g : Limbs Int) : mulLimbs f g = prescaleMul f g >>= fun _ => multiply f g := rfl

theorem sqLimbs_eq (f : Limbs Int) : sqLimbs f = prescaleSq f >>= fun _ => multiply f f := rfl

theorem multiply_of_mulLimbs {f g v : Limbs Int} (e : mulLimbs f g = some v) : multiply f g = some v := by
  obtain ⟨_, -, e⟩ := Option.bind_eq_some_iff.1 (mulLimbs_eq f g ▸ e)
  exact e

theorem multiply_of_sqLimbs {f v : Limbs Int} (e : sqLimbs f = some v) : multiply f f = some v := by
  obtain ⟨_, -, e⟩ := Option.bind_eq_some_iff.1 (sqLimbs_eq f ▸ e)
  exact e

/-- A completed multiplication stands for the product mod p (R211). -/
theorem multiply_some {f g v : Limbs Int} (e : multiply f g = some v) :
    v.val ≡ f.val * g.val [ZMOD (2 ^ 255 - 19)] ∧ ∀ j, InI32 (v.get j) := by
  obtain ⟨h, sums, rest⟩ := Option.bind_eq_some_iff.1 e
  obtain rfl := Limbs.check_chk64_eq sums
  obtain ⟨value, inRange⟩ := chain_finish rest
  exact ⟨value.trans (productSums_val_modEq f g), inRange⟩

end Sys2Proof.Machine
end

section
/-! Bounds of limb vectors (43_field_arith.md R196): a bound of each limb is followed through a chain by computing with the bounds
alone, so that no width check can fail where the computed bounds fit. -/

namespace Sys2Proof.Machine

/-! ### Bounds through a chain -/

/-- Every limb is at most its bound, in absolute value. -/
def Limbs.Below (b h : Limbs Int) : Prop := ∀ j, |h.get j| ≤ b.get j

/-- The bounds after a carry out of limb `i`: half its width there, and the carry's own bound added to the next. -/
def carryBound (b : Limbs Int) (i : LimbIdx) : Limbs Int :=
  let c := b.get i / 2 ^ limbWidth i + 1
  (b.put (i + 1) (b.get (i + 1) + if i = 9 then 19 * c else c)).put i (2 ^ (limbWidth i - 1))

/-- The bounds after a chain, where every carry's limbs stay far inside the i64 range. -/
def chainBound : Limbs Int → List LimbIdx → Option (Limbs Int)
  | b, [] => some b
  | b, i :: is => if b.get i ≤ 2 ^ 62 ∧ b.get (i + 1) ≤ 2 ^ 61 then chainBound (carryBound b i) is else none

/-- A carry completes within the computed bounds. -/
theorem carry_below {b h : Limbs Int} {i : LimbIdx} (hb : b.Below h) (hi : b.get i ≤ 2 ^ 62) (hn : b.get (i + 1) ≤ 2 ^ 61) :
    ∃ k, carry h i = some k ∧ (carryBound b i).Below k := by
  refine ⟨_, carry_completes ((hb i).trans hi) ((hb (i + 1)).trans hn), fun j => ?_⟩
  have out : |(h.get i + 2 ^ (limbWidth i - 1)) / 2 ^ limbWidth i| ≤ b.get i / 2 ^ limbWidth i + 1 := by
    refine carry_out_bound i ((hb i).trans ?_)
    have := Int.lt_ediv_add_one_mul_self (b.get i) (b := 2 ^ limbWidth i) (by positivity)
    exact this.le
  rw [carryBound, Limbs.get_put, Limbs.get_put, Limbs.get_put, Limbs.get_put]
  by_cases same : j = i
  · rw [if_pos same, if_pos same]
    exact carry_rest_bound (h.get i) i
  · rw [if_neg same, if_neg same]
    by_cases next : j = i + 1
    · rw [if_pos next, if_pos next]
      refine (abs_add_le _ _).trans (add_le_add (hb (i + 1)) ?_)
      by_cases nine : i = 9
      · rw [if_pos nine, if_pos nine, abs_mul]
        exact mul_le_mul_of_nonneg_left out (by decide)
      · rw [if_neg nine, if_neg nine]
        exact out
    · rw [if_neg next, if_neg next]
      exact hb j

/-- A chain completes within the computed bounds. -/
theorem chain_below {b c h : Limbs Int} {is : List LimbIdx} (hb : b.Below h) (e : chainBound b is = some c) :
    ∃ k, chain h is = some k ∧ c.Below k := by
  induction is generalizing b h with
  | nil => exact ⟨h, rfl, Option.some.inj e ▸ hb⟩
  | cons i is ih =>
    rw [chainBound] at e
    split at e
    · rename_i fits
      obtain ⟨k, hk, below⟩ := carry_below hb fits.1 fits.2
      obtain ⟨v, hv, below⟩ := ih below e
      exact ⟨v, chain_cons_eq_some.2 ⟨k, hk, hv⟩, below⟩
    · cases e

theorem InI32.of_abs {v : Int} (h : |v| ≤ 2147483647) : InI32 v := by
  have := abs_le.1 h
  exact ⟨by omega, by omega⟩

/-- A chain and `finish` complete where the computed bounds are in the i32 range. -/
theorem chain_finish_below {b c h : Limbs Int} {is : List LimbIdx} (hb : b.Below h) (e : chainBound b is = some c)
    (hc : ∀ j, c.get j ≤ 2147483647) : ∃ v, (do let k ← chain h is; finish k) = some v ∧ c.Below v := by
  obtain ⟨k, hk, below⟩ := chain_below hb e
  refine ⟨k, Option.bind_eq_some_iff.2 ⟨k, hk, finish_eq_some.2 ⟨rfl, fun j => ?_⟩⟩, below⟩
  exact InI32.of_abs ((below j).trans (hc j))

/-- Computed bounds inside `B(num / den)` (R196). -/
theorem Limbs.Below.within {c h : Limbs Int} {num den : Int} (below : c.Below h) (hden : 0 ≤ den)
    (hc : ∀ j : LimbIdx, den * c.get j ≤ num * 2 ^ (limbWidth j - 1)) : h.Within num den := fun j =>
  (mul_le_mul_of_nonneg_left (below j) hden).trans (hc j)

/-- `B(num / den)` as a bound of each limb. -/
theorem Limbs.Within.below {h : Limbs Int} {num den : Int} (within : h.Within num den) (hden : 0 < den) :
    (Limbs.ofFun fun j => num * 2 ^ (limbWidth j - 1) / den).Below h := fun j => by
  rw [Limbs.get_ofFun, Int.le_ediv_iff_mul_le hden, mul_comm]
  exact within j

/-- A larger bound. -/
theorem Limbs.Within.mono {h : Limbs Int} {num num' den : Int} (within : h.Within num den) (le : num ≤ num') :
    h.Within num' den := fun j => (within j).trans (mul_le_mul_of_nonneg_right le (by positivity))

/-! ### Multiplication of vectors in B(3.3) -/

/-- A pre-scaled limb of a vector in B(3.3). -/
theorem Limbs.Within.scaled {f : Limbs Int} (hf : f.Within 33 10) {c : Int} (hc : 0 ≤ c) {j : LimbIdx}
    (fits : c * (33 * 2 ^ (limbWidth j - 1)) ≤ 10 * 2147483647) : InI32 (c * f.get j) := by
  have scaled := (mul_le_mul_of_nonneg_left (hf j) hc).trans fits
  refine InI32.of_abs ?_
  rw [abs_mul, abs_of_nonneg hc]
  linarith

theorem allChk32_eq_some {vs : List Int} (h : ∀ v ∈ vs, InI32 v) : allChk32 vs = some () := by
  induction vs with
  | nil => rfl
  | cons v vs ih =>
    obtain ⟨hv, hvs⟩ := List.forall_mem_cons.1 h
    simp [allChk32, chk32_of_range hv.1 hv.2, ih hvs]

theorem prescaleMul_within {f g : Limbs Int} (hf : f.Within 33 10) (hg : g.Within 33 10) : prescaleMul f g = some () := by
  have g19 (j : LimbIdx) : InI32 (19 * g.get j) := hg.scaled (by decide) (by revert j; decide)
  have f2 (j : LimbIdx) : InI32 (2 * f.get j) := hf.scaled (by decide) (by revert j; decide)
  refine allChk32_eq_some ?_
  simp only [List.forall_mem_cons, List.not_mem_nil, false_imp_iff, implies_true, and_true]
  exact ⟨g19 1, g19 2, g19 3, g19 4, g19 5, g19 6, g19 7, g19 8, g19 9, f2 1, f2 3, f2 5, f2 7, f2 9⟩

theorem prescaleSq_within {f : Limbs Int} (hf : f.Within 33 10) : prescaleSq f = some () := by
  have f2 (j : LimbIdx) : InI32 (2 * f.get j) := hf.scaled (by decide) (by revert j; decide)
  have f19 (j : LimbIdx) : InI32 (19 * f.get j) := hf.scaled (by decide) (by revert j; decide)
  have f38 (j : LimbIdx) (odd : limbWidth j = 25) : InI32 (38 * f.get j) := hf.scaled (by decide) (by rw [odd]; decide)
  refine allChk32_eq_some ?_
  simp only [List.forall_mem_cons, List.not_mem_nil, false_imp_iff, implies_true, and_true]
  exact ⟨f2 0, f2 1, f2 2, f2 3, f2 4, f2 5, f2 6, f2 7, f38 5 rfl, f19 6, f38 7 rfl, f19 8, f38 9 rfl⟩

/-- The product sum of the bounds of B(3.3), 100 times. -/
theorem productSum_bound (k : LimbIdx) : ∑ i, (if i ≤ k then 1 else 19) * dFactor i (k - i) *
    (33 * 2 ^ (limbWidth i - 1) * (33 * 2 ^ (limbWidth (k - i) - 1))) ≤ (100 * 2 ^ 61 : Int) := by
  revert k
  decide

/-- The product sums of vectors in B(3.3) are at most 2^61. -/
theorem productSum_within {f g : Limbs Int} (hf : f.Within 33 10) (hg : g.Within 33 10) (k : LimbIdx) :
    |productSum f g k| ≤ 2 ^ 61 := by
  have term (i j : LimbIdx) : 100 * |(if i ≤ k then 1 else 19) * dFactor i j * (f.get i * g.get j)| ≤
      (if i ≤ k then 1 else 19) * dFactor i j * (33 * 2 ^ (limbWidth i - 1) * (33 * 2 ^ (limbWidth j - 1))) := by
    have factor : 0 ≤ (if i ≤ k then 1 else 19) * dFactor i j := by
      unfold dFactor
      split <;> split <;> decide
    have product := mul_le_mul (hf i) (hg j) (by positivity) (by positivity)
    rw [abs_mul, abs_of_nonneg factor, abs_mul]
    linarith [mul_le_mul_of_nonneg_left product factor]
  have bound : 100 * |productSum f g k| ≤ 100 * 2 ^ 61 := by
    rw [productSum, sum_limbIdxs]
    calc 100 * |∑ i, (if i ≤ k then 1 else 19) * dFactor i (k - i) * (f.get i * g.get (k - i))|
        ≤ 100 * ∑ i, |(if i ≤ k then 1 else 19) * dFactor i (k - i) * (f.get i * g.get (k - i))| :=
          mul_le_mul_of_nonneg_left (Finset.abs_sum_le_sum_abs _ _) (by decide)
      _ ≤ _ := by
          rw [Finset.mul_sum]
          exact Finset.sum_le_sum fun i _ => term i (k - i)
      _ ≤ 100 * 2 ^ 61 := productSum_bound k
  linarith

/-- The bounds that MULCHAIN leaves of sums of at most 2^61 are inside B(1.1). -/
theorem mulChain_bounds : ∃ c, chainBound (Limbs.const (2 ^ 61)) mulChain = some c ∧
    ∀ j : LimbIdx, 10 * c.get j ≤ 11 * 2 ^ (limbWidth j - 1) := ⟨_, rfl, by decide⟩

/-- Bounds inside B(1.1) are in the i32 range. -/
theorem below_inI32 {c : Limbs Int} (hc : ∀ j : LimbIdx, 10 * c.get j ≤ 11 * 2 ^ (limbWidth j - 1)) (j : LimbIdx) :
    c.get j ≤ 2147483647 := by
  have widest : (11 * 2 ^ (limbWidth j - 1) : Int) ≤ 10 * 2147483647 := by revert j; decide
  have := hc j
  omega

/-- The multiplication of vectors in B(3.3) completes in B(1.1). -/
theorem multiply_within {f g : Limbs Int} (hf : f.Within 33 10) (hg : g.Within 33 10) :
    ∃ v, multiply f g = some v ∧ v.Within 11 10 := by
  have sums : productSums f g = some (Limbs.ofFun (productSum f g)) := Limbs.check_eq_some.2 fun j => by
    have := abs_le.1 (productSum_within hf hg j)
    rw [Limbs.get_ofFun]
    exact chk64_of_range (by omega) (by omega)
  have below : (Limbs.const (2 ^ 61)).Below (Limbs.ofFun (productSum f g)) := fun j => by
    rw [Limbs.get_ofFun, Limbs.get_const]
    exact productSum_within hf hg j
  obtain ⟨c, hc, inside⟩ := mulChain_bounds
  obtain ⟨v, hv, belowV⟩ := chain_finish_below below hc (below_inI32 inside)
  exact ⟨v, Option.bind_eq_some_iff.2 ⟨_, sums, hv⟩, belowV.within (by decide) inside⟩

theorem mulLimbs_within {f g : Limbs Int} (hf : f.Within 33 10) (hg : g.Within 33 10) :
    ∃ v, mulLimbs f g = some v ∧ v.Within 11 10 := by
  rw [mulLimbs_eq, prescaleMul_within hf hg]
  exact multiply_within hf hg

theorem sqLimbs_within {f : Limbs Int} (hf : f.Within 33 10) : ∃ v, sqLimbs f = some v ∧ v.Within 11 10 := by
  rw [sqLimbs_eq, prescaleSq_within hf]
  exact multiply_within hf hf

end Sys2Proof.Machine
end

section
/-! Scaling by 121666 (43_field_arith.md R207, R208) and the raw limbs of a byte string (44_field_invert_codec.md R235, R236): both
complete whatever they are given. -/

namespace Sys2Proof.Machine

/-! ### F_MUL121666 -/

/-- Scaling scales the value. -/
theorem Limbs.val_map_mul (f : Limbs Int) (c : Int) : (f.map fun v => v * c).val = c * f.val := by
  simp only [Limbs.val_eq_sum, Limbs.get_map, Finset.mul_sum]
  exact Finset.sum_congr rfl fun j _ => by ring

/-- Under either order, the bounds of any register's limbs times 121666 stay in the i32 range (R208). -/
theorem order121666_bounds (o : Mul121666Order) : ∃ c, chainBound (Limbs.const (2 ^ 31 * 121666)) (order121666 o) = some c ∧
    ∀ j, c.get j ≤ 2147483647 := by
  cases o with
  | ref10 => exact ⟨_, rfl, by decide⟩
  | mulOrder => exact ⟨_, rfl, by decide⟩

/-- Under either order, the bounds of B(2.2) times 121666 end inside B(1.1). -/
theorem order121666_bounds_within (o : Mul121666Order) :
    ∃ c, chainBound (Limbs.ofFun fun j => 22 * 2 ^ (limbWidth j - 1) / 10 * 121666) (order121666 o) = some c ∧
      ∀ j : LimbIdx, 10 * c.get j ≤ 11 * 2 ^ (limbWidth j - 1) := by
  cases o with
  | ref10 => exact ⟨_, rfl, by decide⟩
  | mulOrder => exact ⟨_, rfl, by decide⟩

/-- Scaling a register's limbs completes (R207). -/
theorem mul121666Limbs_completes (o : Mul121666Order) {f : Limbs Int} (hf : ∀ j, -2147483648 ≤ f.get j ∧ f.get j < 2147483648) :
    ∃ v, mul121666Limbs o f = some v ∧ v.val ≡ 121666 * f.val [ZMOD (2 ^ 255 - 19)] ∧ (∀ j, InI32 (v.get j)) ∧
      (f.Within 22 10 → v.Within 11 10) := by
  have scales : (f.map fun v => v * 121666).check chk64 = some (f.map fun v => v * 121666) :=
    Limbs.check_eq_some.2 fun j => by
      have := hf j
      rw [Limbs.get_map]
      exact chk64_of_range (by omega) (by omega)
  have scaled {b : Limbs Int} (hb : b.Below f) : (b.map fun v => v * 121666).Below (f.map fun v => v * 121666) := fun j => by
    rw [Limbs.get_map, Limbs.get_map, abs_mul]
    exact mul_le_mul_of_nonneg_right (hb j) (by decide)
  have any : (Limbs.const (2 ^ 31)).Below f := fun j => by
    have := hf j
    rw [Limbs.get_const, abs_le]
    omega
  obtain ⟨c, hc, inside⟩ := order121666_bounds o
  obtain ⟨v, hv, -⟩ := chain_finish_below (scaled any) hc inside
  obtain ⟨value, inRange⟩ := chain_finish hv
  rw [Limbs.val_map_mul] at value
  refine ⟨v, Option.bind_eq_some_iff.2 ⟨_, scales, hv⟩, value, inRange, fun within => ?_⟩
  obtain ⟨c', hc', inside'⟩ := order121666_bounds_within o
  obtain ⟨v', hv', below⟩ := chain_finish_below (scaled (within.below (by decide))) hc' (below_inI32 inside')
  cases hv.symm.trans hv'
  exact below.within (by decide) inside'

/-! ### F_DECODE -/

theorem leValue_append (a b : List Byte) : leValue (a ++ b) = leValue a + 256 ^ a.length * leValue b := by
  induction a with
  | nil => simp [leValue]
  | cons x xs ih =>
    rw [List.cons_append, leValue, leValue, ih, List.length_cons, pow_succ]
    ring

/-- A string's value from byte `i` on, split `n` bytes further up. -/
theorem leValue_drop {s : List Byte} {i n : Nat} (h : i + n ≤ s.length) :
    leValue (s.drop i) = leAt s i n + 256 ^ n * leValue (s.drop (i + n)) := by
  have length : ((s.drop i).take n).length = n := by
    rw [List.length_take, List.length_drop]
    omega
  have split := leValue_append ((s.drop i).take n) ((s.drop i).drop n)
  rwa [List.take_append_drop, length, List.drop_drop] at split

/-- The bounds of the raw limbs of 32 bytes (R235). -/
def rawBound : Limbs Int := ⟨2 ^ 32, 2 ^ 30, 2 ^ 29, 2 ^ 27, 2 ^ 26, 2 ^ 32, 2 ^ 31, 2 ^ 29, 2 ^ 28, 2 ^ 25⟩

theorem rawLimbs_below (s : List Byte) : rawBound.Below (rawLimbs s) := by
  have piece {x e b : Nat} (hx : x * 2 ^ e ≤ b) : |(x : Int) * 2 ^ e| ≤ (b : Int) := by
    rw [abs_of_nonneg (by positivity)]
    exact_mod_cast hx
  have bytes (i n e : Nat) : |(leAt s i n : Int) * 2 ^ e| ≤ ((256 ^ n * 2 ^ e : Nat) : Int) :=
    piece (Nat.mul_le_mul_right _ (leAt_lt s i n).le)
  have top : |((leAt s 29 3 &&& 0x7FFFFF : Nat) : Int) * 2 ^ 2| ≤ ((2 ^ 23 * 2 ^ 2 : Nat) : Int) :=
    piece (Nat.mul_le_mul_right _ (Nat.and_le_right.trans (by decide)))
  rw [Limbs.Below, forall_limbIdx]
  simp only [rawLimbs, rawBound, Limbs.get]
  refine ⟨?_, ?_, ?_, ?_, ?_, ?_, ?_, ?_, ?_, ?_⟩
  · simpa using bytes 0 4 0
  · simpa using bytes 4 3 6
  · simpa using bytes 7 3 5
  · simpa using bytes 10 3 3
  · simpa using bytes 13 3 2
  · simpa using bytes 16 4 0
  · simpa using bytes 20 3 7
  · simpa using bytes 23 3 5
  · simpa using bytes 26 3 4
  · simpa using top

/-- The raw limbs stand for the string with bit 255 dropped (R235, R237). -/
theorem rawLimbs_val {s : List Byte} (hl : s.length = 32) : (rawLimbs s).val = ((leValue s % 2 ^ 255 : Nat) : Int) := by
  have d0 : leValue s = leAt s 0 4 + 256 ^ 4 * leValue (s.drop 4) := leValue_drop (i := 0) (by omega)
  have d4 : leValue (s.drop 4) = leAt s 4 3 + 256 ^ 3 * leValue (s.drop 7) := leValue_drop (by omega)
  have d7 : leValue (s.drop 7) = leAt s 7 3 + 256 ^ 3 * leValue (s.drop 10) := leValue_drop (by omega)
  have d10 : leValue (s.drop 10) = leAt s 10 3 + 256 ^ 3 * leValue (s.drop 13) := leValue_drop (by omega)
  have d13 : leValue (s.drop 13) = leAt s 13 3 + 256 ^ 3 * leValue (s.drop 16) := leValue_drop (by omega)
  have d16 : leValue (s.drop 16) = leAt s 16 4 + 256 ^ 4 * leValue (s.drop 20) := leValue_drop (by omega)
  have d20 : leValue (s.drop 20) = leAt s 20 3 + 256 ^ 3 * leValue (s.drop 23) := leValue_drop (by omega)
  have d23 : leValue (s.drop 23) = leAt s 23 3 + 256 ^ 3 * leValue (s.drop 26) := leValue_drop (by omega)
  have d26 : leValue (s.drop 26) = leAt s 26 3 + 256 ^ 3 * leValue (s.drop 29) := leValue_drop (by omega)
  have d29 : leValue (s.drop 29) = leAt s 29 3 := by
    rw [leAt, List.take_of_length_le (by rw [List.length_drop, hl])]
  have topBit : leAt s 29 3 &&& 0x7FFFFF = leAt s 29 3 % 2 ^ 23 := Nat.and_two_pow_sub_one_eq_mod _ 23
  have b0 := leAt_lt s 0 4
  have b4 := leAt_lt s 4 3
  have b7 := leAt_lt s 7 3
  have b10 := leAt_lt s 10 3
  have b13 := leAt_lt s 13 3
  have b16 := leAt_lt s 16 4
  have b20 := leAt_lt s 20 3
  have b23 := leAt_lt s 23 3
  have b26 := leAt_lt s 26 3
  rw [Limbs.val_eq]
  simp only [rawLimbs, topBit]
  omega

/-- Under either order, the bounds of the raw limbs end inside B(1.1) (R236). -/
theorem decOrder_bounds (o : DecodeOrder) : ∃ c, chainBound rawBound (decOrder o) = some c ∧
    ∀ j : LimbIdx, 10 * c.get j ≤ 11 * 2 ^ (limbWidth j - 1) := by
  cases o with
  | ref10 => exact ⟨_, rfl, by decide⟩
  | sequential => exact ⟨_, rfl, by decide⟩

/-- Decoding 32 bytes completes with their value in B(1.1) (R237, R240). -/
theorem decodeLimbs_completes (o : DecodeOrder) {s : List Byte} (hl : s.length = 32) :
    ∃ v, decodeLimbs o s = some v ∧ v.val ≡ ((leValue s % 2 ^ 255 : Nat) : Int) [ZMOD (2 ^ 255 - 19)] ∧
      (∀ j, InI32 (v.get j)) ∧ v.Within 11 10 := by
  obtain ⟨c, hc, inside⟩ := decOrder_bounds o
  obtain ⟨v, hv, below⟩ := chain_finish_below (rawLimbs_below s) hc (below_inI32 inside)
  obtain ⟨value, inRange⟩ := chain_finish hv
  exact ⟨v, hv, rawLimbs_val hl ▸ value, inRange, below.within (by decide) inside⟩

end Sys2Proof.Machine
end

section
/-! Inversion (44_field_invert_codec.md R230 to R234): the chain of squarings and multiplications is the power p - 2. -/

namespace Sys2Proof.Machine

variable {z f g v : Limbs Int} {m n : Nat}

/-- `f` stands for the power `n` of `z`, mod p. -/
def Limbs.IsPow (z : Limbs Int) (n : Nat) (f : Limbs Int) : Prop := f.val ≡ z.val ^ n [ZMOD (2 ^ 255 - 19)]

theorem Limbs.IsPow.self (z : Limbs Int) : z.IsPow 1 z := by rw [Limbs.IsPow, pow_one]

theorem Limbs.IsPow.mul (hf : z.IsPow m f) (hg : z.IsPow n g) (e : mulLimbs f g = some v) : z.IsPow (m + n) v := by
  rw [Limbs.IsPow, pow_add]
  exact (multiply_some (multiply_of_mulLimbs e)).1.trans (Int.ModEq.mul hf hg)

theorem Limbs.IsPow.sq (hf : z.IsPow m f) (e : sqLimbs f = some v) : z.IsPow (m + m) v := by
  rw [Limbs.IsPow, pow_add]
  exact (multiply_some (multiply_of_sqLimbs e)).1.trans (Int.ModEq.mul hf hf)

/-! ### One chain, read in two ways -/

/-- A way to say that an answer has a property, which a sequence of computations hands on: that it does where there is one, or
that there is one and it does. -/
structure Reading (A : Option (Limbs Int) → (Limbs Int → Prop) → Prop) : Prop where
  pure : ∀ {Q : Limbs Int → Prop} {a}, Q a → A (some a) Q
  bind : ∀ {Q R : Limbs Int → Prop} {o k}, A o Q → (∀ a, Q a → A (k a) R) → A (o >>= k) R

/-- The property holds of every answer there is. -/
def Whenever (o : Option (Limbs Int)) (Q : Limbs Int → Prop) : Prop := ∀ v, o = some v → Q v

/-- There is an answer with the property. -/
def Always (o : Option (Limbs Int)) (Q : Limbs Int → Prop) : Prop := ∃ v, o = some v ∧ Q v

theorem reading_whenever : Reading Whenever where
  pure h := fun _ e => Option.some.inj e ▸ h
  bind ho hk := fun v e => by
    obtain ⟨a, ha, hv⟩ := Option.bind_eq_some_iff.1 e
    exact hk a (ho a ha) v hv

theorem reading_always : Reading Always where
  pure h := ⟨_, rfl, h⟩
  bind ho hk := by
    obtain ⟨a, ha, h⟩ := ho
    obtain ⟨v, hv, h⟩ := hk a h
    exact ⟨v, Option.bind_eq_some_iff.2 ⟨a, ha, hv⟩, h⟩

section

variable {A : Option (Limbs Int) → (Limbs Int → Prop) → Prop} (reading : Reading A) {P : Nat → Limbs Int → Prop}
  (sq : ∀ {m f}, P m f → A (sqLimbs f) (P (m + m)))
include reading sq

theorem sqTimes_reads (k : Nat) (hf : P m f) : A (sqTimes k f) (P (m * 2 ^ k)) := by
  induction k generalizing m f with
  | zero => exact reading.pure (by simpa using hf)
  | succ k ih =>
    refine reading.bind (sq hf) fun g hg => ?_
    have doubled := ih hg
    rwa [← two_mul, mul_comm 2 m, mul_assoc, ← pow_succ'] at doubled

/-- The exponents of the chain of R231: where squaring doubles the exponent of a property and multiplying adds them, the chain
takes it from 1 to p - 2. -/
theorem invLimbs_reads (mul : ∀ {m n f g}, P m f → P n g → A (mulLimbs f g) (P (m + n))) (hz : P 1 z) :
    A (invLimbs z) (P (2 ^ 255 - 21)) := by
  have times (k : Nat) {m f} (hf : P m f) := sqTimes_reads reading sq k hf
  unfold invLimbs
  refine reading.bind (Q := P 2) (sq hz) fun _ p2 => ?_
  refine reading.bind (Q := P 8) (times 2 p2) fun _ p8 => ?_
  refine reading.bind (Q := P 9) (mul hz p8) fun _ p9 => ?_
  refine reading.bind (Q := P 11) (mul p2 p9) fun _ p11 => ?_
  refine reading.bind (Q := P 22) (sq p11) fun _ p22 => ?_
  refine reading.bind (Q := P (2 ^ 5 - 1)) (mul p9 p22) fun _ p5 => ?_
  refine reading.bind (Q := P (2 ^ 10 - 2 ^ 5)) (times 5 p5) fun _ p => ?_
  refine reading.bind (Q := P (2 ^ 10 - 1)) (mul p p5) fun _ p10 => ?_
  refine reading.bind (Q := P (2 ^ 20 - 2 ^ 10)) (times 10 p10) fun _ p => ?_
  refine reading.bind (Q := P (2 ^ 20 - 1)) (mul p p10) fun _ p20 => ?_
  refine reading.bind (Q := P (2 ^ 40 - 2 ^ 20)) (times 20 p20) fun _ p => ?_
  refine reading.bind (Q := P (2 ^ 40 - 1)) (mul p p20) fun _ p40 => ?_
  refine reading.bind (Q := P (2 ^ 50 - 2 ^ 10)) (times 10 p40) fun _ p => ?_
  refine reading.bind (Q := P (2 ^ 50 - 1)) (mul p p10) fun _ p50 => ?_
  refine reading.bind (Q := P (2 ^ 100 - 2 ^ 50)) (times 50 p50) fun _ p => ?_
  refine reading.bind (Q := P (2 ^ 100 - 1)) (mul p p50) fun _ p100 => ?_
  refine reading.bind (Q := P (2 ^ 200 - 2 ^ 100)) (times 100 p100) fun _ p => ?_
  refine reading.bind (Q := P (2 ^ 200 - 1)) (mul p p100) fun _ p200 => ?_
  refine reading.bind (Q := P (2 ^ 250 - 2 ^ 50)) (times 50 p200) fun _ p => ?_
  refine reading.bind (Q := P (2 ^ 250 - 1)) (mul p p50) fun _ p250 => ?_
  refine reading.bind (Q := P (2 ^ 255 - 2 ^ 5)) (times 5 p250) fun _ p => ?_
  exact mul p p11

end

/-! ### What the chain gives -/

/-- Where it completes, the chain gives the power p - 2 (R231). -/
theorem invLimbs_isPow (hz : ∀ j, InI32 (z.get j)) (e : invLimbs z = some v) :
    z.IsPow (2 ^ 255 - 21) v ∧ ∀ j, InI32 (v.get j) :=
  invLimbs_reads reading_whenever (P := fun n f => z.IsPow n f ∧ ∀ j, InI32 (f.get j))
    (fun hf _ e => ⟨hf.1.sq e, (multiply_some (multiply_of_sqLimbs e)).2⟩)
    (fun hf hg _ e => ⟨hf.1.mul hg.1 e, (multiply_some (multiply_of_mulLimbs e)).2⟩) ⟨.self z, hz⟩ v e

/-- On a vector in B(3.3) the chain completes, in B(1.1): every product is of vectors in B(3.3). -/
theorem invLimbs_within (hz : z.Within 33 10) : ∃ v, invLimbs z = some v ∧ v.Within 11 10 := by
  have wide {f : Limbs Int} (hf : f.Within 11 10) : f.Within 33 10 := hf.mono (by decide)
  obtain ⟨v, e, -, within⟩ := invLimbs_reads reading_always (P := fun n f => f.Within 33 10 ∧ (n = 1 ∨ f.Within 11 10))
    (fun hf => (sqLimbs_within hf.1).imp fun _ h => ⟨h.1, wide h.2, .inr h.2⟩)
    (fun hf hg => (mulLimbs_within hf.1 hg.1).imp fun _ h => ⟨h.1, wide h.2, .inr h.2⟩) ⟨hz, .inl rfl⟩
  exact ⟨v, e, within.resolve_left (by decide)⟩

theorem sqLimbs_zero : sqLimbs (Limbs.const 0) = some (Limbs.const 0) := by decide +kernel

theorem mulLimbs_zero : mulLimbs (Limbs.const 0) (Limbs.const 0) = some (Limbs.const 0) := by decide +kernel

/-- Zero inverts to zero (R233). -/
theorem invLimbs_zero : invLimbs (Limbs.const 0) = some (Limbs.const 0) := by
  obtain ⟨v, e, rfl⟩ := invLimbs_reads reading_always (P := fun _ f => f = Limbs.const 0)
    (fun hf => by subst hf; exact ⟨_, sqLimbs_zero, rfl⟩)
    (fun hf hg => by subst hf hg; exact ⟨_, mulLimbs_zero, rfl⟩) rfl
  exact e

end Sys2Proof.Machine
end

section
/-! Encoding (44_field_invert_codec.md R241 to R243): the quotient estimate of a vector in B(2.2) is its quotient by p, so that the
reduced limbs stand for the canonical value. -/

namespace Sys2Proof.Machine

theorem limbWidth_cases (j : LimbIdx) : limbWidth j = 26 ∨ limbWidth j = 25 := by
  revert j
  decide

/-! ### The quotient estimate -/

/-- The limbs of a list, each at its place above the one before. -/
def stacked (h : Limbs Int) : List LimbIdx → Int
  | [] => 0
  | j :: js => h.get j + 2 ^ limbWidth j * stacked h js

/-- The bits the limbs of a list take. -/
def stackedWidth (js : List LimbIdx) : Nat := (js.map limbWidth).sum

/-- All ten limbs stacked are the value. -/
theorem stacked_limbIdxs (h : Limbs Int) : stacked h limbIdxs = h.val := by
  rw [Limbs.val_eq]
  simp only [stacked, limbIdxs, Limbs.get, limbWidth]
  ring

/-- Carrying through the limbs in turn is one division of the limbs stacked. -/
theorem quotientFrom_eq {h : Limbs Int} {js : List LimbIdx} {q r : Int} (e : quotientFrom h js q = some r) :
    r = (q + stacked h js) / 2 ^ stackedWidth js := by
  induction js generalizing q with
  | nil =>
    cases e
    simp [stacked, stackedWidth]
  | cons j js ih =>
    obtain ⟨t, ht, e⟩ := Option.bind_eq_some_iff.1 e
    obtain ⟨rfl, -⟩ := chk32_eq_some.1 ht
    have positive : (2 ^ limbWidth j : Int) ≠ 0 := by positivity
    rw [ih e, stacked, stackedWidth, stackedWidth, List.map_cons, List.sum_cons, pow_add,
      ← Int.ediv_ediv_of_nonneg (by positivity), ← Int.add_mul_ediv_left _ _ positive]
    congr 2
    ring

/-- The estimate completes on small limbs, and stays small. -/
theorem quotientFrom_completes {h : Limbs Int} (hh : ∀ j, |h.get j| ≤ 2 ^ 27) (js : List LimbIdx) {q : Int}
    (hq : |q| ≤ 2 ^ 20) : ∃ r, quotientFrom h js q = some r ∧ |r| ≤ 2 ^ 20 := by
  induction js generalizing q with
  | nil => exact ⟨q, rfl, hq⟩
  | cons j js ih =>
    have hj := abs_le.1 (hh j)
    have hq := abs_le.1 hq
    have next : |(h.get j + q) / 2 ^ limbWidth j| ≤ 2 ^ 20 := by
      rw [abs_le]
      rcases limbWidth_cases j with e | e <;> rw [e] <;> omega
    obtain ⟨r, hr, small⟩ := ih next
    exact ⟨r, Option.bind_eq_some_iff.2 ⟨_, chk32_of_range (by omega) (by omega), hr⟩, small⟩

/-- The quotient by p of a number near `h9 2^230`, from an estimate that looks at `h9` alone (R241, R243). -/
theorem estimate_eq_quotient {x h9 q : Int} (near : |x - h9 * 2 ^ 230| ≤ 2 ^ 231) (small : |h9| ≤ 2 ^ 26)
    (hq : q = ((19 * h9 + 2 ^ 24) / 2 ^ 25 + x) / 2 ^ 255) : q = x / (2 ^ 255 - 19) := by
  obtain ⟨near1, near2⟩ := abs_le.1 near
  obtain ⟨small1, small2⟩ := abs_le.1 small
  obtain ⟨a, ha⟩ : ∃ a, a = (19 * h9 + 2 ^ 24) / 2 ^ 25 := ⟨_, rfl⟩
  obtain ⟨m, hm⟩ : ∃ m, m = x / (2 ^ 255 - 19) := ⟨_, rfl⟩
  have estimate : 2 ^ 25 * a ≤ 19 * h9 + 2 ^ 24 ∧ 19 * h9 + 2 ^ 24 < 2 ^ 25 * a + 2 ^ 25 := by omega
  have quotient : (2 ^ 255 - 19) * m ≤ x ∧ x < (2 ^ 255 - 19) * m + (2 ^ 255 - 19) := by omega
  have lower : 2 ^ 255 * m ≤ a + x := by
    by_contra below
    linarith
  have upper : a + x < 2 ^ 255 * m + 2 ^ 255 := by
    by_contra above
    linarith
  rw [hq, ← ha, ← hm]
  omega

/-! ### The floor carries -/

/-- What the limbs below 9 carry up keeps the value (R241). -/
theorem floorCarries_val {h k : Limbs Int} {js : List LimbIdx} (hjs : 9 ∉ js) (e : floorCarries h js = some k) :
    k.val = h.val := by
  induction js generalizing h with
  | nil => cases e; rfl
  | cons j js ih =>
    obtain ⟨up, hup, e⟩ := Option.bind_eq_some_iff.1 e
    obtain ⟨rfl, -⟩ := chk32_eq_some.1 hup
    obtain ⟨first, others⟩ := not_or.1 (List.mem_cons.not.1 hjs)
    rw [ih others e, Limbs.val_carried h (Ne.symm first)]

/-- A limb that no carry of the list touches is kept. -/
theorem floorCarries_get {h k : Limbs Int} {js : List LimbIdx} {i : LimbIdx} (hi : ∀ j ∈ js, i ≠ j ∧ i ≠ j + 1)
    (e : floorCarries h js = some k) : k.get i = h.get i := by
  induction js generalizing h with
  | nil => cases e; rfl
  | cons j js ih =>
    obtain ⟨up, -, e⟩ := Option.bind_eq_some_iff.1 e
    obtain ⟨first, others⟩ := List.forall_mem_cons.1 hi
    rw [ih others e, Limbs.get_put, if_neg first.1, Limbs.get_put, if_neg first.2]

/-- A limb carried out of is left in its width, where no later carry touches it. -/
theorem floorCarries_range {h k : Limbs Int} {js : List LimbIdx} (order : js.Pairwise fun i j => i ≠ j ∧ i ≠ j + 1)
    (e : floorCarries h js = some k) : ∀ i ∈ js, 0 ≤ k.get i ∧ k.get i < 2 ^ limbWidth i := by
  induction js generalizing h with
  | nil => exact fun i hi => absurd hi List.not_mem_nil
  | cons j js ih =>
    obtain ⟨up, -, e⟩ := Option.bind_eq_some_iff.1 e
    obtain ⟨first, others⟩ := List.pairwise_cons.1 order
    refine List.forall_mem_cons.2 ⟨?_, ih others e⟩
    have left : k.get j = h.get j % 2 ^ limbWidth j := by
      rw [floorCarries_get first e, Limbs.get_put, if_pos rfl, Int.emod_def, mul_comm]
    rw [left]
    exact ⟨Int.emod_nonneg _ (by positivity), Int.emod_lt_of_pos _ (by positivity)⟩

/-- The floor carries complete on small limbs. -/
theorem floorCarries_completes {js : List LimbIdx} {h : Limbs Int} {b : Int} (hh : ∀ j, |h.get j| ≤ b)
    (wide : 2 ^ 26 ≤ b) (hb : b + 64 * js.length ≤ 2 ^ 30) : ∃ k, floorCarries h js = some k := by
  induction js generalizing h b with
  | nil => exact ⟨h, rfl⟩
  | cons j js ih =>
    rw [List.length_cons] at hb
    push_cast at hb
    obtain ⟨c, hc⟩ : ∃ c, c = h.get j / 2 ^ limbWidth j := ⟨_, rfl⟩
    have hj := abs_le.1 (hh j)
    have carried : |c| ≤ 64 ∧ |h.get j - c * 2 ^ limbWidth j| ≤ b + 64 := by
      rw [abs_le, abs_le]
      rcases limbWidth_cases j with e | e <;> rw [e] at hc ⊢ <;> omega
    have next : |h.get (j + 1) + c| ≤ b + 64 := (abs_add_le _ _).trans (add_le_add (hh _) carried.1)
    have passes := abs_le.1 next
    obtain ⟨k, hk⟩ := ih (h := (h.put (j + 1) (h.get (j + 1) + c)).put j (h.get j - c * 2 ^ limbWidth j)) (b := b + 64)
      (fun i => by
        rw [Limbs.get_put, Limbs.get_put]
        split
        · exact carried.2
        · split
          · exact next
          · exact (hh i).trans (by omega)) (by omega) (by omega)
    subst hc
    exact ⟨k, Option.bind_eq_some_iff.2 ⟨_, chk32_of_range (by omega) (by omega), hk⟩⟩

/-! ### The reduction -/

/-- A vector in B(2.2) is near its top limb's place. -/
theorem Limbs.Within.near_top {h : Limbs Int} (hh : h.Within 22 10) : |h.val - h.l9 * 2 ^ 230| ≤ 2 ^ 231 := by
  have bounds (j : LimbIdx) : |h.get j| ≤ 22 * 2 ^ (limbWidth j - 1) / 10 := by
    simpa only [Limbs.get_ofFun] using hh.below (by decide) j
  simp only [forall_limbIdx, Limbs.get, limbWidth, abs_le] at bounds
  rw [Limbs.val_eq, abs_le]
  omega

/-- The value of nine limbs in their widths and a tenth, with the tenth cut to its width. -/
theorem val_cut_top {k : Limbs Int}
    (hk : ∀ i ∈ ([0, 1, 2, 3, 4, 5, 6, 7, 8] : List LimbIdx), 0 ≤ k.get i ∧ k.get i < 2 ^ limbWidth i) :
    ({ k with l9 := k.l9 - k.l9 / 2 ^ 25 * 2 ^ 25 } : Limbs Int).val = k.val % 2 ^ 255 := by
  simp only [List.forall_mem_cons, Limbs.get, limbWidth] at hk
  rw [Limbs.val_eq, Limbs.val_eq]
  dsimp only
  omega

/-- The quotient of a vector in B(2.2) is its quotient by p (R241, R243). -/
theorem quotient_within {h : Limbs Int} (hh : h.Within 22 10) :
    quotient h = some (h.val / (2 ^ 255 - 19)) ∧ |h.val / (2 ^ 255 - 19)| ≤ 2 ^ 20 := by
  have small (j : LimbIdx) : |h.get j| ≤ 2 ^ 27 := (hh.below (by decide) j).trans (by revert j; decide)
  have top : |h.l9| ≤ 2 ^ 26 := (hh.below (by decide) 9).trans (by decide)
  obtain ⟨top1, top2⟩ := abs_le.1 top
  have start : |(19 * h.l9 + 2 ^ 24) / 2 ^ 25| ≤ 2 ^ 20 := by
    rw [abs_le]
    omega
  obtain ⟨q, hq, bound⟩ := quotientFrom_completes small limbIdxs start
  have value := quotientFrom_eq hq
  rw [stacked_limbIdxs] at value
  obtain rfl := estimate_eq_quotient hh.near_top top value
  refine ⟨?_, bound⟩
  refine Option.bind_eq_some_iff.2 ⟨_, chk32_of_range (by omega) (by omega), ?_⟩
  exact Option.bind_eq_some_iff.2 ⟨_, chk32_of_range (by omega) (by omega), hq⟩

/-- A vector in B(2.2) is reduced to its canonical value (R241, R243). -/
theorem reduceLimbs_within {h : Limbs Int} (hh : h.Within 22 10) :
    ∃ k, reduceLimbs h = some k ∧ k.val = h.val % (2 ^ 255 - 19) := by
  obtain ⟨quotients, small⟩ := quotient_within hh
  obtain ⟨q, hq⟩ : ∃ q, q = h.val / (2 ^ 255 - 19) := ⟨_, rfl⟩
  rw [← hq] at quotients small
  obtain ⟨q1, q2⟩ := abs_le.1 small
  have limbs (j : LimbIdx) : |h.get j| ≤ 2 ^ 27 := (hh.below (by decide) j).trans (by revert j; decide)
  obtain ⟨low1, low2⟩ := abs_le.1 (limbs 0)
  simp only [Limbs.get] at low1 low2
  obtain ⟨k, hk⟩ := floorCarries_completes (js := [0, 1, 2, 3, 4, 5, 6, 7, 8]) (h := h.put 0 (h.l0 + 19 * q)) (b := 2 ^ 28)
    (fun j => by
      rw [Limbs.get_put, abs_le]
      have := abs_le.1 (limbs j)
      split <;> omega) (by decide) (by decide)
  have inWidth := floorCarries_range (by decide) hk
  have value : k.val = h.val + 19 * q := by
    rw [floorCarries_val (by decide) hk, Limbs.val_put, limbBase, Limbs.get]
    ring
  refine ⟨{ k with l9 := k.l9 - k.l9 / 2 ^ 25 * 2 ^ 25 }, ?_, ?_⟩
  · refine Option.bind_eq_some_iff.2 ⟨q, quotients, ?_⟩
    refine Option.bind_eq_some_iff.2 ⟨_, chk32_of_range (by omega) (by omega), ?_⟩
    refine Option.bind_eq_some_iff.2 ⟨_, chk32_of_range (by omega) (by omega), ?_⟩
    exact Option.bind_eq_some_iff.2 ⟨k, hk, rfl⟩
  · rw [val_cut_top inWidth, value]
    omega

/-- The 32 bytes of a vector in B(2.2) are its canonical value (R242, R243). -/
theorem encodeLimbs_within {h : Limbs Int} (hh : h.Within 22 10) :
    ∃ b, encodeLimbs h = some b ∧ (leValue b : Int) = h.val % (2 ^ 255 - 19) := by
  obtain ⟨k, hk, value⟩ := reduceLimbs_within hh
  refine ⟨leBytes 32 k.val.toNat, Option.bind_eq_some_iff.2 ⟨k, hk, rfl⟩, ?_⟩
  rw [leValue_leBytes, value]
  omega

end Sys2Proof.Machine
end

section
/-! The field commands on marked registers and good regions (43_field_arith.md R200 to R211, 44_field_invert_codec.md R232 to R245),
from what their limb functions give. -/

namespace Sys2Proof.Machine

variable {s t : State} {fd fa fb : FeIdx}

/-! ### Registers as integers -/

/-- A vector in B(1.1) is in the i32 range. -/
theorem Limbs.Within.inI32 {v : Limbs Int} (h : v.Within 11 10) (j : LimbIdx) : InI32 (v.get j) := by
  refine InI32.of_abs ((h.below (by decide) j).trans ?_)
  revert j
  decide

theorem State.feInts_range (s : State) (i : FeIdx) (j : LimbIdx) : InI32 ((s.feInts i).get j) :=
  (s.feReg i).limbs.toInts_range j

/-- What a register just written with the words of a vector stands for. -/
theorem State.feInts_written {v : Limbs Int} (h : ∀ j, InI32 (v.get j)) :
    ((s.writeFe fd v.toWords).complete false).feInts fd = v := by
  have reg : ((s.writeFe fd v.toWords).complete false).feReg fd = ⟨v.toWords, true⟩ := s.feReg_writeFe_self fd v.toWords
  rw [State.feInts, reg, Limbs.toInts_toWords h]

/-! ### F_ADD and F_SUB -/

/-- A limb-by-limb operation whose limbs are in the i32 range passes its check. -/
theorem zip_check {op : Int → Int → Int} {f g : Limbs Int} (h : ∀ j, InI32 (op (f.get j) (g.get j))) :
    (f.zip op g).check chk32 = some (f.zip op g) := Limbs.check_eq_some.2 fun j => by
  rw [Limbs.get_zip]
  exact chk32_of_range (h j).1 (h j).2

theorem Limbs.val_zip_add (f g : Limbs Int) : (f.zip (fun a b => a + b) g).val = f.val + g.val := by
  simp only [Limbs.val_eq_sum, Limbs.get_zip, add_mul, Finset.sum_add_distrib]

theorem Limbs.val_zip_sub (f g : Limbs Int) : (f.zip (fun a b => a - b) g).val = f.val - g.val := by
  simp only [Limbs.val_eq_sum, Limbs.get_zip, sub_mul, Finset.sum_sub_distrib]

/-- F_ADD and F_SUB, by their operation on one limb (R200, R201). -/
theorem fieldBinary_limbwise {op : Int → Int → Int} (ha : (s.feReg fa).written = true) (hb : (s.feReg fb).written = true)
    (h : ∀ j, InI32 (op ((s.feInts fa).get j) ((s.feInts fb).get j))) :
    ∃ v : Limbs Word, v.toInts = (s.feInts fa).zip op (s.feInts fb) ∧
      fieldBinary (fun f g => (f.zip op g).check chk32) fd fa fb s = .next ((s.writeFe fd v).complete false) := by
  refine ⟨_, Limbs.toInts_toWords fun j => ?_, fieldBinary_good s ha hb (zip_check h)⟩
  rw [Limbs.get_zip]
  exact h j

/-! ### F_DECODE and F_ENCODE -/

/-- F_DECODE of a good region loads the value of its bytes (R240). -/
theorem execFDecode_good {sh soff : Word} (good : ¬ s.RegionBad ⟨sh, soff, 32⟩) : ∃ v : Limbs Int,
    v.val ≡ ((leValue (s.memRead sh soff 32) % 2 ^ 255 : Nat) : Int) [ZMOD (2 ^ 255 - 19)] ∧ v.Within 11 10 ∧
      execFDecode fd sh soff s = .next ((s.writeFe fd v.toWords).complete false) := by
  obtain ⟨v, hv, value, -, within⟩ := decodeLimbs_completes s.params.decodeOrder (State.memRead_length good)
  refine ⟨v, value, within, (s.settle_checkRegions_good (List.forall_mem_singleton.2 good)).trans ?_⟩
  exact congrArg (fun r => s.settle (arith r >>= _)) hv

/-- F_ENCODE of a register in B(2.2) stores its canonical value in a good region (R245). -/
theorem execFEncode_good {dh doff : Word} (good : ¬ s.RegionBad ⟨dh, doff, 32⟩) (ha : (s.feReg fa).written = true)
    (within : (s.feInts fa).Within 22 10) : ∃ b : List Byte, b.length = 32 ∧
      (leValue b : Int) = (s.feInts fa).val % (2 ^ 255 - 19) ∧
      execFEncode fa dh doff s = .next ((s.memWrite dh doff b).complete false) := by
  obtain ⟨b, hb, value⟩ := encodeLimbs_within within
  refine ⟨b, encodeLimbs_length hb, value, (s.settle_checkRegions_good (List.forall_mem_singleton.2 good)).trans ?_⟩
  unfold State.feInts at hb
  simp [State.readFe_marked (s := s) ha, bind, Except.bind, pure, Except.pure, hb, arith]

end Sys2Proof.Machine
end

section
/-! The field unit family (43_field_arith.md R198 to R212; 44_field_invert_codec.md R231 to R248). -/

namespace Sys2Proof
open Sys2Proof.Machine

/-- Settles O48. -/
theorem carriesKeepTheValue : Obligations.CarriesKeepTheValue :=
  ⟨fun _ _ _ e hi => carry_val e hi, fun _ _ e => carry_nine_val e, fun _ _ _ e => chain_val_modEq e⟩

/-- Settles O49. -/
theorem productSumsMultiply : Obligations.ProductSumsMultiply := productSums_val_modEq

/-- Settles O50: the operation on each limb passes its check, and the value is linear in the limbs. -/
theorem addAndSubAreLimbwise : Obligations.AddAndSubAreLimbwise := by
  intro s fd fa fb ha hb
  refine ⟨fun fits => ?_, fun fits => ?_⟩
  · obtain ⟨v, limbs, runs⟩ := fieldBinary_limbwise (fd := fd) ha hb fits
    exact ⟨v, fun j => by rw [limbs, Limbs.get_zip], by rw [limbs]; exact Limbs.val_zip_add _ _, runs⟩
  · obtain ⟨v, limbs, runs⟩ := fieldBinary_limbwise (fd := fd) ha hb fits
    exact ⟨v, fun j => by rw [limbs, Limbs.get_zip], by rw [limbs]; exact Limbs.val_zip_sub _ _, runs⟩

/-- Settles O51: in B(3.3) the multiplication completes, and wherever it does it keeps the product mod p. -/
theorem mulAndSqrMultiply : Obligations.MulAndSqrMultiply := by
  refine ⟨fun s fd fa fb ha hb boundA boundB => ⟨?_, ?_⟩, fun s t fd fa fb hs ht => ⟨fun h => ?_, fun h => ?_⟩⟩
  · obtain ⟨v, hv, within⟩ := mulLimbs_within boundA boundB
    obtain ⟨value, inRange⟩ := multiply_some (multiply_of_mulLimbs hv)
    have same := Limbs.toInts_toWords inRange
    exact ⟨v.toWords, by rwa [same], by rwa [same], fieldBinary_good s ha hb hv⟩
  · obtain ⟨v, hv, within⟩ := sqLimbs_within boundA
    obtain ⟨value, inRange⟩ := multiply_some (multiply_of_sqLimbs hv)
    have same := Limbs.toInts_toWords inRange
    exact ⟨v.toWords, by rwa [same], by rwa [same], fieldUnary_good s ha hv⟩
  · obtain ⟨v, -, -, hv, rfl⟩ := fieldBinary_ok s hs h ht
    obtain ⟨value, inRange⟩ := multiply_some (multiply_of_mulLimbs hv)
    rwa [State.feInts_written inRange]
  · obtain ⟨v, -, hv, rfl⟩ := fieldUnary_ok s hs h ht
    obtain ⟨value, inRange⟩ := multiply_some (multiply_of_sqLimbs hv)
    rwa [State.feInts_written inRange]

/-- Settles O52: past their pre-scaling the two commands are one multiplication. -/
theorem squareEqualsMultiply : Obligations.SquareEqualsMultiply := by
  intro s t u fd fa hs hsq hmul ht hu
  obtain ⟨v, -, hv, rfl⟩ := fieldUnary_ok s hs hsq ht
  obtain ⟨w, -, -, hw, rfl⟩ := fieldBinary_ok s hs hmul hu
  cases (multiply_of_sqLimbs hv).symm.trans (multiply_of_mulLimbs hw)
  exact ⟨rfl, rfl⟩

/-- Settles O53: a register's limbs times 121666 are small against every check. -/
theorem mul121666AlwaysCompletes : Obligations.Mul121666AlwaysCompletes := by
  intro s fd fa ha
  obtain ⟨v, hv, value, inRange, within⟩ := mul121666Limbs_completes s.params.mul121666Order (s.feInts_range fa)
  have same := Limbs.toInts_toWords inRange
  exact ⟨v.toWords, by rwa [same], by rwa [same], fieldUnary_good s ha hv⟩

/-- Settles O54: in B(3.3) the chain completes, and its value is the power. -/
theorem invRaisesToPMinusTwo : Obligations.InvRaisesToPMinusTwo := by
  intro s fd fa ha bound
  obtain ⟨v, hv, within⟩ := invLimbs_within bound
  obtain ⟨value, inRange⟩ := invLimbs_isPow (s.feInts_range fa) hv
  have same := Limbs.toInts_toWords inRange
  refine ⟨v.toWords, by rw [same]; exact value, by rwa [same], fun zero => ?_, fieldUnary_good s ha hv⟩
  have operand : s.feInts fa = Limbs.const 0 := congrArg Limbs.toInts zero
  rw [operand, invLimbs_zero] at hv
  exact congrArg Limbs.toWords (Option.some.inj hv).symm

/-- Settles O55: the power p - 2 times the operand is the power p - 1, which is 1 by Fermat, p being prime. -/
theorem inverseTimesOperandIsOne : Obligations.InverseTimesOperandIsOne := by
  intro s t fd fa hs h ht nonzero
  obtain ⟨v, -, hv, rfl⟩ := fieldUnary_ok s hs h ht
  obtain ⟨value, inRange⟩ := invLimbs_isPow (s.feInts_range fa) hv
  rw [State.feInts_written inRange]
  calc v.val * (s.feInts fa).val
      ≡ (s.feInts fa).val ^ (2 ^ 255 - 21) * (s.feInts fa).val [ZMOD (2 ^ 255 - 19)] := Int.ModEq.mul_right _ value
    _ = (s.feInts fa).val ^ (2 ^ 255 - 20) := (pow_succ _ _).symm
    _ ≡ 1 [ZMOD (2 ^ 255 - 19)] := pow_prime_sub_one_modEq nonzero

/-- Settles O57. -/
theorem decodeLoadsTheValue : Obligations.DecodeLoadsTheValue := by
  intro s fd sh soff good
  obtain ⟨v, value, within, runs⟩ := execFDecode_good (fd := fd) good
  have same := Limbs.toInts_toWords within.inI32
  exact ⟨v.toWords, by rwa [same], by rwa [same], runs⟩

/-- Settles O58. -/
theorem encodeStoresCanonicalValue : Obligations.EncodeStoresCanonicalValue := by
  intro s fa dh doff good ha within
  obtain ⟨b, length, value, runs⟩ := execFEncode_good good ha within
  refine ⟨_, runs, ?_, s.memWrite_unchangedOutside good length, rfl⟩
  exact (congrArg (fun b => (leValue b : Int)) (State.memRead_memWrite_good good length)).trans value

/-- Settles O59: what F_DECODE loads is in B(1.1), and F_ENCODE stores its canonical value. -/
theorem encodeAfterDecodeIsCanonical : Obligations.EncodeAfterDecodeIsCanonical := by
  intro s f sh soff dh doff goodS goodD
  obtain ⟨v, value, within, decodes⟩ := execFDecode_good (fd := f) goodS
  have loaded := State.feInts_written (s := s) (fd := f) within.inI32
  obtain ⟨u, encodes, stored, -⟩ := encodeStoresCanonicalValue ((s.writeFe f v.toWords).complete false) f dh doff goodD
    (congrArg FeReg.written (s.feReg_writeFe_self f v.toWords))
    (by rw [loaded]; exact within.mono (num' := 22) (by decide))
  rw [loaded] at stored
  have equal := stored.trans value
  have canonical : leValue (u.memRead dh doff 32) = leValue (s.memRead sh soff 32) % 2 ^ 255 % (2 ^ 255 - 19) := by omega
  refine ⟨_, u, decodes, encodes, canonical, fun small => leValue_injective ?_ ?_⟩
  · exact (State.memRead_length (mt (regionBad_exec encodes _).1 goodD)).trans (State.memRead_length goodS).symm
  · rw [canonical, Nat.mod_eq_of_lt (small.trans (by decide)), Nat.mod_eq_of_lt small]

/-- Settles O60: the bytes F_ENCODE stores are the canonical value, and F_DECODE loads it. -/
theorem decodeAfterEncodeKeepsElement : Obligations.DecodeAfterEncodeKeepsElement := by
  intro s fa fd dh doff good ha within
  obtain ⟨t, encodes, stored, -⟩ := encodeStoresCanonicalValue s fa dh doff good ha within
  obtain ⟨v, value, withinV, decodes⟩ := execFDecode_good (fd := fd) (mt (regionBad_exec encodes _).1 good)
  refine ⟨t, _, encodes, decodes, ?_⟩
  rw [State.feInts_written withinV.inI32]
  have small : leValue (t.memRead dh doff 32) < 2 ^ 255 := by omega
  rw [Nat.mod_eq_of_lt small, stored] at value
  exact value.trans (Int.mod_modEq _ _)

end Sys2Proof
end
